-- ==== Sys2Proof/Word.lean ====
section
/-! DEFINITION. The word types of the block (00_scope.md R10, R12) and the constants it fixes (R7, R8). -/

namespace Sys2Proof

/-- R10: a byte is 8 bits. -/
abbrev Byte := BitVec 8

/-- A target address: an opaque handle of 8 * PTR_BYTES bits (R32, R52). The width is a parameter, so an address is a
number and every access reduces it modulo 2^(8*PTR_BYTES) (log 18). -/
abbrev Address := Nat

/-- R7: frame start sentinel. -/
abbrev stx : Byte := 0x55#8

/-- R7: frame end sentinel. -/
abbrev etx : Byte := 0xAA#8

/-- R7: escape marker, and the XOR mask of an escaped byte. -/
abbrev esc : Byte := 0x66#8

/-- R7: delimiter of the GetInfo records, not reserved at frame level. -/
abbrev recordSeparator : Byte := 0x33#8

/-- R7: initial value of the CRC accumulator. -/
abbrev crcSeed : Byte := 0x00#8

/-- R7: largest sizeBytes of a channel. -/
abbrev maxValueBytes : Nat := 8

/-- R7: largest dereferenceDepth. -/
abbrev maxDepth : Nat := 15

/-- R7: least unescaped length of a frame. -/
abbrev minDecoded : Nat := 4

/-- R7, conflict C1: most parameter bytes of a message. -/
abbrev maxParams : Nat := 124

/-- R8: MAX_PARAMS + 4. -/
abbrev maxDecoded : Nat := maxParams + 4

/-- R7: the node id every endpoint accepts. -/
abbrev broadcastId : Byte := 0xFF#8

/-- R7: value bytes in a QueryRegister reply. -/
abbrev queryValueBytes : Nat := 4

/-- R9, D21: least length of a full ConfigChannel, fixed at 8. -/
abbrev cfgFullMinLen : Nat := 8

/-! R7, R85: the nine command bytes. -/

abbrev cmdVersion : Byte := 0x56#8
abbrev cmdInfo : Byte := 0x49#8
abbrev cmdWrite : Byte := 0x57#8
abbrev cmdQuery : Byte := 0x51#8
abbrev cmdConfig : Byte := 0x43#8
abbrev cmdDecimation : Byte := 0x44#8
abbrev cmdResetTime : Byte := 0x54#8
abbrev cmdReadChannelData : Byte := 0x52#8
abbrev cmdDebugString : Byte := 0x53#8

end Sys2Proof
end

