-- ==== Sys2Proof/Syntax.lean ====
section
/-! DEFINITION. The instructions: one constructor for each row of spec/opcode_table.json (30_encoding.md R82, R85, R100),
with the operands the row names. -/

namespace Sys2Proof

/-- R84: a decoded message. -/
structure Message where
  nodeId : Byte
  msgId : Byte
  command : Byte
  params : List Byte
  deriving DecidableEq, Repr

/-- The two header bytes of a message whose command byte is fixed by its row (R84). -/
structure Header where
  nodeId : Byte
  msgId : Byte
  deriving DecidableEq, Repr

/-- R200: a channel descriptor given by value (a scratch descriptor). -/
structure Descriptor where
  address : Address
  dereferenceDepth : Byte
  sizeBytes : Byte
  previousValue : Vector Byte 8
  deriving DecidableEq, Repr

/-- R200: "either one of the 16 registry slots ... (used by the telemetry scan) or a scratch descriptor". The slot form is the
scan's, whose counter selects the slot (R283, "CH.RD ch[i]"); no port request has it (R31, log 16). -/
inductive ChannelRef
  | slot (i : Fin 16)
  | scratch (d : Descriptor)
  deriving DecidableEq, Repr

/-- One constructor per row of the operation and command table. -/
inductive Instr
  /-- OP0.RESERVED, R97 -/
  | op0Reserved
  /-- CRC.CLR, R121 -/
  | crcClr
  /-- CRC.UPD, R122 -/
  | crcUpd (b : Byte)
  /-- CRC.CHK, R125 -/
  | crcChk
  /-- ESC.PUT, R141 -/
  | escPut (b : Byte)
  /-- ESC.GET, R143 -/
  | escGet (w : Byte)
  /-- FRM.ENC, R146 -/
  | frmEnc (payload : List Byte)
  /-- FRM.DEC, R148 -/
  | frmDec (frame : List Byte)
  /-- RB.PUSH, R172 -/
  | rbPush (bytes : List Byte)
  /-- RB.NEXT, R176 -/
  | rbNext
  /-- CH.RD, R206 -/
  | chRd (d : ChannelRef)
  /-- CH.WR, R210. The value travels on a field of MAX_VALUE_BYTES bytes, its first sizeBytes bytes are v (log 16). -/
  | chWr (d : ChannelRef) (v : Vector Byte 8)
  /-- DSP.MSG, R231 -/
  | dspMsg (m : Message)
  /-- TM.TICK, R281 -/
  | tmTick
  /-- TM.POLL, R283 -/
  | tmPoll
  /-- RST, R350 -/
  | rst
  /-- V.GetVersion, R236 -/
  | vGetVersion (h : Header) (params : List Byte)
  /-- I.GetInfo, R237 -/
  | iGetInfo (h : Header) (params : List Byte)
  /-- W.WriteRegister, R241 -/
  | wWriteRegister (h : Header) (params : List Byte)
  /-- Q.QueryRegister, R243 -/
  | qQueryRegister (h : Header) (params : List Byte)
  /-- C.ConfigChannel.query, R249: exactly one parameter byte -/
  | cConfigQuery (h : Header) (index : Byte)
  /-- C.ConfigChannel.mode, R250: exactly two parameter bytes -/
  | cConfigMode (h : Header) (index mode : Byte)
  /-- C.ConfigChannel.full, R251, and by the row's own note every length but 1 and 2 (R253) -/
  | cConfigFull (h : Header) (params : List Byte)
  /-- D.Decimation.query, R256: no parameter byte -/
  | dDecimationQuery (h : Header)
  /-- D.Decimation.set, R256: the value, and bytes that are ignored -/
  | dDecimationSet (h : Header) (value : Byte) (extra : List Byte)
  /-- T.ResetTime, R258 -/
  | tResetTime (h : Header) (params : List Byte)
  /-- R.ReadChannelData, R260 -/
  | rReadChannelData (h : Header) (params : List Byte)
  /-- S.DebugString, R262 -/
  | sDebugString (h : Header) (text : List Byte)
  /-- TLM.Telemetry, R95, R291: the message the block emits -/
  | tlmTelemetry (timestamp : BitVec 24) (mask : BitVec 16) (values : List Byte)
  deriving DecidableEq, Repr

/-- Why a port request is no encoding of an instruction (log 6, log 22). -/
inductive DecodeError
  /-- no select byte -/
  | emptyRequest
  /-- the select byte is neither a 4-bit OP nor a command byte of R85 -/
  | unknownSelect (b : Byte)
  /-- fewer operand bytes than the layout has -/
  | missingOperand
  /-- more operand bytes than the layout has -/
  | trailingOperand
  /-- a direction byte outside its range -/
  | badOperand
  /-- the operands break a bound of R84 or R200 -/
  | illFormed
  deriving DecidableEq, Repr

end Sys2Proof
end

