-- ==== Sys2Proof/WellFormed.lean ====
section
/-! DEFINITION. Which terms of `Instr` are instructions of the hardware: the bounds the spec puts on operands. -/

namespace Sys2Proof

/-- R84: at most MAX_PARAMS parameter bytes. -/
def paramsWf (params : List Byte) : Bool := decide (params.length ≤ maxParams)

/-- R200: depth 0..15, size 0..8. A descriptor's address is at most 8 bytes wide (R9: PTR_BYTES is 1..8). -/
def Descriptor.wf (d : Descriptor) : Bool :=
  decide (d.address < 2 ^ 64) && decide (d.dereferenceDepth.toNat ≤ maxDepth) &&
    decide (d.sizeBytes.toNat ≤ maxValueBytes)

/-- What the operation port can name: a descriptor by value (R200), never a registry slot. R31: a slot is selected by 'C' and
by the counter of the telemetry scan, "There is no other way to address a slot". -/
def ChannelRef.wf : ChannelRef → Bool
  | .slot _ => false
  | .scratch d => d.wf

/-- The operand bounds of every row. -/
def Instr.wf : Instr → Bool
  | .op0Reserved => true
  | .crcClr => true
  | .crcUpd _ => true
  | .crcChk => true
  | .escPut _ => true
  | .escGet _ => true
  | .frmEnc _ => true
  | .frmDec _ => true
  | .rbPush _ => true
  | .rbNext => true
  | .chRd d => d.wf
  | .chWr d _ => d.wf
  | .dspMsg m => paramsWf m.params
  | .tmTick => true
  | .tmPoll => true
  | .rst => true
  | .vGetVersion _ ps => paramsWf ps
  | .iGetInfo _ ps => paramsWf ps
  | .wWriteRegister _ ps => paramsWf ps
  | .qQueryRegister _ ps => paramsWf ps
  | .cConfigQuery _ _ => true
  | .cConfigMode _ _ _ => true
  | .cConfigFull _ ps => paramsWf ps && decide (ps.length ≠ 1) && decide (ps.length ≠ 2)
  | .dDecimationQuery _ => true
  | .dDecimationSet _ v extra => paramsWf (v :: extra)
  | .tResetTime _ ps => paramsWf ps
  | .rReadChannelData _ ps => paramsWf ps
  | .sDebugString _ text => paramsWf text
  | .tlmTelemetry _ _ values => decide (5 + values.length ≤ maxParams)

end Sys2Proof
end

