-- ==== Sys2Proof/Decode.lean ====
section
/-! DEFINITION. From the bytes of a port request to an instruction, and back. The operation select and the command bytes
are the spec's (30_encoding.md R82, R85); the layout of the operand bytes after them is the model's (log 6, log 7). -/

namespace Sys2Proof

/-! ## Byte order (00_scope.md R13) -/

/-- `le_N(v)`: the N bytes of v, least significant first. -/
def leBytes : Nat → Nat → List Byte
  | 0, _ => []
  | n + 1, v => BitVec.ofNat 8 v :: leBytes n (v / 256)

/-- `unle(s)`: the number whose bytes are s, least significant first. -/
def leValue : List Byte → Nat
  | [] => 0
  | b :: rest => b.toNat + 256 * leValue rest

/-! ## Messages and rows (R85, R100) -/

/-- The header of a message. -/
def Message.header (m : Message) : Header := ⟨m.nodeId, m.msgId⟩

/-- R248: the three rows of 'C', keyed by the number of parameter bytes. -/
def configRow (h : Header) : List Byte → Instr
  | [i] => .cConfigQuery h i
  | [i, mode] => .cConfigMode h i mode
  | ps => .cConfigFull h ps

/-- R256: the two rows of 'D'. -/
def decimationRow (h : Header) : List Byte → Instr
  | [] => .dDecimationQuery h
  | v :: extra => .dDecimationSet h v extra

/-- R85, R100: the row a message's command byte (and, for 'C' and 'D', its length) selects; a message with an unknown
command is no row's and stays with DSP.MSG (R234). -/
def Instr.ofMessage (m : Message) : Instr :=
  if m.command = cmdVersion then .vGetVersion m.header m.params
  else if m.command = cmdInfo then .iGetInfo m.header m.params
  else if m.command = cmdWrite then .wWriteRegister m.header m.params
  else if m.command = cmdQuery then .qQueryRegister m.header m.params
  else if m.command = cmdConfig then configRow m.header m.params
  else if m.command = cmdDecimation then decimationRow m.header m.params
  else if m.command = cmdResetTime then .tResetTime m.header m.params
  else if m.command = cmdReadChannelData then .rReadChannelData m.header m.params
  else if m.command = cmdDebugString then .sDebugString m.header m.params
  else .dspMsg m

/-- R85: the nine command bytes. -/
def commandBytes : List Byte :=
  [cmdVersion, cmdInfo, cmdWrite, cmdQuery, cmdConfig, cmdDecimation, cmdResetTime, cmdReadChannelData, cmdDebugString]

/-! ## Operand layouts (log 6) -/

/-- An operation without operands. -/
def noOperand (i : Instr) : List Byte → Except DecodeError Instr
  | [] => .ok i
  | _ :: _ => .error .trailingOperand

/-- An operation with one operand byte. -/
def oneByte (f : Byte → Instr) : List Byte → Except DecodeError Instr
  | [] => .error .missingOperand
  | [b] => .ok (f b)
  | _ :: _ :: _ => .error .trailingOperand

/-- A channel operand, a descriptor by value (R31: no operand names a slot): 8 address bytes, least significant first, depth, size, 8 latch bytes. -/
def decodeScratch : List Byte → Except DecodeError (ChannelRef × List Byte)
  | a0 :: a1 :: a2 :: a3 :: a4 :: a5 :: a6 :: a7 :: depth :: size ::
      p0 :: p1 :: p2 :: p3 :: p4 :: p5 :: p6 :: p7 :: rest =>
    .ok (.scratch ⟨leValue [a0, a1, a2, a3, a4, a5, a6, a7], depth, size, #v[p0, p1, p2, p3, p4, p5, p6, p7]⟩, rest)
  | _ => .error .missingOperand

/-- CH.RD: a channel operand and nothing more. -/
def decodeRead (ops : List Byte) : Except DecodeError Instr :=
  match decodeScratch ops with
  | .ok (d, []) => .ok (.chRd d)
  | .ok (_, _ :: _) => .error .trailingOperand
  | .error e => .error e

/-- CH.WR: a channel operand, then the 8 value bytes. -/
def decodeWrite (ops : List Byte) : Except DecodeError Instr :=
  match decodeScratch ops with
  | .ok (d, [v0, v1, v2, v3, v4, v5, v6, v7]) => .ok (.chWr d #v[v0, v1, v2, v3, v4, v5, v6, v7])
  | .ok (_, vs) => if vs.length < 8 then .error .missingOperand else .error .trailingOperand
  | .error e => .error e

/-- DSP.MSG: nodeId, msgId, command, params, in the order of R84. -/
def decodeDispatch : List Byte → Except DecodeError Instr
  | node :: id :: command :: params => .ok (.dspMsg ⟨node, id, command, params⟩)
  | _ => .error .missingOperand

/-- R82: the 16 port operations by their 4-bit select. -/
def decodePort (op : Nat) (ops : List Byte) : Except DecodeError Instr :=
  match op with
  | 0 => noOperand .op0Reserved ops
  | 1 => noOperand .crcClr ops
  | 2 => oneByte .crcUpd ops
  | 3 => noOperand .crcChk ops
  | 4 => oneByte .escPut ops
  | 5 => oneByte .escGet ops
  | 6 => .ok (.frmEnc ops)
  | 7 => .ok (.frmDec ops)
  | 8 => .ok (.rbPush ops)
  | 9 => noOperand .rbNext ops
  | 10 => decodeRead ops
  | 11 => decodeWrite ops
  | 12 => decodeDispatch ops
  | 13 => noOperand .tmTick ops
  | 14 => noOperand .tmPoll ops
  | 15 => noOperand .rst ops
  | _ => .error (.unknownSelect (BitVec.ofNat 8 op))

/-- R95: the emitted telemetry message: 3 timestamp bytes, 2 mask bytes, the values.
DESIGN CHOICE (log 8): the spec gives no port request for this row; the request's timestamp and mask stand least
significant byte first whatever WIRE_ORDER is, while the frame that goes out has them in WIRE_ORDER. -/
def decodeTelemetry : List Byte → Except DecodeError Instr
  | t0 :: t1 :: t2 :: m0 :: m1 :: values =>
    .ok (.tlmTelemetry (BitVec.ofNat 24 (leValue [t0, t1, t2])) (BitVec.ofNat 16 (leValue [m0, m1])) values)
  | _ => .error .missingOperand

/-- A message row: direction byte (0 received, 1 emitted), then for a received message nodeId, msgId, params. -/
def decodeMessage (command : Byte) : List Byte → Except DecodeError Instr
  | [] => .error .missingOperand
  | direction :: rest =>
    if direction = 0x00#8 then
      match rest with
      | node :: id :: params => .ok (Instr.ofMessage ⟨node, id, command, params⟩)
      | _ => .error .missingOperand
    else if direction = 0x01#8 ∧ command = cmdReadChannelData then decodeTelemetry rest
    else .error .badOperand

/-- The layouts alone, before the bounds of `Instr.wf`. -/
def decodeLayout : List Byte → Except DecodeError Instr
  | [] => .error .emptyRequest
  | select :: ops =>
    if select.toNat < 16 then decodePort select.toNat ops
    else if select ∈ commandBytes then decodeMessage select ops
    else .error (.unknownSelect select)

/-- The decoder: total on any bytes, every rejection has a name. -/
def decode (request : List Byte) : Except DecodeError Instr :=
  match decodeLayout request with
  | .ok i => if i.wf then .ok i else .error .illFormed
  | .error e => .error e

/-! ## The encoder -/

/-- The 8 bytes of a vector in order. -/
def vectorBytes (v : Vector Byte 8) : List Byte := [v[0], v[1], v[2], v[3], v[4], v[5], v[6], v[7]]

/-- A channel operand. A slot has no encoding (R31). -/
def encodeRef : ChannelRef → List Byte
  | .scratch d => leBytes 8 d.address ++ d.dereferenceDepth :: d.sizeBytes :: vectorBytes d.previousValue
  | .slot _ => []

/-- A received message of the given command. -/
def encodeMessage (command : Byte) (h : Header) (params : List Byte) : List Byte :=
  command :: 0x00#8 :: h.nodeId :: h.msgId :: params

/-- The bytes of a well-formed instruction. -/
def encode : Instr → List Byte
  | .op0Reserved => [0x00#8]
  | .crcClr => [0x01#8]
  | .crcUpd b => [0x02#8, b]
  | .crcChk => [0x03#8]
  | .escPut b => [0x04#8, b]
  | .escGet w => [0x05#8, w]
  | .frmEnc payload => 0x06#8 :: payload
  | .frmDec frame => 0x07#8 :: frame
  | .rbPush bytes => 0x08#8 :: bytes
  | .rbNext => [0x09#8]
  | .chRd d => 0x0A#8 :: encodeRef d
  | .chWr d v => 0x0B#8 :: (encodeRef d ++ vectorBytes v)
  | .dspMsg m => 0x0C#8 :: m.nodeId :: m.msgId :: m.command :: m.params
  | .tmTick => [0x0D#8]
  | .tmPoll => [0x0E#8]
  | .rst => [0x0F#8]
  | .vGetVersion h ps => encodeMessage cmdVersion h ps
  | .iGetInfo h ps => encodeMessage cmdInfo h ps
  | .wWriteRegister h ps => encodeMessage cmdWrite h ps
  | .qQueryRegister h ps => encodeMessage cmdQuery h ps
  | .cConfigQuery h i => encodeMessage cmdConfig h [i]
  | .cConfigMode h i mode => encodeMessage cmdConfig h [i, mode]
  | .cConfigFull h ps => encodeMessage cmdConfig h ps
  | .dDecimationQuery h => encodeMessage cmdDecimation h []
  | .dDecimationSet h v extra => encodeMessage cmdDecimation h (v :: extra)
  | .tResetTime h ps => encodeMessage cmdResetTime h ps
  | .rReadChannelData h ps => encodeMessage cmdReadChannelData h ps
  | .sDebugString h text => encodeMessage cmdDebugString h text
  | .tlmTelemetry t mask values =>
    cmdReadChannelData :: 0x01#8 :: (leBytes 3 t.toNat ++ leBytes 2 mask.toNat ++ values)

/-! ## Words of the opcode table -/

/-- The request with the fewest zero bytes after `bytes`, at most `fuel` of them, that the decoder accepts; with none,
`bytes` as they are. -/
def padRequest (bytes : List Byte) : Nat → List Byte → List Byte
  | 0, _ => bytes
  | fuel + 1, padded =>
    match decode padded with
    | .ok _ => padded
    | .error _ => padRequest bytes fuel (padded ++ [0x00#8])

/-- The request a table word stands for: its whole bytes, the one with bit 0 first, then zeros as operands. The longest
fixed operand list of any row has 26 bytes (CH.WR). -/
def tableRequest (nbits w : Nat) : List Byte :=
  padRequest (leBytes ((nbits + 7) / 8) w) 32 (leBytes ((nbits + 7) / 8) w)

/-- What the decoder reads from a table word. -/
def decodeTableWord (nbits w : Nat) : Option Instr :=
  match decode (tableRequest nbits w) with
  | .ok i => some i
  | .error _ => none

end Sys2Proof
end

