-- ==== Sys2Proof/Config.lean ====
section
/-! DEFINITION. The parameters the spec leaves to the implementation or the platform (00_scope.md R9), as one record of
plain data, the constraints it puts on them, its defaults, and the free values. -/

namespace Sys2Proof

/-- R13: the order of the bytes of a multi-byte number. -/
inductive ByteOrder
  | little
  | big
  deriving DecidableEq, Repr

/-- R9, R36, D14: the codes of the five update modes. -/
structure ModeCodes where
  off : Byte
  onChange : Byte
  periodic : Byte
  sendOnce : Byte
  sendAll : Byte
  deriving DecidableEq, Repr

/-- R9, R86, D15: the codes of the five source kinds. The core never compares against them. -/
structure KindCodes where
  handwrittenOffset : BitVec 3
  handwrittenIndex : BitVec 3
  generatedOffset : BitVec 3
  generatedIndex : BitVec 3
  absoluteAddress : BitVec 3
  deriving DecidableEq, Repr

/-- R9: the parameters of one endpoint. RESOLVE, the one that is a function, is the plain-data `Resolver` below. -/
structure Config where
  /-- CRC_TABLE -/
  crcTable : Vector Byte 256
  /-- RB_K: the ring holds 2^RB_K slots -/
  rbK : Nat
  /-- NODE_ID -/
  nodeId : Byte
  /-- PTR_BYTES -/
  ptrBytes : Nat
  /-- MEM_ORDER -/
  memOrder : ByteOrder
  /-- NULL -/
  null : Address
  /-- WIRE_ORDER -/
  wireOrder : ByteOrder
  /-- SLOW_INTERVAL_TICKS -/
  slowIntervalTicks : BitVec 32
  /-- MODE_* -/
  mode : ModeCodes
  /-- KIND_* -/
  kind : KindCodes
  /-- FORCE_BYTE -/
  forceByte : Fin 8
  /-- FORCE_BIT -/
  forceBit : Fin 8
  /-- PROTOCOL_VERSION -/
  protocolVersion : Vector Byte 4
  /-- APP_VERSION -/
  appVersion : Vector Byte 4
  /-- NODE_NAME -/
  nodeName : List Byte
  /-- SERIAL_NUMBER -/
  serialNumber : List Byte
  /-- INFO_BODY -/
  infoBody : List Byte
  /-- DBG_K: the DebugString ring holds 2^DBG_K slots -/
  dbgK : Nat
  /-- TELEMETRY_CMD -/
  telemetryCmd : Byte
  /-- TELEMETRY_MSGID -/
  telemetryMsgId : Byte
  deriving DecidableEq, Repr

/-- R9: the five mode codes as a list. -/
def ModeCodes.all (m : ModeCodes) : List Byte :=
  [m.off, m.onChange, m.periodic, m.sendOnce, m.sendAll]

/-- R9: the five kind codes as a list. -/
def KindCodes.all (k : KindCodes) : List (BitVec 3) :=
  [k.handwrittenOffset, k.handwrittenIndex, k.generatedOffset, k.generatedIndex, k.absoluteAddress]

/-- R24: the number of ring slots, 2^k. -/
def Config.ringCapacity (c : Config) : Nat := 2 ^ c.rbK

/-- R43: the number of DebugString slots, 2^DBG_K. -/
def Config.textCapacity (c : Config) : Nat := 2 ^ c.dbgK

/-- R52: the number of target addresses. -/
def Config.addressSpace (c : Config) : Nat := 2 ^ (8 * c.ptrBytes)

/-- CRC_TABLE[i] (R122: the index is 8 bits wide, so it is always within the table). -/
def Config.crcEntry (c : Config) (i : Byte) : Byte := c.crcTable[i.toNat]'i.isLt

/-- R9: the constraint column. NULL is an address. The CRC table is a bijection with entry 0 equal to 0. -/
abbrev Config.Valid (c : Config) : Prop :=
  c.crcEntry 0 = 0 ∧ c.crcTable.toList.Nodup ∧
  2 ≤ c.rbK ∧
  1 ≤ c.ptrBytes ∧ c.ptrBytes ≤ 8 ∧ c.null < c.addressSpace ∧
  1 ≤ c.slowIntervalTicks.toNat ∧
  c.mode.all.Nodup ∧ c.kind.all.Nodup ∧
  10 + c.nodeName.length + c.serialNumber.length ≤ maxParams ∧
  c.infoBody.length ≤ maxParams ∧
  1 ≤ c.dbgK

/-! ## RESOLVE as plain data (R9, R61, D33; log 17) -/

/-- One answer of the address resolver. -/
structure ResolverEntry where
  offset : BitVec 32
  control : Byte
  address : Address
  deriving DecidableEq, Repr

/-- What the resolver answers for a pair no entry names. -/
inductive ResolverFallback
  | null
  | offsetAsAddress
  deriving DecidableEq, Repr

/-- The function RESOLVE. The domain is finite, so some list of entries gives every total function. -/
structure Resolver where
  entries : List ResolverEntry
  fallback : ResolverFallback
  deriving DecidableEq, Repr

/-! ## Free values

No body: nothing in the model or in a proof can know them. -/

/-- What target memory holds at an address nothing has written (R52, U9; log 3). -/
opaque Config.unwrittenMemory : Address → Byte

/-- What a ring slot holds before it is first written (R24, R47, U2; log 4). -/
opaque Config.unwrittenSlot : Nat → Byte

/-- What a DebugString slot holds before it is first written (R43, R47, U2; log 4). -/
opaque Config.unwrittenText : Nat → Byte

/-! ## Defaults and the values at State.reset (log 1, log 2) -/

/-- R123: the default table, row by row as printed. -/
def defaultCrcRows : List Byte :=
  [0x00, 0x07, 0x0E, 0x09, 0x1C, 0x1B, 0x12, 0x15, 0x38, 0x3F, 0x36, 0x31, 0x24, 0x23, 0x2A, 0x2D] ++
  [0x70, 0x77, 0x7E, 0x79, 0x6C, 0x6B, 0x62, 0x65, 0x48, 0x4F, 0x46, 0x41, 0x54, 0x53, 0x5A, 0x5D] ++
  [0xE0, 0xE7, 0xEE, 0xE9, 0xFC, 0xFB, 0xF2, 0xF5, 0xD8, 0xDF, 0xD6, 0xD1, 0xC4, 0xC3, 0xCA, 0xCD] ++
  [0x90, 0x97, 0x9E, 0x99, 0x8C, 0x8B, 0x82, 0x85, 0xA8, 0xAF, 0xA6, 0xA1, 0xB4, 0xB3, 0xBA, 0xBD] ++
  [0xC7, 0xC0, 0xC9, 0xCE, 0xDB, 0xDC, 0xD5, 0xD2, 0xFF, 0xF8, 0xF1, 0xF6, 0xE3, 0xE4, 0xED, 0xEA] ++
  [0xB7, 0xB0, 0xB9, 0xBE, 0xAB, 0xAC, 0xA5, 0xA2, 0x8F, 0x88, 0x81, 0x86, 0x93, 0x94, 0x9D, 0x9A] ++
  [0x27, 0x20, 0x29, 0x2E, 0x3B, 0x3C, 0x35, 0x32, 0x1F, 0x18, 0x11, 0x16, 0x03, 0x04, 0x0D, 0x0A] ++
  [0x57, 0x50, 0x59, 0x5E, 0x4B, 0x4C, 0x45, 0x42, 0x6F, 0x68, 0x61, 0x66, 0x73, 0x74, 0x7D, 0x7A] ++
  [0x89, 0x8E, 0x87, 0x80, 0x95, 0x92, 0x9B, 0x9C, 0xB1, 0xB6, 0xBF, 0xB8, 0xAD, 0xAA, 0xA3, 0xA4] ++
  [0xF9, 0xFE, 0xF7, 0xF0, 0xE5, 0xE2, 0xEB, 0xEC, 0xC1, 0xC6, 0xCF, 0xC8, 0xDD, 0xDA, 0xD3, 0xD4] ++
  [0x69, 0x6E, 0x67, 0x60, 0x75, 0x72, 0x7B, 0x7C, 0x51, 0x56, 0x5F, 0x58, 0x4D, 0x4A, 0x43, 0x44] ++
  [0x19, 0x1E, 0x17, 0x10, 0x05, 0x02, 0x0B, 0x0C, 0x21, 0x26, 0x2F, 0x28, 0x3D, 0x3A, 0x33, 0x34] ++
  [0x4E, 0x49, 0x40, 0x47, 0x52, 0x55, 0x5C, 0x5B, 0x76, 0x71, 0x78, 0x7F, 0x6A, 0x6D, 0x64, 0x63] ++
  [0x3E, 0x39, 0x30, 0x37, 0x22, 0x25, 0x2C, 0x2B, 0x06, 0x01, 0x08, 0x0F, 0x1A, 0x1D, 0x14, 0x13] ++
  [0xAE, 0xA9, 0xA0, 0xA7, 0xB2, 0xB5, 0xBC, 0xBB, 0x96, 0x91, 0x98, 0x9F, 0x8A, 0x8D, 0x84, 0x83] ++
  [0xDE, 0xD9, 0xD0, 0xD7, 0xC2, 0xC5, 0xCC, 0xCB, 0xE6, 0xE1, 0xE8, 0xEF, 0xFA, 0xFD, 0xF4, 0xF3]

/-- R123: the default CRC_TABLE. -/
def defaultCrcTable : Vector Byte 256 := ⟨defaultCrcRows.toArray, by decide +kernel⟩

/-- R91, D30: the record layout this spec suggests for INFO_BODY: typeId, sizeInBytes, one RS between records. -/
def infoRecords : List (Byte × Byte) → List Byte
  | [] => []
  | [(t, n)] => [t, n]
  | (t, n) :: rest => t :: n :: recordSeparator :: infoRecords rest

/-- The parameters at State.reset: the defaults of R9, and for the OPEN ones the test configuration of
95_test_vectors.md with RB_K = 9 and DBG_K = 3 (log 1: DESIGN CHOICE). -/
def Config.default : Config where
  crcTable := defaultCrcTable
  rbK := 9
  nodeId := 0x07
  ptrBytes := 4
  memOrder := .little
  null := 0
  wireOrder := .little
  slowIntervalTicks := 10
  mode := { off := 0, onChange := 1, periodic := 2, sendOnce := 3, sendAll := 4 }
  kind := { handwrittenOffset := 0, handwrittenIndex := 1, generatedOffset := 2, generatedIndex := 3, absoluteAddress := 4 }
  forceByte := 0
  forceBit := 0
  protocolVersion := #v[0x01, 0x02, 0x03, 0x04]
  appVersion := #v[0x05, 0x06, 0x07, 0x08]
  nodeName := [0x4E, 0x37]
  serialNumber := [0x53, 0x31]
  infoBody := infoRecords [(1, 1), (2, 2), (3, 4)]
  dbgK := 3
  telemetryCmd := cmdReadChannelData
  telemetryMsgId := 0x00

/-- RESOLVE at State.reset: the test configuration's identity (log 1: DESIGN CHOICE). -/
def Resolver.default : Resolver where
  entries := []
  fallback := .offsetAsAddress

end Sys2Proof
end

