-- ==== Sys2Proof/Machine/State.lean ====
section
/-! DEFINITION. The state of the machine as plain data: the four groups of 10_state.md R20, beside them the parameters
and the environment of R46, and the model's own record of what went in and out. -/

namespace Sys2Proof.Machine

/-- Sparse bytes by key: keys strictly rising, a key that is not listed has no value here. -/
abbrev Memory := List Host.Cell

/-- One of the 16 debug-channel slots (R31 to R38). -/
structure Channel where
  address : Address
  dereferenceDepth : Byte
  sizeBytes : Byte
  previousValue : Vector Byte 8
  updateMode : Byte
  offset : BitVec 32
  control : Byte
  deriving DecidableEq, Repr

/-- R311: the fourteen reasons for a drop. A label of the model, held by no register of the block. -/
inductive Drop
  | overrun
  | abandoned
  | strayEtx
  | danglingEsc
  | shortFrame
  | longFrame
  | badCrc
  | notForMe
  | unknownCommand
  | badChannel
  | badLength
  | badSize
  | nullPointer
  | dbgOverflow
  deriving DecidableEq, Repr

/-- What another agent does between two atomic steps of the block (20_memory.md R64, R66; log 11). -/
inductive Arrival
  /-- the producer begins an RB.PUSH of these bytes (R172); none of them is pushed yet -/
  | beginPush (bytes : List Byte)
  /-- the producer makes the next iteration of the RB.PUSH it is in (R171, R172) -/
  | pushStep
  /-- at a boundary inside an RB.PUSH operation: the consumer goes on before the next iteration (R172); elsewhere nothing -/
  | consumerTurn
  /-- the tick source ticks (R281) -/
  | tick
  /-- an owner of target memory changes one byte (R52, R66 (d)) -/
  | memoryWrite (a : Address) (b : Byte)
  /-- the text-output collaborator takes one byte (R262) -/
  | takeText
  /-- what a byte read at NULL gives changes (log 26) -/
  | nullByte (b : Byte)
  /-- the application changes one answer of RESOLVE (D33: deterministic within one operation) -/
  | bind (e : ResolverEntry)
  /-- somebody asks for a port operation (R82); it waits its turn -/
  | request (bytes : List Byte)
  deriving DecidableEq, Repr

/-- Where the main loop of 44_dispatcher.md R264 stands: the operation it runs next. -/
inductive LoopPhase
  /-- RB.NEXT -/
  | drain
  /-- DSP.MSG of the message RB.NEXT returned -/
  | dispatch (m : Message)
  /-- TM.POLL -/
  | poll
  deriving DecidableEq, Repr

/-- The result column of R82. -/
inductive PortResult
  /-- no operation has returned a result yet -/
  | nothing
  /-- CRC.CHK: `crc` and `ok` -/
  | crcCheck (crc : Byte) (ok : Bool)
  /-- ESC.PUT and FRM.ENC: wire bytes -/
  | wire (bytes : List Byte)
  /-- ESC.GET: Some(byte) or None -/
  | unescaped (b : Option Byte)
  /-- FRM.DEC: Some(payload) or None -/
  | payload (p : Option (List Byte))
  /-- RB.NEXT: Some(Message) or None -/
  | message (m : Option Message)
  /-- CH.RD: the value or None, `changed`, and the descriptor's latch after the read (log 16) -/
  | value (v : Option (List Byte)) (changed : Bool) (latch : Vector Byte 8)
  deriving DecidableEq, Repr

/-- Nothing stops the machine with a fault: "All failures are non-fatal and local" (60_exceptions.md R310), a failing
input is a drop, which is a next state. So the type has no constructor (log 25). -/
inductive Fault
  deriving DecidableEq, Repr

/-- Why a run ends without a meaning (00_scope.md R16, 60_exceptions.md R312). -/
inductive Refusal
  /-- Raised by an arm of exec whose instruction has no meaning yet. Safe. -/
  | notModelled (mnemonic : String)
  /-- `REFUSED(CfgLen7)`, raised by 'C' with exactly 7 parameter bytes (R253). Safe: the spec refuses it. -/
  | cfgLen7
  /-- `REFUSED(BodyTooLong)`, raised by sending a message of more than MAX_PARAMS parameter bytes (R150, R292). Safe:
  the spec refuses it. -/
  | bodyTooLong
  /-- Raised by a step whose port request is no encoding of any instruction (log 22). Safe. -/
  | malformedRequest (e : DecodeError)
  deriving DecidableEq, Repr

/-- The machine. -/
structure State where
  /-- the parameters (R9, R46): fixed, no operation writes them -/
  cfg : Config
  -- (a) datapath registers, R21, R23
  crc : Byte
  escPending : Bool
  -- (b) ring buffer, R24 to R28
  buf : Memory
  pushIndex : Nat
  parseIndex : Nat
  frameStart : Nat
  startValid : Bool
  overrun : Bool
  -- (c) channel registry, R31
  ch : Vector Channel 16
  -- (d) endpoint state, R39 to R43
  decimation : BitVec 32
  timeTicks : BitVec 32
  tracingOn : Bool
  tracingOnce : Bool
  lastFastUpdate : BitVec 32
  lastSlowUpdate : BitVec 32
  dbgBuf : Memory
  dbgPush : Nat
  dbgPop : Nat
  -- the environment, R46, R50
  mem : Memory
  resolver : Resolver
  -- the model's own: the free value that stands for a byte read at NULL, which the block never accesses (R60, R202; log 26)
  nullByte : Byte
  -- the model's own: inputs that wait
  requests : List (List Byte)
  arrivals : List (List Arrival)
  loop : LoopPhase
  -- the model's own: RB.PUSH operations begun and not finished, oldest first, each the bytes it has still to push (R172)
  pushing : List (List Byte)
  -- the model's own: what came out
  result : PortResult
  tx : List (List Byte)
  textOut : List Byte
  drops : List Drop
  deriving DecidableEq, Repr

/-- R38, R47: a zero-initialised slot, with NULL for its address and MODE_OFF for its mode. -/
def Channel.zeroed (c : Config) : Channel where
  address := c.null
  dereferenceDepth := 0
  sizeBytes := 0
  previousValue := Vector.replicate 8 0
  updateMode := c.mode.off
  offset := 0
  control := 0

/-- The machine right after power-on: R47 and the reset column of R20 for the block; the parameters, the environment and
the model's own fields as log 1 to log 5 say. -/
def State.reset : State where
  cfg := Config.default
  crc := crcSeed
  escPending := false
  buf := []
  pushIndex := 0
  parseIndex := 0
  frameStart := 0
  startValid := false
  overrun := false
  ch := Vector.replicate 16 (Channel.zeroed Config.default)
  decimation := 1
  timeTicks := 0
  tracingOn := false
  tracingOnce := false
  lastFastUpdate := 0
  lastSlowUpdate := 0
  dbgBuf := []
  dbgPush := 0
  dbgPop := 0
  mem := []
  resolver := Resolver.default
  nullByte := 0x00
  requests := []
  arrivals := []
  loop := .drain
  pushing := []
  result := .nothing
  tx := []
  textOut := []
  drops := []

end Sys2Proof.Machine
end

