-- ==== Sys2Proof/Machine/Operands.lean ====
section
/-! DEFINITION. How operands are assembled from bytes (30_encoding.md R86 to R96): byte order, addresses, the control
byte, RESOLVE, the parameter layouts. -/

namespace Sys2Proof.Machine

/-! ## Multi-byte fields (R13) -/

/-- The N bytes of a number in the given order. -/
def orderBytes (o : ByteOrder) (n v : Nat) : List Byte :=
  match o with
  | .little => leBytes n v
  | .big => (leBytes n v).reverse

/-- The number whose bytes stand in the given order. -/
def orderValue (o : ByteOrder) (s : List Byte) : Nat :=
  match o with
  | .little => leValue s
  | .big => leValue s.reverse

/-- `wire_N(v)`, R13, R54. -/
def wire (c : Config) (n v : Nat) : List Byte := orderBytes c.wireOrder n v

/-- `unwire(s)`, R13. -/
def unwire (c : Config) (s : List Byte) : Nat := orderValue c.wireOrder s

/-- `ptr_bytes(v)`, R13. -/
def pointerBytes (c : Config) (v : Nat) : List Byte := orderBytes c.memOrder c.ptrBytes v

/-- `unptr(s)`, R13, R55. -/
def unpointer (c : Config) (s : List Byte) : Nat := orderValue c.memOrder s

/-! ## Addresses -/

/-- R52: address arithmetic is modulo 2^(8*PTR_BYTES). -/
def wrap (c : Config) (a : Nat) : Address := a % c.addressSpace

/-- R61, D33: RESOLVE, total; its answer is an address of 8*PTR_BYTES bits. -/
def resolve (c : Config) (r : Resolver) (offset : BitVec 32) (control : Byte) : Address :=
  wrap c <|
    match r.entries.find? (fun e => e.offset == offset && e.control == control) with
    | some e => e.address
    | none =>
      match r.fallback with
      | .null => c.null
      | .offsetAsAddress => offset.toNat

/-! ## The control byte (R86) -/

/-- Bit 7: 0 = read, 1 = write. Not examined by the core (R245). -/
def controlDirection (control : Byte) : Bool := control.getLsbD 7

/-- Bits 6:4. Not examined by the core (R245). -/
def controlKind (control : Byte) : BitVec 3 := control.extractLsb' 4 3

/-- Bits 3:0, kept in an 8-bit field (R33). -/
def controlDepth (control : Byte) : Byte := control &&& 0x0F#8

/-- R86: the five source kinds. -/
inductive SourceKind
  | handwrittenOffset
  | handwrittenIndex
  | generatedOffset
  | generatedIndex
  | absoluteAddress
  deriving DecidableEq, Repr

/-- R86, D15: the kind a control byte names, none for a reserved code. RESOLVE may look at it, the core does not. -/
def sourceKind (c : Config) (control : Byte) : Option SourceKind :=
  let k := controlKind control
  if k = c.kind.handwrittenOffset then some .handwrittenOffset
  else if k = c.kind.handwrittenIndex then some .handwrittenIndex
  else if k = c.kind.generatedOffset then some .generatedOffset
  else if k = c.kind.generatedIndex then some .generatedIndex
  else if k = c.kind.absoluteAddress then some .absoluteAddress
  else none

/-! ## Parameter fields (R96) -/

/-- `s[i : i+n]`, R11. -/
def slice (s : List Byte) (i n : Nat) : List Byte := (s.drop i).take n

/-- `s[i]`, R11; every use is behind a length test. -/
def byteAt (s : List Byte) (i : Nat) : Byte := s.getD i 0

/-- R96: a 32-bit offset from four parameter bytes. -/
def offsetAt (c : Config) (params : List Byte) (i : Nat) : BitVec 32 :=
  BitVec.ofNat 32 (unwire c (slice params i 4))

/-- The operands 'W' and 'Q' share (R87, R88). -/
structure RegisterOperands where
  offset : BitVec 32
  control : Byte
  size : Byte
  deriving DecidableEq, Repr

/-- R238: parse_reg. -/
def parseRegister (c : Config) (params : List Byte) : Except Drop RegisterOperands :=
  if params.length < 6 then .error .badLength
  else if maxValueBytes < (byteAt params 5).toNat then .error .badSize
  else .ok ⟨offsetAt c params 0, byteAt params 4, byteAt params 5⟩

/-- R239: the scratch descriptor of 'W' and 'Q'. -/
def scratchDescriptor (c : Config) (r : Resolver) (o : RegisterOperands) : Descriptor where
  address := resolve c r o.offset o.control
  dereferenceDepth := controlDepth o.control
  sizeBytes := o.size
  previousValue := Vector.replicate 8 0

/-- The descriptor part of a registry slot (R200). -/
def Channel.descriptor (ch : Channel) : Descriptor where
  address := ch.address
  dereferenceDepth := ch.dereferenceDepth
  sizeBytes := ch.sizeBytes
  previousValue := ch.previousValue

end Sys2Proof.Machine
end

