-- ==== Sys2Proof/Machine/Flags.lean ====
section
/-! DEFINITION. Every one-bit result the block computes: guards, comparisons and conditions. The block has no condition
codes (10_state.md R44). -/

namespace Sys2Proof.Machine

/-- R140: the three values reserved on the wire. -/
def isReserved (b : Byte) : Bool := b == stx || b == etx || b == esc

/-- R24: the successor of a ring index. -/
def ringNext (c : Config) (j : Nat) : Nat := (j + 1) % c.ringCapacity

/-- R43: the successor of a DebugString index. -/
def textNext (c : Config) (j : Nat) : Nat := (j + 1) % c.textCapacity

/-- R171: the latched guard, then the unlatched guard. -/
def pushRefused (s : State) : Bool :=
  if s.startValid then s.pushIndex == s.frameStart
  else ringNext s.cfg s.pushIndex == s.parseIndex

/-- R262: the full test of the DebugString ring. -/
def textFull (s : State) : Bool := textNext s.cfg s.dbgPush == s.dbgPop

/-- R125: `ok`. -/
def crcOk (crc : Byte) : Bool := crc == 0x00#8

/-- R206: `changed`, a comparison of byte strings with the first n bytes of the latch. -/
def latchDiffers (latch : Vector Byte 8) (n : Nat) (value : List Byte) : Bool :=
  value != latch.toList.take n

/-- R232: the node filter. -/
def addressed (c : Config) (nodeId : Byte) : Bool := nodeId == c.nodeId || nodeId == broadcastId

/-- R233: the reply filter, "a nonzero message id or a nonempty body". -/
def replyTransmitted (msgId : Byte) (body : List Byte) : Bool := msgId != 0x00#8 || !body.isEmpty

/-- R293: elapsed ticks modulo 2^32, compared unsigned. -/
def intervalReached (now base interval : BitVec 32) : Bool := decide (interval ≤ now - base)

/-- R283: the two conditions of a scan. -/
def scanDue (s : State) : Bool :=
  (s.tracingOn || s.tracingOnce) && intervalReached s.timeTicks s.lastFastUpdate s.decimation

/-- R283: the slow boundary. -/
def slowBoundary (s : State) : Bool :=
  intervalReached s.timeTicks s.lastSlowUpdate s.cfg.slowIntervalTicks

/-- R288: contribution by mode, for a channel whose read succeeded. -/
def modeContributes (c : Config) (mode : Byte) (changed slowDue once : Bool) : Bool :=
  (mode == c.mode.onChange && changed) || mode == c.mode.sendAll ||
    (mode == c.mode.periodic && slowDue) || (mode == c.mode.sendOnce && once)

/-- R28: what the status port shows. -/
def State.statusPort (s : State) : Bool := s.overrun

end Sys2Proof.Machine
end

