-- ==== Sys2Proof/Machine/Ops.lean ====
section
/-! DEFINITION. The operations the meanings share: sparse memories, the drop (what this block has in place of taking an
exception), the steps of the other agents, and the byte accesses of target memory with the boundaries between them. -/

namespace Sys2Proof.Machine

/-! ## Sparse memories -/

/-- The byte listed at a key. -/
def Memory.find : Memory → Nat → Option Byte
  | [], _ => none
  | (k, b) :: rest, a => if a = k then some b else Memory.find rest a

/-- Store one byte, keeping the keys strictly rising. -/
def Memory.store : Memory → Nat → Byte → Memory
  | [], a, v => [(a, v)]
  | (k, b) :: rest, a, v =>
    if a < k then (a, v) :: (k, b) :: rest
    else if a = k then (a, v) :: rest
    else (k, b) :: Memory.store rest a v

/-- The canonical form: keys strictly rising. An unlisted key has no value, so no entry can equal what it reads as. -/
abbrev Memory.wf (m : Memory) : Prop := m.Pairwise (fun x y => x.1 < y.1)

/-! ## The drop

60_exceptions.md R310, R318, R319: nothing is saved, no mode changes, control goes nowhere, nothing returns. The operation
ends and its caller goes on. The one thing written is the model's own record of the reason (log 14). -/

/-- Record a drop. -/
def State.drop (s : State) (r : Drop) : State := { s with drops := s.drops ++ [r] }

/-! ## Ring slots and text slots (R24, R43) -/

/-- `buf[j]`. -/
def State.slot (s : State) (j : Nat) : Byte := (Memory.find s.buf j).getD (Config.unwrittenSlot j)

/-- `dbgBuf[j]`. -/
def State.textSlot (s : State) (j : Nat) : Byte := (Memory.find s.dbgBuf j).getD (Config.unwrittenText j)

/-! ## One pushed byte (R171) -/

/-- The refusing branch: the flag is set, the byte is lost. -/
def State.refusePush (s : State) : State := { s with overrun := true }.drop .overrun

/-- The accepting branch: the slot is written, the index moves. -/
def State.acceptPush (s : State) (b : Byte) : State :=
  { s with buf := Memory.store s.buf s.pushIndex b, pushIndex := ringNext s.cfg s.pushIndex }

/-- One atomic push step of the producer. -/
def State.pushByte (s : State) (b : Byte) : State :=
  if pushRefused s then s.refusePush else s.acceptPush b

/-! ## A push of several bytes (R172; log 12) -/

/-- The pushes that wait. -/
def State.withPushing (s : State) (p : List (List Byte)) : State := { s with pushing := p }

/-- An RB.PUSH begins, behind those that are not finished: there is one producer (R361). -/
def State.beginPush (s : State) (bytes : List Byte) : State := s.withPushing (s.pushing ++ [bytes])

/-- R172: the next iteration of the oldest unfinished RB.PUSH. A refusal ends it, and its later bytes are dropped; so does
the last byte. -/
def State.pushStep (s : State) : State :=
  match s.pushing with
  | [] => s
  | [] :: later => s.withPushing later
  | (b :: rest) :: later =>
    (s.withPushing (if pushRefused s || rest.isEmpty then later else rest :: later)).pushByte b

/-! ## One tick (R281) -/

/-- Add 1 modulo 2^32. -/
def State.tick (s : State) : State := { s with timeTicks := s.timeTicks + 1 }

/-! ## Target memory, one byte (R15, R52) -/

/-- The byte target memory holds; the address wraps. -/
def State.readByte (s : State) (a : Address) : Byte :=
  (Memory.find s.mem (wrap s.cfg a)).getD (Config.unwrittenMemory (wrap s.cfg a))

/-- Target memory changes by one byte; the address wraps. -/
def State.writeByte (s : State) (a : Address) (b : Byte) : State :=
  { s with mem := Memory.store s.mem (wrap s.cfg a) b }

/-- The block reads one byte. R60, R202: it never reads address NULL; what a value or pointer that runs onto NULL has there the
spec does not say, and it is a free value (log 26). -/
def State.loadByte (s : State) (a : Address) : Byte :=
  if wrap s.cfg a = s.cfg.null then s.nullByte else s.readByte a

/-- The block writes one byte. R60, R202: it never writes address NULL (log 26). -/
def State.storeByte (s : State) (a : Address) (b : Byte) : State :=
  if wrap s.cfg a = s.cfg.null then s else s.writeByte a b

/-! ## The other agents (R64 to R66; log 11) -/

/-- R262: the collaborator reads `dbgBuf[dbgPop]` and advances while `dbgPop != dbgPush`. -/
def State.takeText (s : State) : State :=
  if s.dbgPop = s.dbgPush then s
  else { s with textOut := s.textOut ++ [s.textSlot s.dbgPop], dbgPop := textNext s.cfg s.dbgPop }

/-- One outside event. -/
def State.apply (s : State) : Arrival → State
  | .beginPush bytes => s.beginPush bytes
  | .pushStep => s.pushStep
  | .consumerTurn => s
  | .tick => s.tick
  | .memoryWrite a b => s.writeByte a b
  | .takeText => s.takeText
  | .nullByte b => { s with nullByte := b }
  | .bind e => { s with resolver := { s.resolver with entries := e :: s.resolver.entries } }
  | .request bytes => { s with requests := s.requests ++ [bytes] }

/-- A boundary between two atomic steps: the next planned events happen, in order. -/
def State.land (s : State) : State :=
  match s.arrivals with
  | [] => s
  | events :: later => events.foldl State.apply { s with arrivals := later }

/-! ## Target memory, several bytes (R15, R66 (d), R212)

One byte access after another in ascending address order, each followed by a boundary. A value or a pointer may begin below
NULL and run onto it (R52: `addr + j` is modular): the byte at NULL is not accessed (log 26), the others are. -/

/-- `MemRead(a, n)`. -/
def readBytes : Nat → Address → State → List Byte × State
  | 0, _, s => ([], s)
  | n + 1, a, s =>
    let later := readBytes n (a + 1) s.land
    (s.loadByte a :: later.1, later.2)

/-- `MemWrite(a, n, v)` for the bytes v. -/
def writeBytes : List Byte → Address → State → State
  | [], _, s => s
  | b :: rest, a, s => writeBytes rest (a + 1) (s.storeByte a b).land

/-- `MemReadPtr(a)`: PTR_BYTES single bytes, as an address (R15, R57). -/
def readPointer (a : Address) (s : State) : Address × State :=
  let r := readBytes s.cfg.ptrBytes a s
  (unpointer s.cfg r.1, r.2)

/-! ## Registry slots -/

/-- Write one slot. -/
def State.setChannel (s : State) (i : Fin 16) (c : Channel) : State := { s with ch := s.ch.set i c }

/-- The port shows a result (R82; log 13). -/
def State.withResult (s : State) (r : PortResult) : State := { s with result := r }

end Sys2Proof.Machine
end

