-- ==== Sys2Proof/Machine/Codec.lean ====
section
/-! DEFINITION. The CRC-8 generator (40_crc8.md), the byte stuffer and the frame codec (41_byte_stuffer.md): pure
functions, the Outbound Builder, and the meanings of CRC.*, ESC.* and FRM.*. -/

namespace Sys2Proof.Machine

/-! ## CRC-8 -/

/-- R122: one step of the accumulator. -/
def crcStep (c : Config) (crc b : Byte) : Byte := c.crcEntry (crc ^^^ b)

/-- The accumulator after absorbing bytes from a given start (R129). -/
def crcFrom (c : Config) (start : Byte) (s : List Byte) : Byte := s.foldl (crcStep c) start

/-- R124: crc8, seeded with CRC_SEED. -/
def crc8 (c : Config) (s : List Byte) : Byte := crcFrom c crcSeed s

/-- CRC.CLR, R121. -/
def execCrcClr (s : State) : Host.Outcome State Fault Refusal :=
  .next { s with crc := crcSeed, escPending := false }

/-- CRC.UPD, R122. -/
def execCrcUpd (b : Byte) (s : State) : Host.Outcome State Fault Refusal :=
  .next { s with crc := crcStep s.cfg s.crc b }

/-- CRC.CHK, R125. -/
def execCrcChk (s : State) : Host.Outcome State Fault Refusal :=
  .next (s.withResult (.crcCheck s.crc (crcOk s.crc)))

/-! ## Byte stuffer -/

/-- R141: escape one byte. -/
def escape (b : Byte) : List Byte := if isReserved b then [esc, b ^^^ esc] else [b]

/-- R142. -/
def stuff (s : List Byte) : List Byte := s.flatMap escape

/-- R143: one byte of the streaming unstuffer: the result, and `escPending` afterwards. -/
def unescapeStep (pending : Bool) (w : Byte) : Option Byte × Bool :=
  if pending then (some (w ^^^ esc), false)
  else if w = esc then (none, true)
  else (some w, false)

/-- R144, with the pending bit the sequence starts from: the `Some` results of the steps in order, nothing if the bit is
still set after the last byte. -/
def unstuffFrom : Bool → List Byte → Option (List Byte)
  | true, [] => none
  | false, [] => some []
  | pending, w :: rest =>
    match unescapeStep pending w with
    | (some b, p) => (unstuffFrom p rest).map (b :: ·)
    | (none, p) => unstuffFrom p rest

/-- R144. -/
def unstuff (body : List Byte) : Option (List Byte) := unstuffFrom false body

/-- ESC.PUT, R141. -/
def execEscPut (b : Byte) (s : State) : Host.Outcome State Fault Refusal :=
  .next (s.withResult (.wire (escape b)))

/-- ESC.GET, R143. -/
def execEscGet (w : Byte) (s : State) : Host.Outcome State Fault Refusal :=
  .next { s with result := .unescaped (unescapeStep s.escPending w).1, escPending := (unescapeStep s.escPending w).2 }

/-! ## Frames -/

/-- R146. -/
def frameEncode (c : Config) (payload : List Byte) : List Byte :=
  [stx] ++ stuff payload ++ stuff [crc8 c payload] ++ [etx]

/-- R149: the checks on an unescaped sequence, in the order of R316. -/
def checkUnescaped (c : Config) (u : List Byte) : Except Drop (List Byte) :=
  if u.length < minDecoded then .error .shortFrame
  else if maxDecoded < u.length then .error .longFrame
  else if crc8 c u ≠ 0x00#8 then .error .badCrc
  else .ok u.dropLast

/-- R149: decode_body. -/
def decodeBody (c : Config) (body : List Byte) : Except Drop (List Byte) :=
  match unstuff body with
  | none => .error .danglingEsc
  | some u => checkUnescaped c u

/-- R148: the bytes between the sentinels of a string that is exactly one candidate frame (D6). -/
def frameBody : List Byte → Option (List Byte)
  | [] => none
  | first :: rest =>
    if first = stx ∧ rest.getLast? = some etx ∧ stx ∉ rest.dropLast ∧ etx ∉ rest.dropLast then some rest.dropLast
    else none

/-- R148. -/
def frameDecode (c : Config) (frame : List Byte) : Option (List Byte) :=
  match frameBody frame with
  | none => none
  | some body =>
    match decodeBody c body with
    | .ok p => some p
    | .error _ => none

/-- R151: from a payload of at least three bytes to its message. -/
def messageOf : List Byte → Option Message
  | node :: id :: command :: params => some ⟨node, id, command, params⟩
  | _ => none

/-- R150: the payload of a message. -/
def messagePayload (m : Message) : List Byte := m.nodeId :: m.msgId :: m.command :: m.params

/-- FRM.ENC, R146. -/
def execFrmEnc (payload : List Byte) (s : State) : Host.Outcome State Fault Refusal :=
  .next (s.withResult (.wire (frameEncode s.cfg payload)))

/-- FRM.DEC, R148. -/
def execFrmDec (frame : List Byte) (s : State) : Host.Outcome State Fault Refusal :=
  .next (s.withResult (.payload (frameDecode s.cfg frame)))

/-! ## The Outbound Builder -/

/-- R150: one whole frame to the byte sink, or `REFUSED(BodyTooLong)`. -/
def send (m : Message) (s : State) : Host.Outcome State Fault Refusal :=
  if maxParams < m.params.length then .refused .bodyTooLong
  else .next { s with tx := s.tx ++ [frameEncode s.cfg (messagePayload m)] }

end Sys2Proof.Machine
end

