-- ==== Sys2Proof/Machine/Channels.lean ====
section
/-! DEFINITION. The debug channel (43_debug_channel.md): the null-checked pointer chase, CH.RD and CH.WR. -/

namespace Sys2Proof.Machine

/-- R201, the steps after the root check: follow `depth` pointers, each one read is compared with NULL (R202). -/
def chaseFrom : Nat → Address → State → Option Address × State
  | 0, p, s => (some p, s)
  | depth + 1, p, s =>
    match readPointer p s with
    | (q, t) => if q = t.cfg.null then (none, t) else chaseFrom depth q t

/-- R201: `Resolved(p)` or `Null` (none). A Null is recorded as the drop NullPointer (R311). -/
def chase (address : Address) (depth : Nat) (s : State) : Option Address × State :=
  if wrap s.cfg address = s.cfg.null then (none, s.drop .nullPointer)
  else
    match chaseFrom depth (wrap s.cfg address) s with
    | (some p, t) => (some p, t)
    | (none, t) => (none, t.drop .nullPointer)

/-- R206: `previousValue[0:n] <- value`, bytes n..7 keep their content. -/
def overwriteLatch (latch : Vector Byte 8) (value : List Byte) : Vector Byte 8 :=
  Vector.ofFn fun i => value.getD i.val latch[i]

/-- What a read gives (R206): the value or none, `changed`, and the latch afterwards. -/
structure ChannelRead where
  value : Option (List Byte)
  changed : Bool
  latch : Vector Byte 8
  deriving DecidableEq, Repr

/-- R206 after a resolved chase: compare, and update if different. -/
def latchRead (d : Descriptor) (value : List Byte) : ChannelRead :=
  if latchDiffers d.previousValue d.sizeBytes.toNat value then ⟨some value, true, overwriteLatch d.previousValue value⟩
  else ⟨some value, false, d.previousValue⟩

/-- R206: read through a descriptor. The caller puts the latch back where the descriptor came from. -/
def readChannel (d : Descriptor) (s : State) : ChannelRead × State :=
  match chase d.address d.dereferenceDepth.toNat s with
  | (none, t) => (⟨none, false, d.previousValue⟩, t)
  | (some p, t) =>
    match readBytes d.sizeBytes.toNat p t with
    | (value, u) => (latchRead d value, u)

/-- R210: write through a descriptor; v carries the value in its first sizeBytes bytes. -/
def writeChannel (d : Descriptor) (v : List Byte) (s : State) : State :=
  match chase d.address d.dereferenceDepth.toNat s with
  | (none, t) => t
  | (some p, t) => writeBytes (v.take d.sizeBytes.toNat) p t

/-- R206 on a registry slot: the slot's latch is written when `changed`. -/
def readSlot (i : Fin 16) (s : State) : ChannelRead × State :=
  match readChannel s.ch[i].descriptor s with
  | (r, t) => (r, if r.changed then t.setChannel i { t.ch[i] with previousValue := r.latch } else t)

/-- R200: CH.RD on either form of descriptor: a slot for the telemetry scan, which alone reads slots (R31, R283), a descriptor
by value for the port, 'W' and 'Q'. -/
def readRef (d : ChannelRef) (s : State) : ChannelRead × State :=
  match d with
  | .slot i => readSlot i s
  | .scratch d => readChannel d s

/-- R200: the descriptor of either form; no port request has the slot form (R31). -/
def refDescriptor (d : ChannelRef) (s : State) : Descriptor :=
  match d with
  | .slot i => s.ch[i].descriptor
  | .scratch d => d

/-- CH.RD, R206. -/
def execChRd (d : ChannelRef) (s : State) : Host.Outcome State Fault Refusal :=
  match readRef d s with
  | (r, t) => .next (t.withResult (.value r.value r.changed r.latch))

/-- CH.WR, R210. -/
def execChWr (d : ChannelRef) (v : Vector Byte 8) (s : State) : Host.Outcome State Fault Refusal :=
  .next (writeChannel (refDescriptor d s) (vectorBytes v) s)

end Sys2Proof.Machine
end

