-- ==== Sys2Proof/Machine/Dispatcher.lean ====
section
/-! DEFINITION. The command dispatcher (44_dispatcher.md): the node filter, the nine commands, the reply filter, DSP.MSG
and one meaning for each message row. -/

namespace Sys2Proof.Machine

/-- How a command ends (R231): with a body for a reply object, without one, with a drop, or refused. -/
inductive Reply
  | body (b : List Byte)
  | silent
  | dropped (r : Drop)
  | refused (r : Refusal)
  deriving DecidableEq, Repr

/-! ## Identification (R236, R237) -/

/-- R236: one-byte length prefixes (D30). -/
def versionBody (c : Config) : List Byte :=
  c.protocolVersion.toList ++ c.appVersion.toList ++
    [BitVec.ofNat 8 c.nodeName.length] ++ c.nodeName ++
    [BitVec.ofNat 8 c.serialNumber.length] ++ c.serialNumber

/-- R236. -/
def doVersion (s : State) : Reply × State := (.body (versionBody s.cfg), s)

/-- R237. -/
def doInfo (s : State) : Reply × State := (.body s.cfg.infoBody, s)

/-! ## Registers (R238 to R247) -/

/-- R241. -/
def doWrite (params : List Byte) (s : State) : Reply × State :=
  match parseRegister s.cfg params with
  | .error r => (.dropped r, s)
  | .ok o =>
    if params.length < 6 + o.size.toNat then (.dropped .badLength, s)
    else (.body [], writeChannel (scratchDescriptor s.cfg s.resolver o) (slice params 6 o.size.toNat) s)

/-- R243: the 4-byte value field, zeros where there is no value byte. -/
def valueField (v : Option (List Byte)) : List Byte :=
  ((v.getD []) ++ List.replicate queryValueBytes 0x00#8).take queryValueBytes

/-- R243. -/
def doQuery (params : List Byte) (s : State) : Reply × State :=
  match parseRegister s.cfg params with
  | .error r => (.dropped r, s)
  | .ok o =>
    match readChannel (scratchDescriptor s.cfg s.resolver o) s with
    | (r, t) => (.body (slice params 0 4 ++ [o.control, o.size] ++ valueField r.value), t)

/-! ## ConfigChannel (R248 to R254) -/

/-- R248: "Channel indices >15 are ignored with no reply", for every form. -/
def withChannel (i : Byte) (k : Fin 16 → Reply × State) (s : State) : Reply × State :=
  if h : i.toNat < 16 then k ⟨i.toNat, h⟩ else (.dropped .badChannel, s)

/-- R249. -/
def configQuery (i : Fin 16) (s : State) : Reply × State :=
  (.body ([s.ch[i].updateMode] ++ wire s.cfg 4 s.ch[i].offset.toNat ++ [s.ch[i].control, s.ch[i].sizeBytes]), s)

/-- R250. -/
def configMode (i : Fin 16) (mode : Byte) (s : State) : Reply × State :=
  (.body [],
    { s.setChannel i { s.ch[i] with updateMode := mode } with
      tracingOnce := if mode = s.cfg.mode.sendOnce then true else s.tracingOnce })

/-- R252: the zeroed latch with bit FORCE_BIT of byte FORCE_BYTE inverted. -/
def forcedLatch (c : Config) : Vector Byte 8 :=
  Vector.ofFn fun i => if i = c.forceByte then 1#8 <<< c.forceBit.val else 0#8

/-- R251: the slot a full reconfiguration puts in place of the old one. -/
def configuredChannel (c : Config) (r : Resolver) (params : List Byte) : Channel where
  address := resolve c r (offsetAt c params 2) (byteAt params 6)
  dereferenceDepth := controlDepth (byteAt params 6)
  sizeBytes := byteAt params 7
  previousValue := forcedLatch c
  updateMode := byteAt params 1
  offset := offsetAt c params 2
  control := byteAt params 6

/-- R251. -/
def configFull (i : Fin 16) (params : List Byte) (s : State) : Reply × State :=
  if maxValueBytes < (byteAt params 7).toNat then (.dropped .badSize, s)
  else (.body [], s.setChannel i (configuredChannel s.cfg s.resolver params))

/-- R248, R253: the form by the number of parameter bytes. -/
def configForm (i : Fin 16) (params : List Byte) (s : State) : Reply × State :=
  if params.length = 1 then configQuery i s
  else if params.length = 2 then configMode i (byteAt params 1) s
  else if cfgFullMinLen ≤ params.length then configFull i params s
  else if params.length = 7 then (.refused .cfgLen7, s)
  else (.dropped .badLength, s)

/-- R248. -/
def doConfig (params : List Byte) (s : State) : Reply × State :=
  if params.length = 0 then (.dropped .badLength, s)
  else withChannel (byteAt params 0) (fun i => configForm i params s) s

/-! ## Scheduler control and text (R256 to R262) -/

/-- R256: the new value of decimation, 0 coerced to 1. -/
def decimationOf (value : Byte) : BitVec 32 := if value = 0x00#8 then 1 else value.setWidth 32

/-- R256: the reply echoes the low 8 bits. -/
def decimationReply (s : State) : Reply × State := (.body [s.decimation.setWidth 8], s)

/-- R256. -/
def doDecimation (params : List Byte) (s : State) : Reply × State :=
  match params with
  | [] => decimationReply s
  | value :: _ => decimationReply { s with decimation := decimationOf value }

/-- R258. -/
def doResetTime (s : State) : Reply × State :=
  (.body [], { s with timeTicks := 0, lastFastUpdate := 0, lastSlowUpdate := 0 })

/-- R260. -/
def tracingSelect (sel : Byte) (s : State) : State :=
  if sel = 0x00#8 then { s with tracingOn := false }
  else if sel = 0x01#8 then { s with tracingOn := true }
  else if sel = 0x02#8 then { s with tracingOnce := true }
  else s

/-- R260. -/
def doReadChannelData (params : List Byte) (s : State) : Reply × State :=
  match params with
  | [] => (.silent, s)
  | sel :: _ => (.silent, tracingSelect sel s)

/-- R262: one byte stored (the text ring has room). -/
def State.storeText (s : State) (b : Byte) : State :=
  { s with dbgBuf := Memory.store s.dbgBuf s.dbgPush b, dbgPush := textNext s.cfg s.dbgPush }

/-- R262, R378: append while there is room; what does not fit is lost. A boundary follows each byte: a collaborator in another
context can make room meanwhile (log 12). -/
def appendText : List Byte → State → State
  | [], s => s
  | b :: rest, s =>
    if textFull s then s.drop .dbgOverflow
    else appendText rest (s.storeText b).land

/-- R262. -/
def doDebugString (text : List Byte) (s : State) : Reply × State := (.silent, appendText text s)

/-! ## The dispatcher (R231 to R234) -/

/-- R231: the case over the command byte. -/
def handle (command : Byte) (params : List Byte) (s : State) : Reply × State :=
  if command = cmdVersion then doVersion s
  else if command = cmdInfo then doInfo s
  else if command = cmdWrite then doWrite params s
  else if command = cmdQuery then doQuery params s
  else if command = cmdConfig then doConfig params s
  else if command = cmdDecimation then doDecimation params s
  else if command = cmdResetTime then doResetTime s
  else if command = cmdReadChannelData then doReadChannelData params s
  else if command = cmdDebugString then doDebugString params s
  else (.dropped .unknownCommand, s)

/-- R231, R233, R94: what becomes of the command's end. -/
def finish (h : Header) (command : Byte) : Reply × State → Host.Outcome State Fault Refusal
  | (.body b, s) =>
    if replyTransmitted h.msgId b then send ⟨s.cfg.nodeId, h.msgId, command, b⟩ s else .next s
  | (.silent, s) => .next s
  | (.dropped r, s) => .next (s.drop r)
  | (.refused r, _) => .refused r

/-- R231, R232: the node filter, then the command, then the reply filter. -/
def receive (h : Header) (command : Byte) (act : State → Reply × State) (s : State) :
    Host.Outcome State Fault Refusal :=
  if addressed s.cfg h.nodeId then finish h command (act s) else .next (s.drop .notForMe)

/-- DSP.MSG, R231. -/
def execDspMsg (m : Message) (s : State) : Host.Outcome State Fault Refusal :=
  receive m.header m.command (handle m.command m.params) s

/-! ## One meaning per message row -/

/-- V.GetVersion, R236; parameters are ignored (R91). -/
def execVGetVersion (h : Header) (_params : List Byte) (s : State) : Host.Outcome State Fault Refusal :=
  receive h cmdVersion doVersion s

/-- I.GetInfo, R237. -/
def execIGetInfo (h : Header) (_params : List Byte) (s : State) : Host.Outcome State Fault Refusal :=
  receive h cmdInfo doInfo s

/-- W.WriteRegister, R241. -/
def execWWriteRegister (h : Header) (params : List Byte) (s : State) : Host.Outcome State Fault Refusal :=
  receive h cmdWrite (doWrite params) s

/-- Q.QueryRegister, R243. -/
def execQQueryRegister (h : Header) (params : List Byte) (s : State) : Host.Outcome State Fault Refusal :=
  receive h cmdQuery (doQuery params) s

/-- C.ConfigChannel.query, R249. -/
def execCConfigQuery (h : Header) (index : Byte) (s : State) : Host.Outcome State Fault Refusal :=
  receive h cmdConfig (fun t => withChannel index (fun i => configQuery i t) t) s

/-- C.ConfigChannel.mode, R250. -/
def execCConfigMode (h : Header) (index mode : Byte) (s : State) : Host.Outcome State Fault Refusal :=
  receive h cmdConfig (fun t => withChannel index (fun i => configMode i mode t) t) s

/-- C.ConfigChannel.full and the lengths no form has, R251, R253. -/
def execCConfigFull (h : Header) (params : List Byte) (s : State) : Host.Outcome State Fault Refusal :=
  receive h cmdConfig (doConfig params) s

/-- D.Decimation.query, R256. -/
def execDDecimationQuery (h : Header) (s : State) : Host.Outcome State Fault Refusal :=
  receive h cmdDecimation decimationReply s

/-- D.Decimation.set, R256; bytes after the first are ignored (R90). -/
def execDDecimationSet (h : Header) (value : Byte) (_extra : List Byte) (s : State) : Host.Outcome State Fault Refusal :=
  receive h cmdDecimation (fun t => decimationReply { t with decimation := decimationOf value }) s

/-- T.ResetTime, R258. -/
def execTResetTime (h : Header) (_params : List Byte) (s : State) : Host.Outcome State Fault Refusal :=
  receive h cmdResetTime doResetTime s

/-- R.ReadChannelData, R260. -/
def execRReadChannelData (h : Header) (params : List Byte) (s : State) : Host.Outcome State Fault Refusal :=
  receive h cmdReadChannelData (doReadChannelData params) s

/-- S.DebugString, R262. -/
def execSDebugString (h : Header) (text : List Byte) (s : State) : Host.Outcome State Fault Refusal :=
  receive h cmdDebugString (doDebugString text) s

end Sys2Proof.Machine
end

