-- ==== Sys2Proof/Machine/Ring.lean ====
section
/-! DEFINITION. The ring-buffer frame assembler (42_frame_assembler.md): RB.PUSH and RB.NEXT. -/

namespace Sys2Proof.Machine

/-! ## Push -/

/-- Whether the consumer takes the next boundary (R172). -/
def consumerNext (s : State) : Bool :=
  match s.arrivals with
  | [] => false
  | events :: _ => events.contains .consumerTurn

/-- R172: one iteration after another, a boundary between two. Where the consumer takes the boundary the operation ends
early, and what it has still to push waits in `pushing` (log 12). The fuel bounds the passes (log 20). -/
def runPushes : Nat → State → State
  | 0, s => s
  | fuel + 1, s =>
    if s.pushing = [] then s
    else if s.pushStep.pushing = [] || consumerNext s.pushStep then s.pushStep
    else runPushes fuel s.pushStep.land

/-- The passes an event can add to the pushes. -/
def Arrival.passes : Arrival → Nat
  | .beginPush bytes => bytes.length + 1
  | .pushStep => 0
  | .consumerTurn => 0
  | .tick => 0
  | .memoryWrite _ _ => 0
  | .takeText => 0
  | .nullByte _ => 0
  | .bind _ => 0
  | .request _ => 0

/-- A bound on the passes of one RB.PUSH: the bytes and the operations that wait, and those still to come. -/
def pushFuel (s : State) : Nat :=
  (s.pushing.map fun bytes => bytes.length + 1).sum +
    (s.arrivals.map fun events => (events.map Arrival.passes).sum).sum

/-- RB.PUSH, R171, R172: after the pushes that were begun before it. -/
def execRbPush (bytes : List Byte) (s : State) : Host.Outcome State Fault Refusal :=
  .next (runPushes (pushFuel (s.beginPush bytes)) (s.beginPush bytes))

/-! ## Scan -/

/-- R176: the bytes strictly between the latched `STX` and the `ETX` at `pos`, read through the mask. -/
def candidateBody (s : State) (pos : Nat) : List Byte :=
  let n := (pos + s.cfg.ringCapacity - (s.frameStart + 1)) % s.cfg.ringCapacity
  (List.range n).map fun j => s.slot ((s.frameStart + 1 + j) % s.cfg.ringCapacity)

/-- The scanner moves past one slot (R176). -/
def State.passSlot (s : State) : State := { s with parseIndex := ringNext s.cfg s.parseIndex }

/-- R176, the `STX` branch: (re)latch; an older latch is `Abandoned`. -/
def scanStart (s : State) : State :=
  let t := { s.passSlot with frameStart := s.parseIndex, startValid := true }
  if s.startValid then t.drop .abandoned else t

/-- R176, the `ETX` branch: with a latch the candidate is consumed either way and decoded, with none the byte is skipped. -/
def scanEnd (s : State) : Option Message × State :=
  if s.startValid then
    let t := { s.passSlot with startValid := false }
    match decodeBody s.cfg (candidateBody s s.parseIndex) with
    | .ok p => (messageOf p, t)
    | .error r => (none, t.drop r)
  else (none, s.passSlot.drop .strayEtx)

/-- R66 (b), R176: one atomic scan step, on a ring with something unparsed. -/
def scanStep (s : State) : Option Message × State :=
  if s.slot s.parseIndex = stx then (none, scanStart s)
  else if s.slot s.parseIndex = etx then scanEnd s
  else (none, s.passSlot)

/-- R176: the loop. Between two scan steps a boundary stands (R186). The fuel bounds the passes (log 20). -/
def scan : Nat → State → Option Message × State
  | 0, s => (none, s)
  | fuel + 1, s =>
    if s.parseIndex = s.pushIndex then (none, s)
    else
      match scanStep s with
      | (some m, t) => (some m, t)
      | (none, t) => scan fuel t.land

/-- A bound on the passes of one call: the slots of the ring and every event that is still to come, and the last test. -/
def scanFuel (s : State) : Nat := s.cfg.ringCapacity + (s.arrivals.map List.length).sum + 1

/-- RB.NEXT, R176. -/
def execRbNext (s : State) : Host.Outcome State Fault Refusal :=
  .next ((scan (scanFuel s) s).2.withResult (.message (scan (scanFuel s) s).1))

end Sys2Proof.Machine
end

