-- ==== Sys2Proof/Machine/System.lean ====
section
/-! DEFINITION. The reserved select and the reset operation (30_encoding.md R97, 70_reset_and_hazards.md R350). -/

namespace Sys2Proof.Machine

/-- OP0.RESERVED, R97: "no state change, no result". -/
def execOp0Reserved (s : State) : Host.Outcome State Fault Refusal := .next s

/-- R350: the block's registers at their reset values. `buf` and `dbgBuf` are not written, nor target memory, nor the
parameters, nor bytes already handed to writeData, nor a push the producer is in (log 19). -/
def State.resetBlock (s : State) : State :=
  { s with
    crc := 0x00#8
    escPending := false
    pushIndex := 0
    parseIndex := 0
    frameStart := 0
    startValid := false
    overrun := false
    ch := Vector.replicate 16 (Channel.zeroed s.cfg)
    decimation := 1
    timeTicks := 0
    tracingOn := false
    tracingOnce := false
    lastFastUpdate := 0
    lastSlowUpdate := 0
    dbgPush := 0
    dbgPop := 0 }

/-- RST, R350. -/
def execRst (s : State) : Host.Outcome State Fault Refusal := .next s.resetBlock

end Sys2Proof.Machine
end

