-- ==== Sys2Proof/Machine/Telemetry.lean ====
section
/-! DEFINITION. The telemetry scheduler and channel multiplexer (45_telemetry.md): TM.TICK, TM.POLL, the emission of the
telemetry message, and the receiver's side of the multiplexing. -/

namespace Sys2Proof.Machine

/-- TM.TICK, R281. -/
def execTmTick (s : State) : Host.Outcome State Fault Refusal := .next s.tick

/-- What a scan builds (R283): transient, not state (R30). -/
structure Multiplex where
  mask : BitVec 16
  values : List Byte
  deriving DecidableEq, Repr

/-- R286: index 15 first, index 0 last. -/
def channelOrder : List (Fin 16) := [15, 14, 13, 12, 11, 10, 9, 8, 7, 6, 5, 4, 3, 2, 1, 0]

/-- R283, R288, R289: one channel's part of the message. A channel without a value never contributes. -/
def contribute (c : Config) (i : Fin 16) (mode : Byte) (slowDue once : Bool) (r : ChannelRead) (x : Multiplex) : Multiplex :=
  match r.value with
  | none => x
  | some v =>
    if modeContributes c mode r.changed slowDue once then ⟨x.mask ||| (1#16 <<< i.val), x.values ++ v⟩ else x

/-- R283: one pass of the loop, "CH.RD ch[i]" with the slot the counter selects (R31); the read is always made. -/
def visitChannel (slowDue once : Bool) (x : Multiplex × State) (i : Fin 16) : Multiplex × State :=
  match readRef (.slot i) x.2 with
  | (r, t) => (contribute t.cfg i t.ch[i].updateMode slowDue once r x.1, t)

/-- R283, R286: all 16 slots. -/
def scanChannels (slowDue once : Bool) (s : State) : Multiplex × State :=
  channelOrder.foldl (visitChannel slowDue once) (⟨0, []⟩, s)

/-- R95, R291: the parameters of a telemetry message. -/
def telemetryParams (c : Config) (timestamp : BitVec 24) (mask : BitVec 16) (values : List Byte) : List Byte :=
  wire c 3 timestamp.toNat ++ wire c 2 mask.toNat ++ values

/-- R283, R291, R292: "A zero mask suppresses transmission". -/
def emitTelemetry (timestamp : BitVec 24) (mask : BitVec 16) (values : List Byte) (s : State) :
    Host.Outcome State Fault Refusal :=
  if mask = 0 then .next s
  else send ⟨s.cfg.nodeId, s.cfg.telemetryMsgId, s.cfg.telemetryCmd, telemetryParams s.cfg timestamp mask values⟩ s

/-- R284: the interval bases a scan writes, from the one reading of the clock (R287). -/
def State.beginScan (s : State) : State :=
  { s with
    lastFastUpdate := s.timeTicks
    lastSlowUpdate := if slowBoundary s then s.timeTicks else s.lastSlowUpdate }

/-- R283: a poll whose two conditions hold. -/
def pollScan (s : State) : Host.Outcome State Fault Refusal :=
  match scanChannels (slowBoundary s) s.tracingOnce s.beginScan with
  | (x, t) => emitTelemetry (s.timeTicks.setWidth 24) x.mask x.values { t with tracingOnce := false }

/-- TM.POLL, R283. -/
def execTmPoll (s : State) : Host.Outcome State Fault Refusal := if scanDue s then pollScan s else .next s

/-- TLM.Telemetry, R291: the emission of a message with the given contents (log 8). -/
def execTlmTelemetry (timestamp : BitVec 24) (mask : BitVec 16) (values : List Byte) (s : State) :
    Host.Outcome State Fault Refusal :=
  emitTelemetry timestamp mask values s

/-! ## The receiver's side (R296) -/

/-- What a receiver takes from a telemetry message. -/
structure TelemetryReading where
  timestamp : BitVec 24
  mask : BitVec 16
  values : List (Fin 16 × List Byte)
  deriving DecidableEq, Repr

/-- R296: consume the value bytes in the receiver's order (R369, U17), by the sizes it has configured. DESIGN CHOICE (log 27):
where the bytes run out a value is what is left of it; bytes left over are ignored. -/
def splitValues (sizes : Vector Nat 16) (mask : BitVec 16) : List (Fin 16) → List Byte → List (Fin 16 × List Byte)
  | [], _ => []
  | i :: rest, bytes =>
    if mask.getLsbD i.val then (i, bytes.take sizes[i]) :: splitValues sizes mask rest (bytes.drop sizes[i])
    else splitValues sizes mask rest bytes

/-- R95, R296: the parameters of a telemetry message, read by a receiver with the same WIRE_ORDER that takes the values out in
the given order: the order is the host's parameter (R369, U17), `channelOrder` for a receiver that conforms. DESIGN CHOICE
(log 27): fewer than 5 bytes read as no telemetry. -/
def splitTelemetry (c : Config) (order : List (Fin 16)) (sizes : Vector Nat 16) (params : List Byte) :
    Option TelemetryReading :=
  if params.length < 5 then none
  else
    let mask := BitVec.ofNat 16 (unwire c (slice params 3 2))
    some ⟨BitVec.ofNat 24 (unwire c (slice params 0 3)), mask, splitValues sizes mask order (params.drop 5)⟩

end Sys2Proof.Machine
end

