-- ==== Sys2Proof/Machine/Dispatch.lean ====
section
/-! DEFINITION. The meaning of each instruction, one arm per constructor. -/

namespace Sys2Proof.Machine

def exec (i : Instr) (s : State) : Host.Outcome State Fault Refusal :=
  match i with
  | .op0Reserved => Sys2Proof.Machine.execOp0Reserved s
  | .crcClr => Sys2Proof.Machine.execCrcClr s
  | .crcUpd b => Sys2Proof.Machine.execCrcUpd b s
  | .crcChk => Sys2Proof.Machine.execCrcChk s
  | .escPut b => Sys2Proof.Machine.execEscPut b s
  | .escGet w => Sys2Proof.Machine.execEscGet w s
  | .frmEnc payload => Sys2Proof.Machine.execFrmEnc payload s
  | .frmDec frame => Sys2Proof.Machine.execFrmDec frame s
  | .rbPush bytes => Sys2Proof.Machine.execRbPush bytes s
  | .rbNext => Sys2Proof.Machine.execRbNext s
  | .chRd d => Sys2Proof.Machine.execChRd d s
  | .chWr d v => Sys2Proof.Machine.execChWr d v s
  | .dspMsg m => Sys2Proof.Machine.execDspMsg m s
  | .tmTick => Sys2Proof.Machine.execTmTick s
  | .tmPoll => Sys2Proof.Machine.execTmPoll s
  | .rst => Sys2Proof.Machine.execRst s
  | .vGetVersion h params => Sys2Proof.Machine.execVGetVersion h params s
  | .iGetInfo h params => Sys2Proof.Machine.execIGetInfo h params s
  | .wWriteRegister h params => Sys2Proof.Machine.execWWriteRegister h params s
  | .qQueryRegister h params => Sys2Proof.Machine.execQQueryRegister h params s
  | .cConfigQuery h index => Sys2Proof.Machine.execCConfigQuery h index s
  | .cConfigMode h index mode => Sys2Proof.Machine.execCConfigMode h index mode s
  | .cConfigFull h params => Sys2Proof.Machine.execCConfigFull h params s
  | .dDecimationQuery h => Sys2Proof.Machine.execDDecimationQuery h s
  | .dDecimationSet h value extra => Sys2Proof.Machine.execDDecimationSet h value extra s
  | .tResetTime h params => Sys2Proof.Machine.execTResetTime h params s
  | .rReadChannelData h params => Sys2Proof.Machine.execRReadChannelData h params s
  | .sDebugString h text => Sys2Proof.Machine.execSDebugString h text s
  | .tlmTelemetry timestamp mask values => Sys2Proof.Machine.execTlmTelemetry timestamp mask values s

end Sys2Proof.Machine
end

