-- ==== Sys2Proof/Machine/Loop.lean ====
section
/-! DEFINITION. What a step runs: the oldest waiting port request, or the next operation of the main loop of
44_dispatcher.md R264; and how a request is stored where the step fetches it. -/

namespace Sys2Proof.Machine

/-- R264: after RB.NEXT the loop dispatches the message it returned, or polls. -/
def afterNext (t : State) : State :=
  match t.result with
  | .message (some m) => { t with loop := .dispatch m }
  | _ => { t with loop := .poll }

/-- R264: the loop's next operation. The message a dispatch handles is decoded to its row (R85). -/
def mainLoopStep (s : State) : Host.Outcome State Fault Refusal :=
  match s.loop with
  | .drain =>
    match exec .rbNext s with
    | .next t => .next (afterNext t)
    | .fault r => .fault r
    | .refused r => .refused r
  | .dispatch m => exec (Instr.ofMessage m) { s with loop := .drain }
  | .poll => exec .tmPoll { s with loop := .drain }

/-- Run one port request. -/
def runRequest (bytes : List Byte) (s : State) : Host.Outcome State Fault Refusal :=
  match decode bytes with
  | .ok i => exec i s
  | .error e => .refused (.malformedRequest e)

/-- One step at a state where the outside events have landed: a waiting request first, else the main loop (log 9). -/
def runNext (s : State) : Host.Outcome State Fault Refusal :=
  match s.requests with
  | bytes :: waiting => runRequest bytes { s with requests := waiting }
  | [] => mainLoopStep s

/-- A request at the head of the queue. -/
def State.enqueueFirst (s : State) (bytes : List Byte) : State := { s with requests := bytes :: s.requests }

end Sys2Proof.Machine
end

