-- ==== Sys2Proof/Machine/Step.lean ====
section
/-! DEFINITION. The step function, and where it fetches. -/

namespace Sys2Proof.Machine

/-- One step: the outside events of this boundary land (R66), then one operation runs. -/
def step (s : State) : Host.Outcome State Fault Refusal := runNext s.land

/-- The word's instruction as the next port request (log 10). -/
def State.withFetchWord (s : State) (nbits w : Nat) : State := s.enqueueFirst (tableRequest nbits w)

end Sys2Proof.Machine
end

