-- ==== Sys2Proof/Safety.lean ====
section
/-! DEFINITION. The terms claims are made in: what a good state is, what the block sees when nothing else moves, and runs
of several port operations. -/

namespace Sys2Proof.Machine

/-! ## Good states -/

/-- R29: slots from `a` forward to `b`, 0 .. 2^k - 1. -/
def gap (c : Config) (a b : Nat) : Nat := (b + c.ringCapacity - a) % c.ringCapacity

/-- R29 (d): slots from `a` forward to `b`, counted 1 .. 2^k: a full lap if they are equal. -/
def lap (c : Config) (a b : Nat) : Nat := (b + c.ringCapacity - (a + 1)) % c.ringCapacity + 1

/-- The indices are k-bit (R25 to R27). -/
abbrev IndicesInRange (s : State) : Prop :=
  s.pushIndex < s.cfg.ringCapacity ∧ s.parseIndex < s.cfg.ringCapacity ∧ s.frameStart < s.cfg.ringCapacity

/-- R29. (b) a latched slot holds `STX` and lies in the parsed part; (c) every slot the scanner may still read has been
written; (a), (d) and (e) are what `gap` and `lap` can be. -/
abbrev RingInv (s : State) : Prop :=
  IndicesInRange s ∧
  (s.startValid = true →
    Memory.find s.buf s.frameStart = some stx ∧
    lap s.cfg s.frameStart s.parseIndex ≤ lap s.cfg s.frameStart s.pushIndex ∧
    ∀ j < lap s.cfg s.frameStart s.pushIndex,
      (Memory.find s.buf ((s.frameStart + j) % s.cfg.ringCapacity)).isSome = true) ∧
  (s.startValid = false →
    ∀ j < gap s.cfg s.parseIndex s.pushIndex,
      (Memory.find s.buf ((s.parseIndex + j) % s.cfg.ringCapacity)).isSome = true)

/-- R33, R34: the depth is the low nibble of the control byte, the size is at most 8; an address is 8*PTR_BYTES wide. -/
abbrev RegistryInv (s : State) : Prop :=
  ∀ i : Fin 16,
    s.ch[i].dereferenceDepth = controlDepth s.ch[i].control ∧
    s.ch[i].sizeBytes.toNat ≤ maxValueBytes ∧
    s.ch[i].address < s.cfg.addressSpace

/-- R39: decimation lies in 1..255. -/
abbrev EndpointInv (s : State) : Prop := 1 ≤ s.decimation.toNat ∧ s.decimation.toNat ≤ 255

/-- R43: the text indices are DBG_K-bit. -/
abbrev TextInv (s : State) : Prop := s.dbgPush < s.cfg.textCapacity ∧ s.dbgPop < s.cfg.textCapacity

/-- The three sparse memories are canonical and hold only keys of their spaces (R50). -/
abbrev MemoryInv (s : State) : Prop :=
  (Memory.wf s.mem ∧ ∀ x ∈ s.mem, x.1 < s.cfg.addressSpace) ∧
  (Memory.wf s.buf ∧ ∀ x ∈ s.buf, x.1 < s.cfg.ringCapacity) ∧
  (Memory.wf s.dbgBuf ∧ ∀ x ∈ s.dbgBuf, x.1 < s.cfg.textCapacity)

/-- A good state: legal parameters, and every invariant but R29 (`RingInv`), which stands alone. -/
abbrev State.Inv (s : State) : Prop :=
  s.cfg.Valid ∧ IndicesInRange s ∧ RegistryInv s ∧ EndpointInv s ∧ TextInv s ∧ MemoryInv s

/-- R184, R362: the ring is full from the latched start and scanned to its end. -/
abbrev Wedged (s : State) : Prop :=
  s.startValid = true ∧ s.frameStart = s.pushIndex ∧ s.parseIndex = s.pushIndex

/-! ## Nothing else moves (R66 (e)) -/

/-- No other agent acts: target memory is stable during the operation. -/
abbrev Quiet (s : State) : Prop := s.arrivals = []

/-- The n bytes at `a` (R15) as the block reads them: what target memory holds, and the free value at NULL (R60, R202). -/
def bytesAt (s : State) (a n : Nat) : List Byte := (List.range n).map fun j => s.loadByte (a + j)

/-- The pointer stored at `a` (R15, R55). -/
def pointerAt (s : State) (a : Address) : Address := unpointer s.cfg (bytesAt s a s.cfg.ptrBytes)

/-- R201 after the root check, in a memory at rest. -/
def followAtRest (s : State) : Nat → Address → Option Address
  | 0, p => some p
  | depth + 1, p => if pointerAt s p = s.cfg.null then none else followAtRest s depth (pointerAt s p)

/-- R201, in a memory at rest: `Resolved(p)` or `Null` (none). -/
def resolveAtRest (s : State) (d : Descriptor) : Option Address :=
  if wrap s.cfg d.address = s.cfg.null then none
  else followAtRest s d.dereferenceDepth.toNat (wrap s.cfg d.address)

/-- R206, in a memory at rest: the value a read returns. -/
def valueAtRest (s : State) (d : Descriptor) : Option (List Byte) :=
  (resolveAtRest s d).map fun p => bytesAt s p d.sizeBytes.toNat

/-- R206, in a memory at rest: `changed`. -/
def changedAtRest (s : State) (d : Descriptor) : Bool :=
  match valueAtRest s d with
  | none => false
  | some v => decide (v ≠ d.previousValue.toList.take d.sizeBytes.toNat)

/-- R206, in a memory at rest: the latch after the read. -/
def latchAtRest (s : State) (d : Descriptor) : Vector Byte 8 :=
  match valueAtRest s d with
  | none => d.previousValue
  | some v => Vector.ofFn fun j => if h : j.val < v.length then v[j.val] else d.previousValue[j]

/-- The drop a chase that ends in Null records (R311). -/
def chaseDrops (s : State) (d : Descriptor) : List Drop :=
  match resolveAtRest s d with
  | none => [.nullPointer]
  | some _ => []

/-- `t` is `s` after `v` has been stored at `p` and nothing else has changed in target memory: the bytes at
`p .. p + len(v) - 1` are `v`, every other address reads as before, and so does NULL (R60, R202). -/
def StoredAt (s t : State) (p : Address) (v : List Byte) : Prop :=
  (∀ (j : Nat) (h : j < v.length), wrap s.cfg (p + j) ≠ s.cfg.null → t.readByte (p + j) = v[j]) ∧
  ∀ a, (wrap s.cfg a = s.cfg.null ∨ ∀ j < v.length, wrap s.cfg a ≠ wrap s.cfg (p + j)) → t.readByte a = s.readByte a

/-! ## The telemetry scan in a memory at rest (R283, R288, R289) -/

/-- R288, R289: whether channel i contributes at a scan of s. -/
def contributesAtRest (s : State) (i : Fin 16) : Bool :=
  (valueAtRest s s.ch[i].descriptor).isSome &&
    modeContributes s.cfg s.ch[i].updateMode (changedAtRest s s.ch[i].descriptor) (slowBoundary s) s.tracingOnce

/-- R286: the contributing channels, 15 first. -/
def contributorsAtRest (s : State) : List (Fin 16) := channelOrder.filter (contributesAtRest s)

/-- R283: the value bytes of the telemetry message. -/
def valuesAtRest (s : State) : List Byte :=
  (contributorsAtRest s).flatMap fun i => (valueAtRest s s.ch[i].descriptor).getD []

/-- R283: bit i of the mask is set exactly when channel i contributes. -/
def MaskOf (s : State) (mask : BitVec 16) : Prop :=
  ∀ i : Fin 16, mask.getLsbD i.val = contributesAtRest s i

/-! ## Which command an instruction carries -/

/-- R85: the command byte of the message a row handles, none for an operation that handles no message. -/
def commandOf : Instr → Option Byte
  | .dspMsg m => some m.command
  | .vGetVersion _ _ => some cmdVersion
  | .iGetInfo _ _ => some cmdInfo
  | .wWriteRegister _ _ => some cmdWrite
  | .qQueryRegister _ _ => some cmdQuery
  | .cConfigQuery _ _ => some cmdConfig
  | .cConfigMode _ _ _ => some cmdConfig
  | .cConfigFull _ _ => some cmdConfig
  | .dDecimationQuery _ => some cmdDecimation
  | .dDecimationSet _ _ _ => some cmdDecimation
  | .tResetTime _ _ => some cmdResetTime
  | .rReadChannelData _ _ => some cmdReadChannelData
  | .sDebugString _ _ => some cmdDebugString
  | .op0Reserved => none
  | .crcClr => none
  | .crcUpd _ => none
  | .crcChk => none
  | .escPut _ => none
  | .escGet _ => none
  | .frmEnc _ => none
  | .frmDec _ => none
  | .rbPush _ => none
  | .rbNext => none
  | .chRd _ => none
  | .chWr _ _ => none
  | .tmTick => none
  | .tmPoll => none
  | .rst => none
  | .tlmTelemetry _ _ _ => none

/-- R253: a ConfigChannel of exactly 7 parameter bytes, on either way in. -/
def IsConfigOf7 (i : Instr) : Prop :=
  (∃ h ps, i = .cConfigFull h ps ∧ ps.length = 7) ∨
  (∃ m, i = .dspMsg m ∧ m.command = cmdConfig ∧ m.params.length = 7)

/-- R31: the instruction addresses a registry slot, which only the telemetry scan does. -/
def NamesSlot (i : Instr) : Prop := (∃ j, i = .chRd (.slot j)) ∨ ∃ j v, i = .chWr (.slot j) v

/-- R372: the sum of sizeBytes over all channels. -/
def totalSize (s : State) : Nat := (channelOrder.map fun i => s.ch[i].sizeBytes.toNat).sum

/-- R232: the message is for this endpoint. -/
abbrev IsFor (s : State) (h : Header) : Prop := h.nodeId = s.cfg.nodeId ∨ h.nodeId = 0xFF#8

/-! ## Runs of port operations -/

/-- Several operations one after another. -/
def execAll : List Instr → State → Host.Outcome State Fault Refusal
  | [], s => .next s
  | i :: rest, s =>
    match exec i s with
    | .next t => execAll rest t
    | .fault r => .fault r
    | .refused r => .refused r

/-- R154: ESC.GET on each byte of a body and, on `Some(x)`, CRC.UPD x, counting the bytes that came out. -/
def streamBody : List Byte → Nat → State → Option (Nat × State)
  | [], n, s => some (n, s)
  | w :: rest, n, s =>
    match exec (.escGet w) s with
    | .next t =>
      match t.result with
      | .unescaped (some x) =>
        match exec (.crcUpd x) t with
        | .next u => streamBody rest (n + 1) u
        | _ => none
      | _ => streamBody rest n t
    | _ => none

/-- R154: the verdict: no pending escape, a count within 4..128, CRC.CHK with `ok`. -/
def streamAccepts (body : List Byte) (s : State) : Bool :=
  match exec .crcClr s with
  | .next s0 =>
    match streamBody body 0 s0 with
    | some (n, t) =>
      match exec .crcChk t with
      | .next u => decide (u.result = .crcCheck 0x00#8 true) && !u.escPending && decide (4 ≤ n) && decide (n ≤ 128)
      | _ => false
    | none => false
  | _ => false

/-- R145 (c): the markers an unstuffer consumes. -/
def markersConsumed : Bool → List Byte → Nat
  | _, [] => 0
  | true, _ :: rest => markersConsumed false rest
  | false, w :: rest => if w = esc then markersConsumed true rest + 1 else markersConsumed false rest

/-- The frame of a reply (R94, R150). -/
def replyFrame (s : State) (msgId command : Byte) (body : List Byte) : List Byte :=
  frameEncode s.cfg ([s.cfg.nodeId, msgId, command] ++ body)

/-- The frames a finished command sends: its reply object's frame, unless it is an ack with message id 0 (R233). -/
def replyFrames (s : State) (msgId command : Byte) (body : List Byte) : List (List Byte) :=
  if msgId ≠ 0x00#8 ∨ body ≠ [] then [replyFrame s msgId command body] else []

end Sys2Proof.Machine
end

