-- ==== Sys2Proof/Certificates/Slice0/Obligations.lean ====
section
/-! DEFINITION. The statements for the provers, in the order of spec/: CRC-8, stuffer and frames, ring buffer, debug
channels, dispatcher, telemetry, reset, then the machine as a whole. What a port operation returns is the model's field
`result` (log 13), the drops of R311 (their names are decision D38 of the
spec) are its record `drops` (log 14), a sent frame is the last of `tx` (log 15). -/

open Sys2Proof Sys2Proof.Machine

/-! ## CRC-8 (40_crc8.md) -/

/-- R122, R125: CRC.UPD looks up `crc xor b` and writes nothing else; CRC.CHK returns the accumulator and whether it is
zero, and writes no register. With a zero entry 0, absorbing the accumulator itself gives zero. -/
def Obligations.CrcUpdateAndCheck : Prop :=
  (∀ (b : Byte) (s : State),
    exec (.crcUpd b) s = .next { s with crc := s.cfg.crcTable[(s.crc ^^^ b).toNat]'(s.crc ^^^ b).isLt }) ∧
  (∀ s : State, s.cfg.crcTable[0] = 0x00#8 → exec (.crcUpd s.crc) s = .next { s with crc := 0x00#8 }) ∧
  (∀ s : State, exec .crcChk s = .next { s with result := .crcCheck s.crc (decide (s.crc = 0x00#8)) })

/-- R121, R124: CRC.CLR zeroes the accumulator and the pending escape (the latter is decision D32); CRC.CLR and one CRC.UPD
per byte compute the function crc8, which is the recursion of R124. -/
def Obligations.CrcDatapath : Prop :=
  (∀ s : State, exec .crcClr s = .next { s with crc := 0x00#8, escPending := false }) ∧
  (∀ (p : List Byte) (s : State),
    execAll (.crcClr :: p.map .crcUpd) s = .next { s with crc := crc8 s.cfg p, escPending := false }) ∧
  (∀ c : Config, crc8 c [] = 0x00#8) ∧
  (∀ (c : Config) (p : List Byte) (b : Byte),
    crc8 c (p ++ [b]) = c.crcTable[(crc8 c p ^^^ b).toNat]'(crc8 c p ^^^ b).isLt)

/-- R126, R129, R131: the verify law (zero residue exactly when entry 0 is zero), the prefix law, zero blindness. -/
def Obligations.CrcLaws : Prop :=
  (∀ (c : Config) (p : List Byte), crc8 c (p ++ [crc8 c p]) = c.crcTable[0]) ∧
  (∀ c : Config, (∀ p : List Byte, crc8 c (p ++ [crc8 c p]) = 0x00#8) ↔ c.crcTable[0] = 0x00#8) ∧
  (∀ (c : Config) (p q : List Byte),
    crc8 c (p ++ q) = q.foldl (fun a b => c.crcTable[(a ^^^ b).toNat]'(a ^^^ b).isLt) (crc8 c p)) ∧
  (∀ (c : Config) (n : Nat) (p : List Byte), c.crcTable[0] = 0x00#8 →
    crc8 c (List.replicate n 0x00#8) = 0x00#8 ∧ crc8 c (List.replicate n 0x00#8 ++ p) = crc8 c p)

/-- R128: with a table of pairwise distinct entries, of two strings of one length that differ in exactly one position at
most one has residue zero. -/
def Obligations.SingleSubstitutionDetected : Prop :=
  ∀ (c : Config) (before after : List Byte) (x y : Byte), c.crcTable.toList.Nodup → x ≠ y →
    ¬(crc8 c (before ++ [x] ++ after) = 0x00#8 ∧ crc8 c (before ++ [y] ++ after) = 0x00#8)

/-! ## Byte stuffer and frames (41_byte_stuffer.md) -/

/-- R141, R143: ESC.PUT on every byte, ESC.GET on every byte and either value of the pending bit. -/
def Obligations.StufferPortOperations : Prop :=
  (∀ (b : Byte) (s : State),
    exec (.escPut b) s = .next { s with
      result := .wire (if b = 0x55#8 ∨ b = 0xAA#8 ∨ b = 0x66#8 then [0x66#8, b ^^^ 0x66#8] else [b]) }) ∧
  (∀ (w : Byte) (s : State),
    exec (.escGet w) s = .next (
      if s.escPending = true then { s with escPending := false, result := .unescaped (some (w ^^^ 0x66#8)) }
      else if w = 0x66#8 then { s with escPending := true, result := .unescaped none }
      else { s with result := .unescaped (some w) }))

/-- R142: what a stuffed string looks like. A marker is always followed by one of the three second bytes, none of which is
a marker, so it stands at the first place of a pair. -/
def Obligations.StuffedBytes : Prop :=
  ∀ p : List Byte,
    0x55#8 ∉ stuff p ∧ 0xAA#8 ∉ stuff p ∧
    (∀ i : Nat, (stuff p)[i]? = some 0x66#8 →
      (stuff p)[i + 1]? = some 0x33#8 ∨ (stuff p)[i + 1]? = some 0xCC#8 ∨ (stuff p)[i + 1]? = some 0x00#8) ∧
    (stuff p).length = p.length + p.countP (fun b => b == 0x55#8 || b == 0xAA#8 || b == 0x66#8)

/-- R144, R145: the equations of unstuff (the unpaired marker is decision D4), and the three stuffer laws. -/
def Obligations.UnstuffLaws : Prop :=
  (unstuff [] = some [] ∧ unstuff [0x66#8] = none ∧
    (∀ (w : Byte) (rest : List Byte), unstuff (0x66#8 :: w :: rest) = (unstuff rest).map ((w ^^^ 0x66#8) :: ·)) ∧
    (∀ (w : Byte) (rest : List Byte), w ≠ 0x66#8 → unstuff (w :: rest) = (unstuff rest).map (w :: ·))) ∧
  (∀ p : List Byte, unstuff (stuff p) = some p) ∧
  unstuff [0x27#8] = unstuff [0x66#8, 0x41#8] ∧
  (∀ body u : List Byte, unstuff body = some u →
    u.length + markersConsumed false body = body.length ∧ body.length ≤ 2 * u.length ∧ u.length ≤ body.length)

/-- R146: FRM.ENC is total, its wire bytes, its length, the empty payload. -/
def Obligations.FrameEncodeRule : Prop :=
  (∀ (p : List Byte) (s : State),
    exec (.frmEnc p) s = .next { s with
      result := .wire ([0x55#8] ++ stuff p ++ stuff [crc8 s.cfg p] ++ [0xAA#8]) }) ∧
  (∀ (p : List Byte) (s : State),
    ([0x55#8] ++ stuff p ++ stuff [crc8 s.cfg p] ++ [0xAA#8]).length =
      2 + p.length + 1 + (p ++ [crc8 s.cfg p]).countP (fun b => b == 0x55#8 || b == 0xAA#8 || b == 0x66#8)) ∧
  (∀ s : State, exec (.frmEnc []) s = .next { s with result := .wire [0x55#8, 0x00#8, 0xAA#8] })

/-- R148, R149: FRM.DEC completes on every byte string and returns `p` exactly when the string is one candidate frame
(D6) whose unescaped bytes, 4 to 128 of them (D5), have residue zero and are `p` and the CRC byte; and the checks of
decode_body, shared with RB.NEXT, with the reasons of R149. That a lone marker is malformed is decision D4 of the
spec, that FRM.DEC leaves crc and escPending D32, the names of the reasons D38. -/
def Obligations.FrameDecodeRule : Prop :=
  (∀ (frame : List Byte) (s : State), ∃ r : Option (List Byte),
    exec (.frmDec frame) s = .next { s with result := .payload r } ∧
    ∀ p : List Byte, r = some p ↔
      ∃ body u : List Byte, frame = [0x55#8] ++ body ++ [0xAA#8] ∧ 0x55#8 ∉ body ∧ 0xAA#8 ∉ body ∧
        unstuff body = some u ∧ 4 ≤ u.length ∧ u.length ≤ 128 ∧ crc8 s.cfg u = 0x00#8 ∧ p = u.take (u.length - 1)) ∧
  (∀ (c : Config) (body : List Byte),
    (unstuff body = none → decodeBody c body = .error .danglingEsc) ∧
    (∀ u : List Byte, unstuff body = some u →
      (u.length < 4 → decodeBody c body = .error .shortFrame) ∧
      (128 < u.length → decodeBody c body = .error .longFrame) ∧
      (4 ≤ u.length → u.length ≤ 128 → crc8 c u ≠ 0x00#8 → decodeBody c body = .error .badCrc) ∧
      (4 ≤ u.length → u.length ≤ 128 → crc8 c u = 0x00#8 → decodeBody c body = .ok (u.take (u.length - 1)))))

/-- R152: with a zero entry 0, FRM.DEC of what FRM.ENC returned is the payload for 3 to 127 bytes, and nothing for
every other length. The upper bound is decision D5 of the spec. That the frame operations leave crc and escPending is
D32. -/
def Obligations.FrameRoundTrip : Prop :=
  ∀ (p : List Byte) (s : State), s.cfg.crcTable[0] = 0x00#8 →
    ∃ (w : List Byte) (t : State), exec (.frmEnc p) s = .next t ∧ t.result = .wire w ∧
      exec (.frmDec w) t = .next { t with
        result := .payload (if 3 ≤ p.length ∧ p.length ≤ 127 then some p else none) }

/-- R154: the streaming use of CRC.CLR, ESC.GET, CRC.UPD and CRC.CHK accepts a body exactly when FRM.DEC of the body
between its sentinels returns a payload. The upper bound of 128 bytes is decision D5 of the spec. That a lone marker
is malformed is D4. -/
def Obligations.StreamingFormAgrees : Prop :=
  ∀ (body : List Byte) (s : State), 0x55#8 ∉ body → 0xAA#8 ∉ body →
    (streamAccepts body s = true ↔
      ∃ p : List Byte, exec (.frmDec ([0x55#8] ++ body ++ [0xAA#8])) s = .next { s with result := .payload (some p) })

/-! ## Ring buffer (42_frame_assembler.md) -/

/-- R171 (the unlatched guard is decision D8), with no earlier push unfinished: RB.PUSH of one byte, and what the slots hold
after an accepted one. -/
def Obligations.PushOneByte : Prop :=
  ∀ (b : Byte) (s : State), s.pushing = [] →
    exec (.rbPush [b]) s = .next (
      if s.startValid = true ∧ s.pushIndex = s.frameStart then
        { s with overrun := true, drops := s.drops ++ [.overrun] }
      else if s.startValid = false ∧ (s.pushIndex + 1) % 2 ^ s.cfg.rbK = s.parseIndex then
        { s with overrun := true, drops := s.drops ++ [.overrun] }
      else
        { s with buf := Memory.store s.buf s.pushIndex b, pushIndex := (s.pushIndex + 1) % 2 ^ s.cfg.rbK }) ∧
    ∀ j : Nat, State.slot { s with buf := Memory.store s.buf s.pushIndex b } j = if j = s.pushIndex then b else s.slot j

/-- R172 with nothing else moving and no earlier push unfinished: RB.PUSH of a string takes as many of its bytes, in
order, as there is room (up to the latched start; with no latch, one slot less than the ring), stops at the first
refusal, and loses the rest. The one slot less (the unlatched guard) is decision D8 of the spec. -/
def Obligations.PushTakesAPrefix : Prop :=
  ∀ (bytes : List Byte) (s : State), Quiet s → s.pushing = [] → IndicesInRange s →
    ∃ (n : Nat) (t : State), exec (.rbPush bytes) s = .next t ∧
      n = min bytes.length
        (if s.startValid = true then gap s.cfg s.pushIndex s.frameStart
         else 2 ^ s.cfg.rbK - 1 - gap s.cfg s.parseIndex s.pushIndex) ∧
      t = { s with
        buf := t.buf
        pushIndex := (s.pushIndex + n) % 2 ^ s.cfg.rbK
        overrun := if n < bytes.length then true else s.overrun
        drops := if n < bytes.length then s.drops ++ [.overrun] else s.drops } ∧
      (∀ j < n, some (t.slot ((s.pushIndex + j) % 2 ^ s.cfg.rbK)) = bytes[j]?) ∧
      (∀ j : Nat, (∀ m < n, j ≠ (s.pushIndex + m) % 2 ^ s.cfg.rbK) → t.slot j = s.slot j)

/-- R176 with nothing else moving: RB.NEXT by its branches on the slot at parseIndex (a stray ETX is decision D11),
and what it leaves unchanged. That scanning goes on in the same call after a failed candidate is decision D10 of the
spec (R179), the release of the latch D7 (R178), that crc and escPending are left D32 (R21, R23). -/
def Obligations.NextScansByteByByte : Prop :=
  ∀ s : State, Quiet s → IndicesInRange s →
    (s.parseIndex = s.pushIndex → exec .rbNext s = .next { s with result := .message none }) ∧
    (s.parseIndex ≠ s.pushIndex → s.slot s.parseIndex = 0x55#8 →
      exec .rbNext s = exec .rbNext { s with
        parseIndex := (s.parseIndex + 1) % 2 ^ s.cfg.rbK
        frameStart := s.parseIndex
        startValid := true
        drops := if s.startValid = true then s.drops ++ [.abandoned] else s.drops }) ∧
    (s.parseIndex ≠ s.pushIndex → s.slot s.parseIndex = 0xAA#8 → s.startValid = true →
      (∀ (node id command : Byte) (params : List Byte),
        decodeBody s.cfg (candidateBody s s.parseIndex) = .ok (node :: id :: command :: params) →
        exec .rbNext s = .next { s with
          parseIndex := (s.parseIndex + 1) % 2 ^ s.cfg.rbK
          startValid := false
          result := .message (some ⟨node, id, command, params⟩) }) ∧
      (∀ r : Drop, decodeBody s.cfg (candidateBody s s.parseIndex) = .error r →
        exec .rbNext s = exec .rbNext { s with
          parseIndex := (s.parseIndex + 1) % 2 ^ s.cfg.rbK
          startValid := false
          drops := s.drops ++ [r] }) ∧
      (∀ j < (s.parseIndex + 2 ^ s.cfg.rbK - s.frameStart - 1) % 2 ^ s.cfg.rbK,
        (candidateBody s s.parseIndex)[j]? = some (s.slot ((s.frameStart + 1 + j) % 2 ^ s.cfg.rbK))) ∧
      (candidateBody s s.parseIndex).length = (s.parseIndex + 2 ^ s.cfg.rbK - s.frameStart - 1) % 2 ^ s.cfg.rbK) ∧
    (s.parseIndex ≠ s.pushIndex → s.slot s.parseIndex = 0xAA#8 → s.startValid = false →
      exec .rbNext s = exec .rbNext { s with
        parseIndex := (s.parseIndex + 1) % 2 ^ s.cfg.rbK, drops := s.drops ++ [.strayEtx] }) ∧
    (s.parseIndex ≠ s.pushIndex → s.slot s.parseIndex ≠ 0x55#8 → s.slot s.parseIndex ≠ 0xAA#8 →
      exec .rbNext s = exec .rbNext { s with parseIndex := (s.parseIndex + 1) % 2 ^ s.cfg.rbK }) ∧
    (∃ t : State, exec .rbNext s = .next t ∧
      t = { s with
        parseIndex := t.parseIndex, frameStart := t.frameStart, startValid := t.startValid
        result := t.result, drops := t.drops })

/-- R180, whatever the other agents do between two scan steps (their planned steps are log 11): RB.NEXT completes with
one result. With a message, parseIndex is just past the ETX of a frame that decodes to exactly that message and the
latch is released (R178, decision D7); with none, nothing is left unparsed. That the call goes on after a failed
candidate is decision D10 of the spec (R179), the grain of the steps D12 (R66). -/
def Obligations.NextDeliversAtMostOne : Prop :=
  ∀ s : State, IndicesInRange s →
    ∃ (t : State) (r : Option Message), exec .rbNext s = .next t ∧ t.result = .message r ∧
      (r = none → t.parseIndex = t.pushIndex) ∧
      (∀ m : Message, r = some m → ∃ pos : Nat,
        t.parseIndex = (pos + 1) % 2 ^ t.cfg.rbK ∧ t.slot pos = 0xAA#8 ∧ t.startValid = false ∧
        decodeBody t.cfg (candidateBody t pos) = .ok ([m.nodeId, m.msgId, m.command] ++ m.params))

/-- R184: in the wedge every push is refused and every RB.NEXT returns nothing; no operation but RST leaves it or
moves the producer's side of the ring, whatever the other agents do; RST leaves it. What releases a latch is decision
D7 of the spec (R178), what RST writes D36. -/
def Obligations.WedgeLastsUntilReset : Prop :=
  ∀ s : State, Wedged s →
    (∀ (b : Byte) (bytes : List Byte), s.pushing = [] →
      exec (.rbPush (b :: bytes)) s = .next { s with overrun := true, drops := s.drops ++ [.overrun] }) ∧
    exec .rbNext s = .next { s with result := .message none } ∧
    (∀ (i : Instr) (t : State), i ≠ .rst → exec i s = .next t →
      Wedged t ∧ t.buf = s.buf ∧ t.pushIndex = s.pushIndex) ∧
    (∃ t : State, exec .rst s = .next t ∧ ¬Wedged t)

/-- R183, in a ring with nothing unparsed and no start latched, nothing else moving: garbage without a start, then a
partial frame (a start and bytes that are no end, further starts among them or not), then the frame of a payload give
one message, that payload's, and then none. Left out: garbage that holds a start, and a partial frame that holds an
end but fails its checks. That an ETX in the garbage is skipped is decision D11 of the spec, that 2^k - 1 bytes fit
D8. -/
def Obligations.SecondFrameIsDelivered : Prop :=
  ∀ (s : State) (garbage rest params : List Byte) (node id command : Byte),
    s.cfg.Valid → Quiet s → s.pushing = [] → IndicesInRange s → s.startValid = false → s.parseIndex = s.pushIndex →
    0x55#8 ∉ garbage → 0xAA#8 ∉ rest → params.length ≤ 124 →
    (garbage ++ 0x55#8 :: rest ++ frameEncode s.cfg ([node, id, command] ++ params)).length ≤ 2 ^ s.cfg.rbK - 1 →
    ∃ t u v : State,
      exec (.rbPush (garbage ++ 0x55#8 :: rest ++ frameEncode s.cfg ([node, id, command] ++ params))) s = .next t ∧
      exec .rbNext t = .next u ∧ u.result = .message (some ⟨node, id, command, params⟩) ∧
      exec .rbNext u = .next v ∧ v.result = .message none ∧ v.overrun = s.overrun

/-- R29: every step of the machine, the other agents' steps included, keeps the ring invariants. The latch bit is
decision D7 of the spec (R27), the unlatched guard D8 (R171). -/
def Obligations.RingInvariantKept : Prop :=
  ∀ s t : State, RingInv s → step s = .next t → RingInv t

/-! ## Debug channels (43_debug_channel.md)

Here and below the byte at NULL of a value or pointer that runs onto NULL is not accessed (R60, R202); that a read gives the
free value `nullByte` for it is the model's choice (log 26), and the statements hold for every value of it. -/

/-- R206 in a memory at rest: CH.RD on a descriptor by value, and on a registry slot, whose latch alone of all
registers may change; what target memory holds at NULL makes no difference (R60, R202). That the result carries the
latch as a third part, beside the value and `changed` of R82, is the model's choice (log 16); the slot form is the
telemetry scan's (R283), no port request has it (R31). That the last pointer of a chase is checked for null is
decision D13 of the spec. The width and order of a pointer in memory are D3. -/
def Obligations.ReadAtRest : Prop :=
  (∀ (d : Descriptor) (s : State), Quiet s →
    exec (.chRd (.scratch d)) s = .next { s with
      result := .value (valueAtRest s d) (changedAtRest s d) (latchAtRest s d)
      drops := s.drops ++ chaseDrops s d }) ∧
  (∀ (i : Fin 16) (s : State), Quiet s →
    exec (.chRd (.slot i)) s = .next { s with
      ch := s.ch.set i { s.ch[i] with previousValue := latchAtRest s s.ch[i].descriptor }
      result := .value (valueAtRest s s.ch[i].descriptor) (changedAtRest s s.ch[i].descriptor)
        (latchAtRest s s.ch[i].descriptor)
      drops := s.drops ++ chaseDrops s s.ch[i].descriptor }) ∧
  (∀ (ref : ChannelRef) (m : Memory) (s t : State), Quiet s →
    (∀ a : Address, wrap s.cfg a ≠ s.cfg.null → State.readByte { s with mem := m } a = s.readByte a) →
    exec (.chRd ref) s = .next t → exec (.chRd ref) { s with mem := m } = .next { t with mem := m })

/-- R204, R202: a chain of two pointers in a memory at rest. The value is at the target of the second pointer; a null
first pointer, or a null last one (decision D13), makes the read return no value and leave the latch. The width and
order of a pointer in memory are decision D3 of the spec. -/
def Obligations.ChainOfTwoPointers : Prop :=
  ∀ (d : Descriptor) (s : State), Quiet s → d.dereferenceDepth = 0x02#8 → wrap s.cfg d.address ≠ s.cfg.null →
    (pointerAt s (wrap s.cfg d.address) ≠ s.cfg.null →
      pointerAt s (pointerAt s (wrap s.cfg d.address)) ≠ s.cfg.null →
      ∃ (changed : Bool) (latch : Vector Byte 8), exec (.chRd (.scratch d)) s = .next { s with
        result := .value
          (some (bytesAt s (pointerAt s (pointerAt s (wrap s.cfg d.address))) d.sizeBytes.toNat)) changed latch }) ∧
    (pointerAt s (wrap s.cfg d.address) = s.cfg.null ∨
      pointerAt s (pointerAt s (wrap s.cfg d.address)) = s.cfg.null →
      exec (.chRd (.scratch d)) s = .next { s with
        result := .value none false d.previousValue, drops := s.drops ++ [.nullPointer] })

/-- R202, R206, R208, R209, R210, whatever the other agents do meanwhile: a null root reads nothing and writes
nothing; a read without a value is unchanged and leaves every latch; a read of size zero leaves every latch. That a
null last pointer gives no value too is decision D13 of the spec. -/
def Obligations.AbortedReadKeepsTheLatch : Prop :=
  (∀ (d : Descriptor) (v : Vector Byte 8) (s : State), wrap s.cfg d.address = s.cfg.null →
    exec (.chRd (.scratch d)) s = .next { s with
      result := .value none false d.previousValue, drops := s.drops ++ [.nullPointer] } ∧
    exec (.chWr (.scratch d) v) s = .next { s with drops := s.drops ++ [.nullPointer] }) ∧
  (∀ (i : Fin 16) (s : State), ∃ (t : State) (v : Option (List Byte)) (changed : Bool) (latch : Vector Byte 8),
    exec (.chRd (.slot i)) s = .next t ∧ t.result = .value v changed latch ∧
    (∀ j : Fin 16, j ≠ i → t.ch[j] = s.ch[j]) ∧
    t.ch[i] = { s.ch[i] with previousValue := latch } ∧
    (v = none → changed = false) ∧ (changed = false → t.ch = s.ch) ∧
    (s.ch[i].sizeBytes = 0x00#8 → changed = false ∧ (v = none ∨ v = some [])))

/-- R210 in a memory at rest: CH.WR on a descriptor by value and on a slot stores the first sizeBytes bytes of the
value at the resolved address, but never at NULL (R60, R202), and nowhere else, writes no register (no latch), and is
a no-op on a null. The value field of 8 bytes, of which R210's operand is the first sizeBytes, is the model's choice
(log 16); no port request has the slot form (R31). That the last pointer of a chase is checked for null is decision
D13 of the spec. The width and order of a pointer in memory are D3. -/
def Obligations.WriteAtRest : Prop :=
  ∀ (ref : ChannelRef) (v : Vector Byte 8) (s : State), s.cfg.Valid → Quiet s →
    (resolveAtRest s (refDescriptor ref s) = none →
      exec (.chWr ref v) s = .next { s with drops := s.drops ++ [.nullPointer] }) ∧
    (∀ p : Address, resolveAtRest s (refDescriptor ref s) = some p →
      ∃ m : Memory, exec (.chWr ref v) s = .next { s with mem := m } ∧
        StoredAt s { s with mem := m } p (v.toList.take (refDescriptor ref s).sizeBytes.toNat))

/-- R211: a write, then two reads, through a slot of depth 0 with a root that is not null and no byte at NULL, nothing else
moving: the first read returns the value and whether it differs from the latch, the second the value and no change. (Of a
value that runs onto NULL, WriteAtRest and ReadAtRest say what each operation does.) -/
def Obligations.WriteThenRead : Prop :=
  ∀ (i : Fin 16) (v : Vector Byte 8) (s : State), s.cfg.Valid → Quiet s →
    s.ch[i].dereferenceDepth = 0x00#8 → s.ch[i].sizeBytes.toNat ≤ 8 → wrap s.cfg s.ch[i].address ≠ s.cfg.null →
    (∀ j < s.ch[i].sizeBytes.toNat, wrap s.cfg (s.ch[i].address + j) ≠ s.cfg.null) →
    ∃ (t u w : State) (l l' : Vector Byte 8),
      exec (.chWr (.slot i) v) s = .next t ∧ t.ch = s.ch ∧
      exec (.chRd (.slot i)) t = .next u ∧
      u.result = .value (some (v.toList.take s.ch[i].sizeBytes.toNat))
        (decide (v.toList.take s.ch[i].sizeBytes.toNat ≠ s.ch[i].previousValue.toList.take s.ch[i].sizeBytes.toNat)) l ∧
      exec (.chRd (.slot i)) u = .next w ∧
      w.result = .value (some (v.toList.take s.ch[i].sizeBytes.toNat)) false l'

/-- R13: the bytes of a number in each order, and that reading them back gives the number. That the order is a
parameter is decisions D2 and D3 of the spec. -/
def Obligations.MultiByteFields : Prop :=
  (∀ (n v j : Nat), j < n →
    (orderBytes .little n v)[j]? = some (BitVec.ofNat 8 (v / 256 ^ j)) ∧
    (orderBytes .big n v)[j]? = some (BitVec.ofNat 8 (v / 256 ^ (n - 1 - j)))) ∧
  (∀ (o : ByteOrder) (n v : Nat),
    (orderBytes o n v).length = n ∧ orderValue o (orderBytes o n v) = v % 256 ^ n) ∧
  (∀ (o : ByteOrder) (bytes : List Byte),
    orderBytes o bytes.length (orderValue o bytes) = bytes ∧ orderValue o bytes < 256 ^ bytes.length)

/-! ## Dispatcher (44_dispatcher.md) -/

/-- R232, R234: a message for another node changes nothing, as the operand of DSP.MSG and as its row (that rows are
instructions is the model's choice, log 7); a broadcast acts as the same message sent to this node; an unknown command
changes nothing. -/
def Obligations.NodeFilterAndUnknownCommand : Prop :=
  (∀ (m : Message) (s : State), ¬IsFor s m.header →
    exec (.dspMsg m) s = .next { s with drops := s.drops ++ [.notForMe] } ∧
    exec (Instr.ofMessage m) s = .next { s with drops := s.drops ++ [.notForMe] }) ∧
  (∀ (msgId command : Byte) (params : List Byte) (s : State),
    exec (.dspMsg ⟨0xFF#8, msgId, command, params⟩) s = exec (.dspMsg ⟨s.cfg.nodeId, msgId, command, params⟩) s) ∧
  (∀ (m : Message) (s : State), IsFor s m.header →
    m.command ∉ [0x56#8, 0x49#8, 0x57#8, 0x51#8, 0x43#8, 0x44#8, 0x54#8, 0x52#8, 0x53#8] →
    exec (.dspMsg m) s = .next { s with drops := s.drops ++ [.unknownCommand] })

/-- R85, R100, R231: each message row acts as DSP.MSG on the message it stands for, and DSP.MSG acts as the row its
command byte and length select. That every nonempty Decimation list is the set form is decision D20 of the spec (R90).
-/
def Obligations.RowsAgreeWithDispatch : Prop :=
  (∀ (m : Message) (s : State), exec (.dspMsg m) s = exec (Instr.ofMessage m) s) ∧
  (∀ (h : Header) (ps : List Byte) (x y : Byte) (s : State),
    exec (.vGetVersion h ps) s = exec (.dspMsg ⟨h.nodeId, h.msgId, 0x56#8, ps⟩) s ∧
    exec (.iGetInfo h ps) s = exec (.dspMsg ⟨h.nodeId, h.msgId, 0x49#8, ps⟩) s ∧
    exec (.wWriteRegister h ps) s = exec (.dspMsg ⟨h.nodeId, h.msgId, 0x57#8, ps⟩) s ∧
    exec (.qQueryRegister h ps) s = exec (.dspMsg ⟨h.nodeId, h.msgId, 0x51#8, ps⟩) s ∧
    exec (.cConfigQuery h x) s = exec (.dspMsg ⟨h.nodeId, h.msgId, 0x43#8, [x]⟩) s ∧
    exec (.cConfigMode h x y) s = exec (.dspMsg ⟨h.nodeId, h.msgId, 0x43#8, [x, y]⟩) s ∧
    exec (.cConfigFull h ps) s = exec (.dspMsg ⟨h.nodeId, h.msgId, 0x43#8, ps⟩) s ∧
    exec (.dDecimationQuery h) s = exec (.dspMsg ⟨h.nodeId, h.msgId, 0x44#8, []⟩) s ∧
    exec (.dDecimationSet h x ps) s = exec (.dspMsg ⟨h.nodeId, h.msgId, 0x44#8, x :: ps⟩) s ∧
    exec (.tResetTime h ps) s = exec (.dspMsg ⟨h.nodeId, h.msgId, 0x54#8, ps⟩) s ∧
    exec (.rReadChannelData h ps) s = exec (.dspMsg ⟨h.nodeId, h.msgId, 0x52#8, ps⟩) s ∧
    exec (.sDebugString h ps) s = exec (.dspMsg ⟨h.nodeId, h.msgId, 0x53#8, ps⟩) s)

/-- R236: GetVersion replies with versions and length-prefixed names (the one-byte prefixes are decision D30),
whatever its parameters and message id. The header of the reply is decision D18 of the spec, that parameters are
ignored D20. -/
def Obligations.VersionReply : Prop :=
  ∀ (h : Header) (ps : List Byte) (s : State), s.cfg.Valid → IsFor s h →
    exec (.vGetVersion h ps) s = .next { s with
      tx := s.tx ++ [frameEncode s.cfg ([s.cfg.nodeId, h.msgId, 0x56#8] ++
        (s.cfg.protocolVersion.toList ++ s.cfg.appVersion.toList ++
          [BitVec.ofNat 8 s.cfg.nodeName.length] ++ s.cfg.nodeName ++
          [BitVec.ofNat 8 s.cfg.serialNumber.length] ++ s.cfg.serialNumber))] }

/-- R237: GetInfo replies with INFO_BODY; an empty one with message id 0 is not sent. The header of the reply
(NODE_ID, the request's message id and command) is decision D18 of the spec, that parameters are ignored D20. -/
def Obligations.InfoReply : Prop :=
  ∀ (h : Header) (ps : List Byte) (s : State), s.cfg.Valid → IsFor s h →
    exec (.iGetInfo h ps) s = .next { s with tx := s.tx ++ replyFrames s h.msgId 0x49#8 s.cfg.infoBody }

/-- R241, R239 in a memory at rest: WriteRegister stores the value bytes through the scratch descriptor and acks, also
when the chase ends in a null. The header of the ack is decision D18 of the spec, the scratch descriptor D34, that
bytes beyond the value are ignored D20. That RESOLVE gives the address is D33, that the control byte is not checked
D15, that the last pointer is checked for null D13. -/
def Obligations.WriteRegisterEffect : Prop :=
  ∀ (h : Header) (ps : List Byte) (s : State) (d : Descriptor), s.cfg.Valid → Quiet s → IsFor s h →
    6 ≤ ps.length → (byteAt ps 5).toNat ≤ 8 → 6 + (byteAt ps 5).toNat ≤ ps.length →
    d = ⟨resolve s.cfg s.resolver (BitVec.ofNat 32 (unwire s.cfg (ps.take 4))) (byteAt ps 4),
      byteAt ps 4 &&& 0x0F#8, byteAt ps 5, Vector.replicate 8 0x00#8⟩ →
    (resolveAtRest s d = none →
      exec (.wWriteRegister h ps) s = .next { s with
        tx := s.tx ++ replyFrames s h.msgId 0x57#8 [], drops := s.drops ++ [.nullPointer] }) ∧
    (∀ p : Address, resolveAtRest s d = some p →
      ∃ m : Memory, exec (.wWriteRegister h ps) s = .next { s with
          mem := m, tx := s.tx ++ replyFrames s h.msgId 0x57#8 [] } ∧
        StoredAt s { s with mem := m } p ((ps.drop 6).take (byteAt ps 5).toNat))

/-- R243 in a memory at rest: QueryRegister echoes offset, control and size and gives 4 value bytes (padding,
truncation and zeros on a null are decision D17), whatever the message id; it writes no register and no memory. The
header of the reply is decision D18 of the spec, the scratch descriptor D34, that further bytes are ignored D20. That
RESOLVE gives the address is D33, that the control byte is not checked D15, that the last pointer is checked for null
D13. -/
def Obligations.QueryRegisterReply : Prop :=
  ∀ (h : Header) (ps : List Byte) (s : State) (d : Descriptor), s.cfg.Valid → Quiet s → IsFor s h →
    6 ≤ ps.length → (byteAt ps 5).toNat ≤ 8 →
    d = ⟨resolve s.cfg s.resolver (BitVec.ofNat 32 (unwire s.cfg (ps.take 4))) (byteAt ps 4),
      byteAt ps 4 &&& 0x0F#8, byteAt ps 5, Vector.replicate 8 0x00#8⟩ →
    exec (.qQueryRegister h ps) s = .next { s with
      tx := s.tx ++ [frameEncode s.cfg ([s.cfg.nodeId, h.msgId, 0x51#8] ++ (ps.take 4 ++ [byteAt ps 4, byteAt ps 5] ++
        (match valueAtRest s d with
          | none => [0x00#8, 0x00#8, 0x00#8, 0x00#8]
          | some v => (v ++ [0x00#8, 0x00#8, 0x00#8, 0x00#8]).take 4)))]
      drops := s.drops ++ chaseDrops s d }

/-- R238, R241, R247, R316: the register commands that are ignored, and which reason comes first. The size bound is
decision D16 of the spec, the lengths are D20. -/
def Obligations.RegisterCommandChecks : Prop :=
  ∀ (h : Header) (ps : List Byte) (s : State), IsFor s h →
    (ps.length < 6 →
      exec (.wWriteRegister h ps) s = .next { s with drops := s.drops ++ [.badLength] } ∧
      exec (.qQueryRegister h ps) s = .next { s with drops := s.drops ++ [.badLength] }) ∧
    (6 ≤ ps.length → 8 < (byteAt ps 5).toNat →
      exec (.wWriteRegister h ps) s = .next { s with drops := s.drops ++ [.badSize] } ∧
      exec (.qQueryRegister h ps) s = .next { s with drops := s.drops ++ [.badSize] }) ∧
    (6 ≤ ps.length → (byteAt ps 5).toNat ≤ 8 → ps.length < 6 + (byteAt ps 5).toNat →
      exec (.wWriteRegister h ps) s = .next { s with drops := s.drops ++ [.badLength] })

/-- R249: the query form replies with mode, offset, control and size of the slot. The header of the reply (NODE_ID,
the request's message id and command) is decision D18 of the spec. -/
def Obligations.ConfigQueryReply : Prop :=
  ∀ (h : Header) (i : Fin 16) (s : State), IsFor s h →
    exec (.cConfigQuery h (BitVec.ofNat 8 i.val)) s = .next { s with
      tx := s.tx ++ [frameEncode s.cfg ([s.cfg.nodeId, h.msgId, 0x43#8] ++
        ([s.ch[i].updateMode] ++ wire s.cfg 4 s.ch[i].offset.toNat ++ [s.ch[i].control, s.ch[i].sizeBytes]))] }

/-- R250: the mode-only form stores the mode byte as it is, arms tracingOnce for MODE_SENDONCE, and acks. That the
mode byte is stored as received is decision D14 of the spec, that this form is acked D19, the header of the ack D18.
-/
def Obligations.ConfigModeEffect : Prop :=
  ∀ (h : Header) (i : Fin 16) (mode : Byte) (s : State), IsFor s h →
    exec (.cConfigMode h (BitVec.ofNat 8 i.val) mode) s = .next { s with
      ch := s.ch.set i { s.ch[i] with updateMode := mode }
      tracingOnce := if mode = s.cfg.mode.sendOnce then true else s.tracingOnce
      tx := s.tx ++ replyFrames s h.msgId 0x43#8 [] }

/-- R251, R252, R254, R247: the full form replaces the slot wholesale and acks (which bit is flipped is decision D28);
it does not touch tracingOnce; a size above 8 leaves the slot and sends nothing. That the mode byte is stored as
received is decision D14 of the spec, the size bound D16, that this form is acked D19, the header of the ack D18, 8 as
its least length D21. That RESOLVE gives the address is D33, that the control byte is not checked D15. -/
def Obligations.ConfigFullEffect : Prop :=
  ∀ (h : Header) (i : Fin 16) (ps : List Byte) (s : State), IsFor s h → 8 ≤ ps.length → byteAt ps 0 = BitVec.ofNat 8 i.val →
    ((byteAt ps 7).toNat ≤ 8 →
      exec (.cConfigFull h ps) s = .next { s with
        ch := s.ch.set i {
          address := resolve s.cfg s.resolver (BitVec.ofNat 32 (unwire s.cfg ((ps.drop 2).take 4))) (byteAt ps 6)
          dereferenceDepth := byteAt ps 6 &&& 0x0F#8
          sizeBytes := byteAt ps 7
          previousValue := (Vector.replicate 8 0x00#8).set s.cfg.forceByte (0x00#8 ^^^ (0x01#8 <<< s.cfg.forceBit.val))
          updateMode := byteAt ps 1
          offset := BitVec.ofNat 32 (unwire s.cfg ((ps.drop 2).take 4))
          control := byteAt ps 6 }
        tx := s.tx ++ replyFrames s h.msgId 0x43#8 [] }) ∧
    (8 < (byteAt ps 7).toNat → exec (.cConfigFull h ps) s = .next { s with drops := s.drops ++ [.badSize] })

/-- R248, R253: the form by the number of parameter bytes, an index above 15 first; seven bytes are refused. That 8 is
the least length of the full form, 0 and 3 to 6 bytes are ignored and 7 are refused is decision D21 of the spec. -/
def Obligations.ConfigFormByLength : Prop :=
  ∀ (h : Header) (ps : List Byte) (s : State), IsFor s h →
    (ps.length = 0 → exec (.dspMsg ⟨h.nodeId, h.msgId, 0x43#8, ps⟩) s = .next { s with drops := s.drops ++ [.badLength] }) ∧
    (1 ≤ ps.length → 15 < (byteAt ps 0).toNat →
      exec (.dspMsg ⟨h.nodeId, h.msgId, 0x43#8, ps⟩) s = .next { s with drops := s.drops ++ [.badChannel] }) ∧
    (1 ≤ ps.length → (byteAt ps 0).toNat ≤ 15 →
      (ps.length = 1 →
        exec (.dspMsg ⟨h.nodeId, h.msgId, 0x43#8, ps⟩) s = exec (.cConfigQuery h (byteAt ps 0)) s) ∧
      (ps.length = 2 →
        exec (.dspMsg ⟨h.nodeId, h.msgId, 0x43#8, ps⟩) s = exec (.cConfigMode h (byteAt ps 0) (byteAt ps 1)) s) ∧
      (3 ≤ ps.length → ps.length ≤ 6 →
        exec (.dspMsg ⟨h.nodeId, h.msgId, 0x43#8, ps⟩) s = .next { s with drops := s.drops ++ [.badLength] }) ∧
      (ps.length = 7 → exec (.dspMsg ⟨h.nodeId, h.msgId, 0x43#8, ps⟩) s = .refused .cfgLen7) ∧
      (8 ≤ ps.length → exec (.dspMsg ⟨h.nodeId, h.msgId, 0x43#8, ps⟩) s = exec (.cConfigFull h ps) s))

/-- R256: the two forms of Decimation, through their rows and through DSP.MSG; the reply is always sent (one byte,
D22). The header of the reply is decision D18 of the spec. That bytes after the first are ignored is D20 (R90). -/
def Obligations.DecimationEffect : Prop :=
  ∀ (h : Header) (x : Byte) (extra : List Byte) (s : State), IsFor s h →
    exec (.dDecimationQuery h) s = .next { s with
      tx := s.tx ++ [frameEncode s.cfg [s.cfg.nodeId, h.msgId, 0x44#8, s.decimation.setWidth 8]] } ∧
    exec (.dspMsg ⟨h.nodeId, h.msgId, 0x44#8, []⟩) s = .next { s with
      tx := s.tx ++ [frameEncode s.cfg [s.cfg.nodeId, h.msgId, 0x44#8, s.decimation.setWidth 8]] } ∧
    exec (.dDecimationSet h x extra) s = .next { s with
      decimation := if x = 0x00#8 then 1#32 else x.zeroExtend 32
      tx := s.tx ++ [frameEncode s.cfg [s.cfg.nodeId, h.msgId, 0x44#8, if x = 0x00#8 then 0x01#8 else x]] } ∧
    exec (.dspMsg ⟨h.nodeId, h.msgId, 0x44#8, x :: extra⟩) s = .next { s with
      decimation := if x = 0x00#8 then 1#32 else x.zeroExtend 32
      tx := s.tx ++ [frameEncode s.cfg [s.cfg.nodeId, h.msgId, 0x44#8, if x = 0x00#8 then 0x01#8 else x]] }

/-- R258: ResetTime zeroes the three time registers and acks. The header of the ack (NODE_ID, the request's message id
and command) is decision D18 of the spec, that parameters are ignored D20. -/
def Obligations.ResetTimeEffect : Prop :=
  ∀ (h : Header) (ps : List Byte) (s : State), IsFor s h →
    exec (.tResetTime h ps) s = .next { s with
      timeTicks := 0, lastFastUpdate := 0, lastSlowUpdate := 0, tx := s.tx ++ replyFrames s h.msgId 0x54#8 [] }

/-- R260: ReadChannelData by its first parameter byte; other values and no byte change nothing (D23); never a reply.
That it never replies, whatever the message id, is decision D19 of the spec. -/
def Obligations.ReadChannelDataEffect : Prop :=
  ∀ (h : Header) (sel : Byte) (extra : List Byte) (s : State), IsFor s h →
    exec (.rReadChannelData h []) s = .next s ∧
    exec (.rReadChannelData h (0x00#8 :: extra)) s = .next { s with tracingOn := false } ∧
    exec (.rReadChannelData h (0x01#8 :: extra)) s = .next { s with tracingOn := true } ∧
    exec (.rReadChannelData h (0x02#8 :: extra)) s = .next { s with tracingOnce := true } ∧
    (2 < sel.toNat → exec (.rReadChannelData h (sel :: extra)) s = .next s)

/-- R262, R378 (full test and loss are decision D31): with nothing else moving DebugString appends as many bytes as
there are free places, in order, and loses the rest; never a reply. Whatever the other agents do, it goes byte by
byte: on a full ring the rest is lost, else the byte is stored and, past the boundary after it (log 12), the rest
follows as a DebugString of its own would. That it never replies is decision D19 of the spec. The grain of the steps
is D12. -/
def Obligations.DebugStringEffect : Prop :=
  (∀ (h : Header) (b : Byte) (rest : List Byte) (s : State), IsFor s h →
    exec (.sDebugString h []) s = .next s ∧
    ((s.dbgPush + 1) % 2 ^ s.cfg.dbgK = s.dbgPop →
      exec (.sDebugString h (b :: rest)) s = .next { s with drops := s.drops ++ [.dbgOverflow] }) ∧
    ((s.dbgPush + 1) % 2 ^ s.cfg.dbgK ≠ s.dbgPop →
      exec (.sDebugString h (b :: rest)) s = exec (.sDebugString h rest) (State.land { s with
        dbgBuf := Memory.store s.dbgBuf s.dbgPush b, dbgPush := (s.dbgPush + 1) % 2 ^ s.cfg.dbgK }))) ∧
  ∀ (h : Header) (text : List Byte) (s : State), Quiet s → IsFor s h → TextInv s →
    ∃ (n : Nat) (t : State), exec (.sDebugString h text) s = .next t ∧
      n = min text.length
        (2 ^ s.cfg.dbgK - 1 - (s.dbgPush + 2 ^ s.cfg.dbgK - s.dbgPop) % 2 ^ s.cfg.dbgK) ∧
      t = { s with
        dbgBuf := t.dbgBuf
        dbgPush := (s.dbgPush + n) % 2 ^ s.cfg.dbgK
        drops := if n < text.length then s.drops ++ [.dbgOverflow] else s.drops } ∧
      (∀ j < n, some (t.textSlot ((s.dbgPush + j) % 2 ^ s.cfg.dbgK)) = text[j]?) ∧
      (∀ j : Nat, (∀ m < n, j ≠ (s.dbgPush + m) % 2 ^ s.cfg.dbgK) → t.textSlot j = s.textSlot j)

/-- R231, R233, R94, whatever the other agents do: a message answered by DSP.MSG is answered with one frame of the
reply header and a body, never for ReadChannelData or DebugString, never to another node, and never with message id 0
and an empty body. The reply header is decision D18 of the spec, which commands reply D19. -/
def Obligations.RepliesAreFiltered : Prop :=
  ∀ (m : Message) (s t : State), exec (.dspMsg m) s = .next t →
    t.tx = s.tx ∨
    ∃ body : List Byte, t.tx = s.tx ++ [frameEncode s.cfg ([s.cfg.nodeId, m.msgId, m.command] ++ body)] ∧
      (m.msgId ≠ 0x00#8 ∨ body ≠ []) ∧ IsFor s m.header ∧
      m.command ∈ [0x56#8, 0x49#8, 0x57#8, 0x51#8, 0x43#8, 0x44#8, 0x54#8]

/-! ## Telemetry (45_telemetry.md) -/

/-- R281: a tick adds one modulo 2^32. -/
def Obligations.TickWraps : Prop :=
  ∀ s : State,
    exec .tmTick s = .next { s with timeTicks := BitVec.ofNat 32 ((s.timeTicks.toNat + 1) % 2 ^ 32) } ∧
    (s.timeTicks = 0xFFFFFFFF#32 → exec .tmTick s = .next { s with timeTicks := 0x00000000#32 })

/-- R283, R290, R293: a poll that does not scan changes nothing; the elapsed ticks are taken modulo 2^32. -/
def Obligations.PollWithoutScan : Prop :=
  ∀ s : State,
    (s.tracingOn = false → s.tracingOnce = false → exec .tmPoll s = .next s) ∧
    ((s.timeTicks.toNat + 2 ^ 32 - s.lastFastUpdate.toNat) % 2 ^ 32 < s.decimation.toNat → exec .tmPoll s = .next s)

/-- R283, R284, R286, R288 to R292 in a memory at rest: everything a poll that scans does, or its refusal when the
message would be longer than 124 parameter bytes. The basis writes are decision D24 of the spec, the exclusion of
valueless channels D25. The message's header is D26, the refusal D27. The one clock reading is D40, that a mode byte
outside the five codes never contributes D14, the check of the last pointer D13. -/
def Obligations.PollScansAtRest : Prop :=
  ∀ (s : State) (mask : BitVec 16) (slow : Bool), Quiet s → MaskOf s mask →
    (s.tracingOn = true ∨ s.tracingOnce = true) →
    s.decimation.toNat ≤ (s.timeTicks.toNat + 2 ^ 32 - s.lastFastUpdate.toNat) % 2 ^ 32 →
    slow = decide (s.cfg.slowIntervalTicks.toNat ≤ (s.timeTicks.toNat + 2 ^ 32 - s.lastSlowUpdate.toNat) % 2 ^ 32) →
    (5 + (valuesAtRest s).length ≤ 124 →
      exec .tmPoll s = .next { s with
        lastFastUpdate := s.timeTicks
        lastSlowUpdate := if slow = true then s.timeTicks else s.lastSlowUpdate
        tracingOnce := false
        ch := Vector.ofFn fun i => { s.ch[i] with previousValue := latchAtRest s s.ch[i].descriptor }
        tx := if mask = 0x0000#16 then s.tx
          else s.tx ++ [frameEncode s.cfg ([s.cfg.nodeId, s.cfg.telemetryMsgId, s.cfg.telemetryCmd] ++
            (wire s.cfg 3 (s.timeTicks.toNat % 2 ^ 24) ++ wire s.cfg 2 mask.toNat ++ valuesAtRest s))]
        drops := s.drops ++ channelOrder.flatMap fun i => chaseDrops s s.ch[i].descriptor }) ∧
    (124 < 5 + (valuesAtRest s).length → exec .tmPoll s = .refused .bodyTooLong)

/-- R287, R284, R290, R291, whatever the other agents do during the poll, ticks included: the interval bases and the
timestamp are the clock as it was at the start; tracingOnce is cleared; at most one frame leaves, with a nonzero mask.
The one reading is decision D40 of the spec. The basis writes are decision D24 of the spec, the message's header D26.
That a tick may fall inside a poll is D39. -/
def Obligations.ClockIsReadOnce : Prop :=
  ∀ s t : State, (s.tracingOn = true ∨ s.tracingOnce = true) →
    s.decimation.toNat ≤ (s.timeTicks.toNat + 2 ^ 32 - s.lastFastUpdate.toNat) % 2 ^ 32 →
    exec .tmPoll s = .next t →
    t.lastFastUpdate = s.timeTicks ∧
    t.lastSlowUpdate =
      (if s.cfg.slowIntervalTicks.toNat ≤ (s.timeTicks.toNat + 2 ^ 32 - s.lastSlowUpdate.toNat) % 2 ^ 32
        then s.timeTicks else s.lastSlowUpdate) ∧
    t.tracingOnce = false ∧
    (t.tx = s.tx ∨
      ∃ (mask : BitVec 16) (values : List Byte), mask ≠ 0x0000#16 ∧
        t.tx = s.tx ++ [frameEncode s.cfg ([s.cfg.nodeId, s.cfg.telemetryMsgId, s.cfg.telemetryCmd] ++
          (wire s.cfg 3 (s.timeTicks.toNat % 2 ^ 24) ++ wire s.cfg 2 mask.toNat ++ values))])

/-- R288, R289: the table of contribution by mode, for a memory at rest and pairwise distinct mode codes. That no
value never contributes is decision D25 of the spec, that another code never does D14. -/
def Obligations.ContributionTable : Prop :=
  ∀ (s : State) (i : Fin 16), s.cfg.mode.all.Nodup →
    (valueAtRest s s.ch[i].descriptor = none → contributesAtRest s i = false) ∧
    (∀ v : List Byte, valueAtRest s s.ch[i].descriptor = some v →
      (s.ch[i].updateMode = s.cfg.mode.off → contributesAtRest s i = false) ∧
      (s.ch[i].updateMode = s.cfg.mode.onChange →
        contributesAtRest s i = decide (v ≠ s.ch[i].previousValue.toList.take s.ch[i].sizeBytes.toNat)) ∧
      (s.ch[i].updateMode = s.cfg.mode.periodic →
        contributesAtRest s i =
          decide (s.cfg.slowIntervalTicks.toNat ≤ (s.timeTicks.toNat + 2 ^ 32 - s.lastSlowUpdate.toNat) % 2 ^ 32)) ∧
      (s.ch[i].updateMode = s.cfg.mode.sendOnce → contributesAtRest s i = s.tracingOnce) ∧
      (s.ch[i].updateMode = s.cfg.mode.sendAll → contributesAtRest s i = true) ∧
      (s.ch[i].updateMode ∉ s.cfg.mode.all → contributesAtRest s i = false))

/-- R95, R291, R292 (as an instruction of its own the emission is the model's choice, log 8): a telemetry message with
the given contents is one frame; a zero mask suppresses it; one longer than 124 parameter bytes is refused. The
message's header is decision D26 of the spec, the refusal D27. -/
def Obligations.TelemetryEmission : Prop :=
  ∀ (timestamp : BitVec 24) (mask : BitVec 16) (values : List Byte) (s : State),
    exec (.tlmTelemetry timestamp 0x0000#16 values) s = .next s ∧
    (mask ≠ 0x0000#16 → 5 + values.length ≤ 124 →
      exec (.tlmTelemetry timestamp mask values) s = .next { s with
        tx := s.tx ++ [frameEncode s.cfg ([s.cfg.nodeId, s.cfg.telemetryMsgId, s.cfg.telemetryCmd] ++
          (wire s.cfg 3 timestamp.toNat ++ wire s.cfg 2 mask.toNat ++ values))] }) ∧
    (mask ≠ 0x0000#16 → 124 < 5 + values.length → exec (.tlmTelemetry timestamp mask values) s = .refused .bodyTooLong)

/-- R296: a receiver that walks the mask from bit 15 down to 0 with the right sizes gets each contributing channel's bytes
back. The order is the receiver's parameter (R369, U17, log 27); this is the target's. -/
def Obligations.ReceiverReadsBack : Prop :=
  ∀ (c : Config) (sizes : Vector Nat 16) (timestamp : BitVec 24) (mask : BitVec 16) (value : Fin 16 → List Byte),
    (∀ i : Fin 16, mask.getLsbD i.val = true → (value i).length = sizes[i]) →
    splitTelemetry c channelOrder sizes (wire c 3 timestamp.toNat ++ wire c 2 mask.toNat ++
        (channelOrder.filter fun i => mask.getLsbD i.val).flatMap value) =
      some ⟨timestamp, mask, (channelOrder.filter fun i => mask.getLsbD i.val).map fun i => (i, value i)⟩

/-! ## Reset (70_reset_and_hazards.md, 10_state.md) -/

/-- R350: what RST writes, and that it writes nothing else. The values but the zeroed slots are decision D36; what it
leaves of the model's own fields is log 19. -/
def Obligations.ResetOperation : Prop :=
  ∀ s : State, exec .rst s = .next { s with
    crc := 0x00#8, escPending := false
    pushIndex := 0, parseIndex := 0, frameStart := 0, startValid := false, overrun := false
    ch := Vector.replicate 16 {
      address := s.cfg.null, dereferenceDepth := 0x00#8, sizeBytes := 0x00#8
      previousValue := Vector.replicate 8 0x00#8, updateMode := s.cfg.mode.off, offset := 0#32, control := 0x00#8 }
    decimation := 1#32, timeTicks := 0#32, tracingOn := false, tracingOnce := false
    lastFastUpdate := 0#32, lastSlowUpdate := 0#32
    dbgPush := 0, dbgPop := 0 }

/-- R48, R350: from any state, after RST, RB.NEXT returns nothing, TM.POLL changes nothing, and a Decimation query is
answered with 1. The reset values are decision D36 of the spec. The reply's header is D18, its one byte D22. -/
def Obligations.ResetIsIdle : Prop :=
  ∀ (s : State) (h : Header), IsFor s h →
    ∃ t : State, exec .rst s = .next t ∧
      exec .rbNext t = .next { t with result := .message none } ∧
      exec .tmPoll t = .next t ∧
      exec (.dDecimationQuery h) t = .next { t with
        tx := t.tx ++ [frameEncode t.cfg [t.cfg.nodeId, h.msgId, 0x44#8, 0x01#8]] }

/-- R97: the reserved select changes no state and returns no result. The select is decision D32 of the spec. -/
def Obligations.ReservedSelectChangesNothing : Prop := ∀ s : State, exec .op0Reserved s = .next s

/-- R47, R20: the registers of State.reset (the values but the zeroed slots are decision D36; the parameters are log 1). It
is a good state and the ring invariants hold in it. -/
def Obligations.PowerOnState : Prop :=
  (State.reset.crc = 0x00#8 ∧ State.reset.escPending = false ∧
    State.reset.pushIndex = 0 ∧ State.reset.parseIndex = 0 ∧ State.reset.frameStart = 0 ∧
    State.reset.startValid = false ∧ State.reset.overrun = false ∧
    (∀ i : Fin 16, State.reset.ch[i] = ⟨State.reset.cfg.null, 0, 0, Vector.replicate 8 0, State.reset.cfg.mode.off, 0, 0⟩) ∧
    State.reset.decimation = 1 ∧ State.reset.timeTicks = 0 ∧ State.reset.tracingOn = false ∧
    State.reset.tracingOnce = false ∧ State.reset.lastFastUpdate = 0 ∧ State.reset.lastSlowUpdate = 0 ∧
    State.reset.dbgPush = 0 ∧ State.reset.dbgPop = 0) ∧
  State.reset.Inv ∧ RingInv State.reset

/-! ## The machine as a whole -/

/-- Every step keeps the good states: legal parameters; ring, text and memory indices in range; the three sparse
memories in canonical form; depths, sizes and addresses of the slots (R32 to R34); decimation in 1..255 (R39). That a
size above 8 is ignored is decision D16 of the spec, decimation's reset value D22. -/
def Obligations.GoodStatesKept : Prop :=
  ∀ s t : State, s.Inv → step s = .next t → t.Inv

/-- The "written by" column of R20, for every operation that completes: what an operation not named leaves unchanged.
The registers other agents also write (timeTicks, target memory, the producer's side of the ring) with nothing else
moving. No operation writes target memory at NULL (R60, R202). That NULL is never written rests on decision D13 of the
spec. That overrun once set stays set is decision D9 of the spec (R28), that FRM.* and RB.NEXT leave crc and
escPending D32 (R21, R23), that WriteRegister and QueryRegister leave the slots D34 (R239), that TM.POLL writes the
interval bases D24 (R284). -/
def Obligations.WritersOfEachRegister : Prop :=
  ∀ (i : Instr) (s t : State), exec i s = .next t →
    t.cfg = s.cfg ∧
    (i ≠ .crcClr → (∀ b, i ≠ .crcUpd b) → i ≠ .rst → t.crc = s.crc) ∧
    (i ≠ .crcClr → (∀ w, i ≠ .escGet w) → i ≠ .rst → t.escPending = s.escPending) ∧
    (i ≠ .rbNext → i ≠ .rst →
      t.parseIndex = s.parseIndex ∧ t.frameStart = s.frameStart ∧ t.startValid = s.startValid) ∧
    (i ≠ .rst → s.overrun = true → t.overrun = true) ∧
    (commandOf i ≠ some 0x44#8 → i ≠ .rst → t.decimation = s.decimation) ∧
    (commandOf i ≠ some 0x52#8 → i ≠ .rst → t.tracingOn = s.tracingOn) ∧
    (commandOf i ≠ some 0x52#8 → commandOf i ≠ some 0x43#8 → i ≠ .tmPoll → i ≠ .rst → t.tracingOnce = s.tracingOnce) ∧
    (commandOf i ≠ some 0x54#8 → i ≠ .tmPoll → i ≠ .rst →
      t.lastFastUpdate = s.lastFastUpdate ∧ t.lastSlowUpdate = s.lastSlowUpdate) ∧
    (commandOf i ≠ some 0x53#8 → t.dbgBuf = s.dbgBuf) ∧
    (commandOf i ≠ some 0x53#8 → i ≠ .rst → t.dbgPush = s.dbgPush) ∧
    (commandOf i ≠ some 0x43#8 → i ≠ .rst → ∀ j : Fin 16,
      t.ch[j] = { s.ch[j] with previousValue := t.ch[j].previousValue } ∧
      (i ≠ .tmPoll → i ≠ .chRd (.slot j) → t.ch[j] = s.ch[j])) ∧
    (commandOf i = none → i ≠ .tmPoll → (∀ ts mask values, i ≠ .tlmTelemetry ts mask values) → t.tx = s.tx) ∧
    (Quiet s →
      ((∀ bytes, i ≠ .rbPush bytes) →
        t.buf = s.buf ∧ t.pushing = s.pushing ∧ t.overrun = (if i = .rst then false else s.overrun) ∧
        (i ≠ .rst → t.pushIndex = s.pushIndex)) ∧
      (i ≠ .tmTick → commandOf i ≠ some 0x54#8 → i ≠ .rst → t.timeTicks = s.timeTicks) ∧
      (commandOf i ≠ some 0x57#8 → (∀ d v, i ≠ .chWr d v) → t.mem = s.mem) ∧
      (∀ a : Address, wrap s.cfg a = s.cfg.null → t.readByte a = s.readByte a) ∧ t.nullByte = s.nullByte ∧
      (i ≠ .rst → t.dbgPop = s.dbgPop) ∧ t.textOut = s.textOut ∧ t.resolver = s.resolver ∧ Quiet t)

/-- R310, R312, R372: nothing faults. Under legal parameters and with operands in range (or on a registry slot, the
form only the telemetry scan has, R31), an operation completes unless it is a ConfigChannel of seven bytes or a poll
with more than 119 value bytes configured; nothing but these two is refused. The refusal of seven bytes is decision
D21 of the spec, that of a poll D27. -/
def Obligations.OnlyTwoRefusals : Prop :=
  (∀ (i : Instr) (s : State) (r : Fault), exec i s ≠ .fault r) ∧
  (∀ (i : Instr) (s : State), i.wf = true ∨ NamesSlot i → s.cfg.Valid → ¬IsConfigOf7 i → (i = .tmPoll → totalSize s ≤ 119) →
    ∃ t : State, exec i s = .next t) ∧
  (∀ (i : Instr) (s : State) (r : Refusal), i.wf = true ∨ NamesSlot i → s.cfg.Valid → exec i s = .refused r →
    (r = .cfgLen7 ∧ IsConfigOf7 i) ∨ (r = .bodyTooLong ∧ i = .tmPoll ∧ 119 < totalSize s))

/-- The decoder reads back what the encoder wrote, for every well-formed instruction (the operand layout is log 6, log 7). -/
def Obligations.DecodeOfEncode : Prop := ∀ i : Instr, i.wf = true → decode (encode i) = .ok i

/-- What the decoder accepts is well-formed and is the encoding of what it answers, so no two requests mean the same; no
request addresses a registry slot (R31). -/
def Obligations.EncodeOfDecode : Prop :=
  ∀ (bytes : List Byte) (i : Instr), decode bytes = .ok i → i.wf = true ∧ encode i = bytes ∧ ¬NamesSlot i

/-- R82, R85: some selects of the tables and the rows they name. The port select codes are decision D32 of the spec.
-/
def Obligations.TableWordsDecode : Prop :=
  decodeTableWord 8 0x0 = some .op0Reserved ∧ decodeTableWord 8 0x1 = some .crcClr ∧
  decodeTableWord 8 0x3 = some .crcChk ∧ decodeTableWord 8 0x9 = some .rbNext ∧
  decodeTableWord 8 0xD = some .tmTick ∧ decodeTableWord 8 0xE = some .tmPoll ∧ decodeTableWord 8 0xF = some .rst ∧
  decodeTableWord 8 0x56 = some (.vGetVersion ⟨0, 0⟩ []) ∧ decodeTableWord 8 0x54 = some (.tResetTime ⟨0, 0⟩ []) ∧
  decode [0x02#8, 0xA5#8] = .ok (.crcUpd 0xA5#8) ∧
  decode [0x0C#8, 0x07#8, 0x01#8, 0x44#8, 0x05#8] = .ok (.dspMsg ⟨0x07#8, 0x01#8, 0x44#8, [0x05#8]⟩)

/-- A step runs the decoded request: at the queue's head after the outside events have landed (log 9), and where
withFetchWord puts it; a request that decodes to nothing is refused by name (log 22). The operation port is decision
D32 of the spec. -/
def Obligations.StepRunsDecodedRequest : Prop :=
  (∀ (s : State) (bytes : List Byte) (waiting : List (List Byte)), s.land.requests = bytes :: waiting →
    (∀ i : Instr, decode bytes = .ok i → step s = exec i { s.land with requests := waiting }) ∧
    (∀ e : DecodeError, decode bytes = .error e → step s = .refused (.malformedRequest e))) ∧
  (∀ (s : State) (nbits w : Nat) (i : Instr), decodeTableWord nbits w = some i →
    step (s.withFetchWord nbits w) = exec i s.land)

/-- R264 (the order of messages and poll is decision D37, requests before the loop are log 9): with no request waiting, the
machine runs the main loop: RB.NEXT, then DSP.MSG of the message it returned, as its row, and RB.NEXT again, or else
TM.POLL. -/
def Obligations.MainLoopOrder : Prop :=
  ∀ s : State, s.land.requests = [] →
    (s.land.loop = .drain → ∀ t : State, exec .rbNext s.land = .next t →
      (∀ m : Message, t.result = .message (some m) → step s = .next { t with loop := .dispatch m }) ∧
      (t.result = .message none → step s = .next { t with loop := .poll })) ∧
    (∀ m : Message, s.land.loop = .dispatch m → step s = exec (.dspMsg m) { s.land with loop := .drain }) ∧
    (s.land.loop = .poll → step s = exec .tmPoll { s.land with loop := .drain })

/-! ## A push that the consumer interrupts (42_frame_assembler.md section 2) -/

/-- R172, "Consumer steps may interleave between two iterations" (that a push waits in `pushing` and a consumer's turn
is planned data is the model's choice, log 12). A refused first byte ends the push and the rest is lost. Where the
consumer has the boundary after an accepted byte the operation ends there, and the rest waits. The waiting push goes
on at any boundary, iteration by iteration under the guard of that moment; the next RB.PUSH, with nothing else moving,
finishes it as an operation of its own before its own bytes. That each byte is a step of its own is decision D12 of
the spec (R66), the unlatched guard D8. -/
def Obligations.PushInterleaves : Prop :=
  (∀ (b : Byte) (rest : List Byte) (s : State), s.pushing = [] → rest ≠ [] →
    (pushRefused s = true →
      exec (.rbPush (b :: rest)) s = .next { s with overrun := true, drops := s.drops ++ [.overrun] }) ∧
    (pushRefused s = false → (∃ events later, s.arrivals = events :: later ∧ .consumerTurn ∈ events) →
      exec (.rbPush (b :: rest)) s = .next { s with
        buf := Memory.store s.buf s.pushIndex b
        pushIndex := (s.pushIndex + 1) % 2 ^ s.cfg.rbK
        pushing := [rest] })) ∧
  (∀ (b : Byte) (rest : List Byte) (later : List (List Byte)) (s : State), s.pushing = (b :: rest) :: later →
    (pushRefused s = true →
      s.apply .pushStep = { s with overrun := true, drops := s.drops ++ [.overrun], pushing := later }) ∧
    (pushRefused s = false →
      s.apply .pushStep = { s with
        buf := Memory.store s.buf s.pushIndex b
        pushIndex := (s.pushIndex + 1) % 2 ^ s.cfg.rbK
        pushing := if rest = [] then later else rest :: later })) ∧
  (∀ (rest bytes : List Byte) (s : State), Quiet s → s.pushing = [] →
    exec (.rbPush bytes) { s with pushing := [rest] } = execAll [.rbPush rest, .rbPush bytes] s)
end

