-- ==== Sys2Proof/Laws/Memory.lean ====
section
/-! SUPPORT. The laws of the sparse memories: a read after a write, and the canonical form. -/

namespace Sys2Proof.Machine

@[simp] theorem Memory.find_nil (a : Nat) : Memory.find [] a = none := rfl

theorem Memory.find_cons (k : Nat) (b : Byte) (rest : Memory) (a : Nat) :
    Memory.find ((k, b) :: rest) a = if a = k then some b else Memory.find rest a := rfl

theorem Memory.store_cons (k : Nat) (b : Byte) (rest : Memory) (a : Nat) (v : Byte) :
    Memory.store ((k, b) :: rest) a v =
      if a < k then (a, v) :: (k, b) :: rest
      else if a = k then (a, v) :: rest
      else (k, b) :: Memory.store rest a v := rfl

/-- Reading the stored key gives the stored byte. -/
@[simp] theorem Memory.find_store_same (m : Memory) (a : Nat) (v : Byte) :
    Memory.find (Memory.store m a v) a = some v := by
  induction m with
  | nil => simp [Memory.store, Memory.find]
  | cons x rest ih =>
    obtain ⟨k, b⟩ := x
    rw [Memory.store_cons]
    split
    · simp [Memory.find_cons]
    · split
      · simp [Memory.find_cons]
      · rw [Memory.find_cons, if_neg ‹_›, ih]

/-- Every other key reads as before. -/
theorem Memory.find_store_other (m : Memory) {a a' : Nat} (h : a' ≠ a) (v : Byte) :
    Memory.find (Memory.store m a v) a' = Memory.find m a' := by
  induction m with
  | nil => simp [Memory.store, Memory.find, h]
  | cons x rest ih =>
    obtain ⟨k, b⟩ := x
    rw [Memory.store_cons]
    split
    · rw [Memory.find_cons, if_neg h]
    · split
      · next heq => subst heq; rw [Memory.find_cons, if_neg h, Memory.find_cons, if_neg h]
      · rw [Memory.find_cons, ih, Memory.find_cons]

theorem Memory.find_store (m : Memory) (a a' : Nat) (v : Byte) :
    Memory.find (Memory.store m a v) a' = if a' = a then some v else Memory.find m a' := by
  split
  · next h => subst h; exact Memory.find_store_same m a' v
  · next h => exact Memory.find_store_other m h v

/-- A stored key is the only new one. -/
theorem Memory.mem_store {m : Memory} {a : Nat} {v : Byte} {x : Host.Cell} (h : x ∈ Memory.store m a v) :
    x = (a, v) ∨ x ∈ m := by
  induction m with
  | nil => simpa [Memory.store] using h
  | cons y rest ih =>
    obtain ⟨k, b⟩ := y
    rw [Memory.store_cons] at h
    split at h
    · simpa using h
    · split at h
      · rcases List.mem_cons.1 h with h | h
        · exact .inl h
        · exact .inr (List.mem_cons_of_mem _ h)
      · rcases List.mem_cons.1 h with h | h
        · exact .inr (h ▸ List.mem_cons_self)
        · exact (ih h).imp id (List.mem_cons_of_mem _)

/-- A store keeps the canonical form. -/
theorem Memory.store_wf {m : Memory} (h : Memory.wf m) (a : Nat) (v : Byte) : Memory.wf (Memory.store m a v) := by
  induction m with
  | nil => simp [Memory.store]
  | cons y rest ih =>
    obtain ⟨k, b⟩ := y
    obtain ⟨hk, hr⟩ := List.pairwise_cons.1 h
    rw [Memory.store_cons]
    split
    · next hak =>
      refine List.pairwise_cons.2 ⟨fun x hx => ?_, h⟩
      rcases List.mem_cons.1 hx with rfl | hx
      · exact hak
      · exact Nat.lt_trans hak (hk x hx)
    · split
      · next heq => subst heq; exact List.pairwise_cons.2 ⟨hk, hr⟩
      · refine List.pairwise_cons.2 ⟨fun x hx => ?_, ih hr⟩
        rcases Memory.mem_store hx with rfl | hx
        · simp only; omega
        · exact hk x hx

/-- A store within a bound keeps the bound. -/
theorem Memory.store_keys {m : Memory} {n : Nat} (h : ∀ x ∈ m, x.1 < n) {a : Nat} (ha : a < n) (v : Byte) :
    ∀ x ∈ Memory.store m a v, x.1 < n := by
  intro x hx
  rcases Memory.mem_store hx with rfl | hx
  · exact ha
  · exact h x hx

theorem Config.ringCapacity_pos (c : Config) : 0 < c.ringCapacity := Nat.pow_pos (by decide)

theorem Config.textCapacity_pos (c : Config) : 0 < c.textCapacity := Nat.pow_pos (by decide)

theorem Config.addressSpace_pos (c : Config) : 0 < c.addressSpace := Nat.pow_pos (by decide)

theorem wrap_lt (c : Config) (a : Nat) : wrap c a < c.addressSpace := Nat.mod_lt _ (Config.addressSpace_pos c)

@[simp] theorem wrap_wrap (c : Config) (a : Nat) : wrap c (wrap c a) = wrap c a := Nat.mod_mod _ _

theorem wrap_add_wrap (c : Config) (a j : Nat) : wrap c (wrap c a + j) = wrap c (a + j) := Nat.mod_add_mod _ _ _

theorem ringNext_lt (c : Config) (j : Nat) : ringNext c j < c.ringCapacity := Nat.mod_lt _ (Config.ringCapacity_pos c)

theorem textNext_lt (c : Config) (j : Nat) : textNext c j < c.textCapacity := Nat.mod_lt _ (Config.textCapacity_pos c)

/-- Reading back one written byte of target memory. -/
theorem State.readByte_writeByte (s : State) (a a' : Address) (b : Byte) :
    (s.writeByte a b).readByte a' = if wrap s.cfg a' = wrap s.cfg a then b else s.readByte a' := by
  unfold State.readByte State.writeByte
  simp only [Memory.find_store]
  split <;> rfl

end Sys2Proof.Machine
end

