-- ==== Sys2Proof/Laws/State.lean ====
section
/-! SUPPORT. One lemma per field per named update of State, all true by unfolding. -/

namespace Sys2Proof.Machine

variable (s : State)

/-! ### State.drop -/

@[simp] theorem State.drop_cfg (r : Drop) : (s.drop r).cfg = s.cfg := rfl
@[simp] theorem State.drop_crc (r : Drop) : (s.drop r).crc = s.crc := rfl
@[simp] theorem State.drop_escPending (r : Drop) : (s.drop r).escPending = s.escPending := rfl
@[simp] theorem State.drop_buf (r : Drop) : (s.drop r).buf = s.buf := rfl
@[simp] theorem State.drop_pushIndex (r : Drop) : (s.drop r).pushIndex = s.pushIndex := rfl
@[simp] theorem State.drop_parseIndex (r : Drop) : (s.drop r).parseIndex = s.parseIndex := rfl
@[simp] theorem State.drop_frameStart (r : Drop) : (s.drop r).frameStart = s.frameStart := rfl
@[simp] theorem State.drop_startValid (r : Drop) : (s.drop r).startValid = s.startValid := rfl
@[simp] theorem State.drop_overrun (r : Drop) : (s.drop r).overrun = s.overrun := rfl
@[simp] theorem State.drop_ch (r : Drop) : (s.drop r).ch = s.ch := rfl
@[simp] theorem State.drop_decimation (r : Drop) : (s.drop r).decimation = s.decimation := rfl
@[simp] theorem State.drop_timeTicks (r : Drop) : (s.drop r).timeTicks = s.timeTicks := rfl
@[simp] theorem State.drop_tracingOn (r : Drop) : (s.drop r).tracingOn = s.tracingOn := rfl
@[simp] theorem State.drop_tracingOnce (r : Drop) : (s.drop r).tracingOnce = s.tracingOnce := rfl
@[simp] theorem State.drop_lastFastUpdate (r : Drop) : (s.drop r).lastFastUpdate = s.lastFastUpdate := rfl
@[simp] theorem State.drop_lastSlowUpdate (r : Drop) : (s.drop r).lastSlowUpdate = s.lastSlowUpdate := rfl
@[simp] theorem State.drop_dbgBuf (r : Drop) : (s.drop r).dbgBuf = s.dbgBuf := rfl
@[simp] theorem State.drop_dbgPush (r : Drop) : (s.drop r).dbgPush = s.dbgPush := rfl
@[simp] theorem State.drop_dbgPop (r : Drop) : (s.drop r).dbgPop = s.dbgPop := rfl
@[simp] theorem State.drop_mem (r : Drop) : (s.drop r).mem = s.mem := rfl
@[simp] theorem State.drop_resolver (r : Drop) : (s.drop r).resolver = s.resolver := rfl
@[simp] theorem State.drop_nullByte (r : Drop) : (s.drop r).nullByte = s.nullByte := rfl
@[simp] theorem State.drop_requests (r : Drop) : (s.drop r).requests = s.requests := rfl
@[simp] theorem State.drop_arrivals (r : Drop) : (s.drop r).arrivals = s.arrivals := rfl
@[simp] theorem State.drop_loop (r : Drop) : (s.drop r).loop = s.loop := rfl
@[simp] theorem State.drop_pushing (r : Drop) : (s.drop r).pushing = s.pushing := rfl
@[simp] theorem State.drop_result (r : Drop) : (s.drop r).result = s.result := rfl
@[simp] theorem State.drop_tx (r : Drop) : (s.drop r).tx = s.tx := rfl
@[simp] theorem State.drop_textOut (r : Drop) : (s.drop r).textOut = s.textOut := rfl
@[simp] theorem State.drop_drops (r : Drop) : (s.drop r).drops = s.drops ++ [r] := rfl

/-! ### State.withResult -/

@[simp] theorem State.withResult_cfg (r : PortResult) : (s.withResult r).cfg = s.cfg := rfl
@[simp] theorem State.withResult_crc (r : PortResult) : (s.withResult r).crc = s.crc := rfl
@[simp] theorem State.withResult_escPending (r : PortResult) : (s.withResult r).escPending = s.escPending := rfl
@[simp] theorem State.withResult_buf (r : PortResult) : (s.withResult r).buf = s.buf := rfl
@[simp] theorem State.withResult_pushIndex (r : PortResult) : (s.withResult r).pushIndex = s.pushIndex := rfl
@[simp] theorem State.withResult_parseIndex (r : PortResult) : (s.withResult r).parseIndex = s.parseIndex := rfl
@[simp] theorem State.withResult_frameStart (r : PortResult) : (s.withResult r).frameStart = s.frameStart := rfl
@[simp] theorem State.withResult_startValid (r : PortResult) : (s.withResult r).startValid = s.startValid := rfl
@[simp] theorem State.withResult_overrun (r : PortResult) : (s.withResult r).overrun = s.overrun := rfl
@[simp] theorem State.withResult_ch (r : PortResult) : (s.withResult r).ch = s.ch := rfl
@[simp] theorem State.withResult_decimation (r : PortResult) : (s.withResult r).decimation = s.decimation := rfl
@[simp] theorem State.withResult_timeTicks (r : PortResult) : (s.withResult r).timeTicks = s.timeTicks := rfl
@[simp] theorem State.withResult_tracingOn (r : PortResult) : (s.withResult r).tracingOn = s.tracingOn := rfl
@[simp] theorem State.withResult_tracingOnce (r : PortResult) : (s.withResult r).tracingOnce = s.tracingOnce := rfl
@[simp] theorem State.withResult_lastFastUpdate (r : PortResult) : (s.withResult r).lastFastUpdate = s.lastFastUpdate := rfl
@[simp] theorem State.withResult_lastSlowUpdate (r : PortResult) : (s.withResult r).lastSlowUpdate = s.lastSlowUpdate := rfl
@[simp] theorem State.withResult_dbgBuf (r : PortResult) : (s.withResult r).dbgBuf = s.dbgBuf := rfl
@[simp] theorem State.withResult_dbgPush (r : PortResult) : (s.withResult r).dbgPush = s.dbgPush := rfl
@[simp] theorem State.withResult_dbgPop (r : PortResult) : (s.withResult r).dbgPop = s.dbgPop := rfl
@[simp] theorem State.withResult_mem (r : PortResult) : (s.withResult r).mem = s.mem := rfl
@[simp] theorem State.withResult_resolver (r : PortResult) : (s.withResult r).resolver = s.resolver := rfl
@[simp] theorem State.withResult_nullByte (r : PortResult) : (s.withResult r).nullByte = s.nullByte := rfl
@[simp] theorem State.withResult_requests (r : PortResult) : (s.withResult r).requests = s.requests := rfl
@[simp] theorem State.withResult_arrivals (r : PortResult) : (s.withResult r).arrivals = s.arrivals := rfl
@[simp] theorem State.withResult_loop (r : PortResult) : (s.withResult r).loop = s.loop := rfl
@[simp] theorem State.withResult_pushing (r : PortResult) : (s.withResult r).pushing = s.pushing := rfl
@[simp] theorem State.withResult_result (r : PortResult) : (s.withResult r).result = r := rfl
@[simp] theorem State.withResult_tx (r : PortResult) : (s.withResult r).tx = s.tx := rfl
@[simp] theorem State.withResult_textOut (r : PortResult) : (s.withResult r).textOut = s.textOut := rfl
@[simp] theorem State.withResult_drops (r : PortResult) : (s.withResult r).drops = s.drops := rfl

/-! ### State.setChannel -/

@[simp] theorem State.setChannel_cfg (i : Fin 16) (c : Channel) : (s.setChannel i c).cfg = s.cfg := rfl
@[simp] theorem State.setChannel_crc (i : Fin 16) (c : Channel) : (s.setChannel i c).crc = s.crc := rfl
@[simp] theorem State.setChannel_escPending (i : Fin 16) (c : Channel) : (s.setChannel i c).escPending = s.escPending := rfl
@[simp] theorem State.setChannel_buf (i : Fin 16) (c : Channel) : (s.setChannel i c).buf = s.buf := rfl
@[simp] theorem State.setChannel_pushIndex (i : Fin 16) (c : Channel) : (s.setChannel i c).pushIndex = s.pushIndex := rfl
@[simp] theorem State.setChannel_parseIndex (i : Fin 16) (c : Channel) : (s.setChannel i c).parseIndex = s.parseIndex := rfl
@[simp] theorem State.setChannel_frameStart (i : Fin 16) (c : Channel) : (s.setChannel i c).frameStart = s.frameStart := rfl
@[simp] theorem State.setChannel_startValid (i : Fin 16) (c : Channel) : (s.setChannel i c).startValid = s.startValid := rfl
@[simp] theorem State.setChannel_overrun (i : Fin 16) (c : Channel) : (s.setChannel i c).overrun = s.overrun := rfl
@[simp] theorem State.setChannel_ch (i : Fin 16) (c : Channel) : (s.setChannel i c).ch = s.ch.set i c := rfl
@[simp] theorem State.setChannel_decimation (i : Fin 16) (c : Channel) : (s.setChannel i c).decimation = s.decimation := rfl
@[simp] theorem State.setChannel_timeTicks (i : Fin 16) (c : Channel) : (s.setChannel i c).timeTicks = s.timeTicks := rfl
@[simp] theorem State.setChannel_tracingOn (i : Fin 16) (c : Channel) : (s.setChannel i c).tracingOn = s.tracingOn := rfl
@[simp] theorem State.setChannel_tracingOnce (i : Fin 16) (c : Channel) : (s.setChannel i c).tracingOnce = s.tracingOnce := rfl
@[simp] theorem State.setChannel_lastFastUpdate (i : Fin 16) (c : Channel) : (s.setChannel i c).lastFastUpdate = s.lastFastUpdate := rfl
@[simp] theorem State.setChannel_lastSlowUpdate (i : Fin 16) (c : Channel) : (s.setChannel i c).lastSlowUpdate = s.lastSlowUpdate := rfl
@[simp] theorem State.setChannel_dbgBuf (i : Fin 16) (c : Channel) : (s.setChannel i c).dbgBuf = s.dbgBuf := rfl
@[simp] theorem State.setChannel_dbgPush (i : Fin 16) (c : Channel) : (s.setChannel i c).dbgPush = s.dbgPush := rfl
@[simp] theorem State.setChannel_dbgPop (i : Fin 16) (c : Channel) : (s.setChannel i c).dbgPop = s.dbgPop := rfl
@[simp] theorem State.setChannel_mem (i : Fin 16) (c : Channel) : (s.setChannel i c).mem = s.mem := rfl
@[simp] theorem State.setChannel_resolver (i : Fin 16) (c : Channel) : (s.setChannel i c).resolver = s.resolver := rfl
@[simp] theorem State.setChannel_nullByte (i : Fin 16) (c : Channel) : (s.setChannel i c).nullByte = s.nullByte := rfl
@[simp] theorem State.setChannel_requests (i : Fin 16) (c : Channel) : (s.setChannel i c).requests = s.requests := rfl
@[simp] theorem State.setChannel_arrivals (i : Fin 16) (c : Channel) : (s.setChannel i c).arrivals = s.arrivals := rfl
@[simp] theorem State.setChannel_loop (i : Fin 16) (c : Channel) : (s.setChannel i c).loop = s.loop := rfl
@[simp] theorem State.setChannel_pushing (i : Fin 16) (c : Channel) : (s.setChannel i c).pushing = s.pushing := rfl
@[simp] theorem State.setChannel_result (i : Fin 16) (c : Channel) : (s.setChannel i c).result = s.result := rfl
@[simp] theorem State.setChannel_tx (i : Fin 16) (c : Channel) : (s.setChannel i c).tx = s.tx := rfl
@[simp] theorem State.setChannel_textOut (i : Fin 16) (c : Channel) : (s.setChannel i c).textOut = s.textOut := rfl
@[simp] theorem State.setChannel_drops (i : Fin 16) (c : Channel) : (s.setChannel i c).drops = s.drops := rfl

/-! ### State.refusePush -/

@[simp] theorem State.refusePush_cfg : (s.refusePush).cfg = s.cfg := rfl
@[simp] theorem State.refusePush_crc : (s.refusePush).crc = s.crc := rfl
@[simp] theorem State.refusePush_escPending : (s.refusePush).escPending = s.escPending := rfl
@[simp] theorem State.refusePush_buf : (s.refusePush).buf = s.buf := rfl
@[simp] theorem State.refusePush_pushIndex : (s.refusePush).pushIndex = s.pushIndex := rfl
@[simp] theorem State.refusePush_parseIndex : (s.refusePush).parseIndex = s.parseIndex := rfl
@[simp] theorem State.refusePush_frameStart : (s.refusePush).frameStart = s.frameStart := rfl
@[simp] theorem State.refusePush_startValid : (s.refusePush).startValid = s.startValid := rfl
@[simp] theorem State.refusePush_overrun : (s.refusePush).overrun = true := rfl
@[simp] theorem State.refusePush_ch : (s.refusePush).ch = s.ch := rfl
@[simp] theorem State.refusePush_decimation : (s.refusePush).decimation = s.decimation := rfl
@[simp] theorem State.refusePush_timeTicks : (s.refusePush).timeTicks = s.timeTicks := rfl
@[simp] theorem State.refusePush_tracingOn : (s.refusePush).tracingOn = s.tracingOn := rfl
@[simp] theorem State.refusePush_tracingOnce : (s.refusePush).tracingOnce = s.tracingOnce := rfl
@[simp] theorem State.refusePush_lastFastUpdate : (s.refusePush).lastFastUpdate = s.lastFastUpdate := rfl
@[simp] theorem State.refusePush_lastSlowUpdate : (s.refusePush).lastSlowUpdate = s.lastSlowUpdate := rfl
@[simp] theorem State.refusePush_dbgBuf : (s.refusePush).dbgBuf = s.dbgBuf := rfl
@[simp] theorem State.refusePush_dbgPush : (s.refusePush).dbgPush = s.dbgPush := rfl
@[simp] theorem State.refusePush_dbgPop : (s.refusePush).dbgPop = s.dbgPop := rfl
@[simp] theorem State.refusePush_mem : (s.refusePush).mem = s.mem := rfl
@[simp] theorem State.refusePush_resolver : (s.refusePush).resolver = s.resolver := rfl
@[simp] theorem State.refusePush_nullByte : (s.refusePush).nullByte = s.nullByte := rfl
@[simp] theorem State.refusePush_requests : (s.refusePush).requests = s.requests := rfl
@[simp] theorem State.refusePush_arrivals : (s.refusePush).arrivals = s.arrivals := rfl
@[simp] theorem State.refusePush_loop : (s.refusePush).loop = s.loop := rfl
@[simp] theorem State.refusePush_pushing : (s.refusePush).pushing = s.pushing := rfl
@[simp] theorem State.refusePush_result : (s.refusePush).result = s.result := rfl
@[simp] theorem State.refusePush_tx : (s.refusePush).tx = s.tx := rfl
@[simp] theorem State.refusePush_textOut : (s.refusePush).textOut = s.textOut := rfl
@[simp] theorem State.refusePush_drops : (s.refusePush).drops = s.drops ++ [.overrun] := rfl

/-! ### State.acceptPush -/

@[simp] theorem State.acceptPush_cfg (b : Byte) : (s.acceptPush b).cfg = s.cfg := rfl
@[simp] theorem State.acceptPush_crc (b : Byte) : (s.acceptPush b).crc = s.crc := rfl
@[simp] theorem State.acceptPush_escPending (b : Byte) : (s.acceptPush b).escPending = s.escPending := rfl
@[simp] theorem State.acceptPush_buf (b : Byte) : (s.acceptPush b).buf = Memory.store s.buf s.pushIndex b := rfl
@[simp] theorem State.acceptPush_pushIndex (b : Byte) : (s.acceptPush b).pushIndex = ringNext s.cfg s.pushIndex := rfl
@[simp] theorem State.acceptPush_parseIndex (b : Byte) : (s.acceptPush b).parseIndex = s.parseIndex := rfl
@[simp] theorem State.acceptPush_frameStart (b : Byte) : (s.acceptPush b).frameStart = s.frameStart := rfl
@[simp] theorem State.acceptPush_startValid (b : Byte) : (s.acceptPush b).startValid = s.startValid := rfl
@[simp] theorem State.acceptPush_overrun (b : Byte) : (s.acceptPush b).overrun = s.overrun := rfl
@[simp] theorem State.acceptPush_ch (b : Byte) : (s.acceptPush b).ch = s.ch := rfl
@[simp] theorem State.acceptPush_decimation (b : Byte) : (s.acceptPush b).decimation = s.decimation := rfl
@[simp] theorem State.acceptPush_timeTicks (b : Byte) : (s.acceptPush b).timeTicks = s.timeTicks := rfl
@[simp] theorem State.acceptPush_tracingOn (b : Byte) : (s.acceptPush b).tracingOn = s.tracingOn := rfl
@[simp] theorem State.acceptPush_tracingOnce (b : Byte) : (s.acceptPush b).tracingOnce = s.tracingOnce := rfl
@[simp] theorem State.acceptPush_lastFastUpdate (b : Byte) : (s.acceptPush b).lastFastUpdate = s.lastFastUpdate := rfl
@[simp] theorem State.acceptPush_lastSlowUpdate (b : Byte) : (s.acceptPush b).lastSlowUpdate = s.lastSlowUpdate := rfl
@[simp] theorem State.acceptPush_dbgBuf (b : Byte) : (s.acceptPush b).dbgBuf = s.dbgBuf := rfl
@[simp] theorem State.acceptPush_dbgPush (b : Byte) : (s.acceptPush b).dbgPush = s.dbgPush := rfl
@[simp] theorem State.acceptPush_dbgPop (b : Byte) : (s.acceptPush b).dbgPop = s.dbgPop := rfl
@[simp] theorem State.acceptPush_mem (b : Byte) : (s.acceptPush b).mem = s.mem := rfl
@[simp] theorem State.acceptPush_resolver (b : Byte) : (s.acceptPush b).resolver = s.resolver := rfl
@[simp] theorem State.acceptPush_nullByte (b : Byte) : (s.acceptPush b).nullByte = s.nullByte := rfl
@[simp] theorem State.acceptPush_requests (b : Byte) : (s.acceptPush b).requests = s.requests := rfl
@[simp] theorem State.acceptPush_arrivals (b : Byte) : (s.acceptPush b).arrivals = s.arrivals := rfl
@[simp] theorem State.acceptPush_loop (b : Byte) : (s.acceptPush b).loop = s.loop := rfl
@[simp] theorem State.acceptPush_pushing (b : Byte) : (s.acceptPush b).pushing = s.pushing := rfl
@[simp] theorem State.acceptPush_result (b : Byte) : (s.acceptPush b).result = s.result := rfl
@[simp] theorem State.acceptPush_tx (b : Byte) : (s.acceptPush b).tx = s.tx := rfl
@[simp] theorem State.acceptPush_textOut (b : Byte) : (s.acceptPush b).textOut = s.textOut := rfl
@[simp] theorem State.acceptPush_drops (b : Byte) : (s.acceptPush b).drops = s.drops := rfl

/-! ### State.withPushing -/

@[simp] theorem State.withPushing_cfg (p : List (List Byte)) : (s.withPushing p).cfg = s.cfg := rfl
@[simp] theorem State.withPushing_crc (p : List (List Byte)) : (s.withPushing p).crc = s.crc := rfl
@[simp] theorem State.withPushing_escPending (p : List (List Byte)) : (s.withPushing p).escPending = s.escPending := rfl
@[simp] theorem State.withPushing_buf (p : List (List Byte)) : (s.withPushing p).buf = s.buf := rfl
@[simp] theorem State.withPushing_pushIndex (p : List (List Byte)) : (s.withPushing p).pushIndex = s.pushIndex := rfl
@[simp] theorem State.withPushing_parseIndex (p : List (List Byte)) : (s.withPushing p).parseIndex = s.parseIndex := rfl
@[simp] theorem State.withPushing_frameStart (p : List (List Byte)) : (s.withPushing p).frameStart = s.frameStart := rfl
@[simp] theorem State.withPushing_startValid (p : List (List Byte)) : (s.withPushing p).startValid = s.startValid := rfl
@[simp] theorem State.withPushing_overrun (p : List (List Byte)) : (s.withPushing p).overrun = s.overrun := rfl
@[simp] theorem State.withPushing_ch (p : List (List Byte)) : (s.withPushing p).ch = s.ch := rfl
@[simp] theorem State.withPushing_decimation (p : List (List Byte)) : (s.withPushing p).decimation = s.decimation := rfl
@[simp] theorem State.withPushing_timeTicks (p : List (List Byte)) : (s.withPushing p).timeTicks = s.timeTicks := rfl
@[simp] theorem State.withPushing_tracingOn (p : List (List Byte)) : (s.withPushing p).tracingOn = s.tracingOn := rfl
@[simp] theorem State.withPushing_tracingOnce (p : List (List Byte)) : (s.withPushing p).tracingOnce = s.tracingOnce := rfl
@[simp] theorem State.withPushing_lastFastUpdate (p : List (List Byte)) : (s.withPushing p).lastFastUpdate = s.lastFastUpdate := rfl
@[simp] theorem State.withPushing_lastSlowUpdate (p : List (List Byte)) : (s.withPushing p).lastSlowUpdate = s.lastSlowUpdate := rfl
@[simp] theorem State.withPushing_dbgBuf (p : List (List Byte)) : (s.withPushing p).dbgBuf = s.dbgBuf := rfl
@[simp] theorem State.withPushing_dbgPush (p : List (List Byte)) : (s.withPushing p).dbgPush = s.dbgPush := rfl
@[simp] theorem State.withPushing_dbgPop (p : List (List Byte)) : (s.withPushing p).dbgPop = s.dbgPop := rfl
@[simp] theorem State.withPushing_mem (p : List (List Byte)) : (s.withPushing p).mem = s.mem := rfl
@[simp] theorem State.withPushing_resolver (p : List (List Byte)) : (s.withPushing p).resolver = s.resolver := rfl
@[simp] theorem State.withPushing_nullByte (p : List (List Byte)) : (s.withPushing p).nullByte = s.nullByte := rfl
@[simp] theorem State.withPushing_requests (p : List (List Byte)) : (s.withPushing p).requests = s.requests := rfl
@[simp] theorem State.withPushing_arrivals (p : List (List Byte)) : (s.withPushing p).arrivals = s.arrivals := rfl
@[simp] theorem State.withPushing_loop (p : List (List Byte)) : (s.withPushing p).loop = s.loop := rfl
@[simp] theorem State.withPushing_pushing (p : List (List Byte)) : (s.withPushing p).pushing = p := rfl
@[simp] theorem State.withPushing_result (p : List (List Byte)) : (s.withPushing p).result = s.result := rfl
@[simp] theorem State.withPushing_tx (p : List (List Byte)) : (s.withPushing p).tx = s.tx := rfl
@[simp] theorem State.withPushing_textOut (p : List (List Byte)) : (s.withPushing p).textOut = s.textOut := rfl
@[simp] theorem State.withPushing_drops (p : List (List Byte)) : (s.withPushing p).drops = s.drops := rfl

/-! ### State.beginPush -/

@[simp] theorem State.beginPush_cfg (bytes : List Byte) : (s.beginPush bytes).cfg = s.cfg := rfl
@[simp] theorem State.beginPush_crc (bytes : List Byte) : (s.beginPush bytes).crc = s.crc := rfl
@[simp] theorem State.beginPush_escPending (bytes : List Byte) : (s.beginPush bytes).escPending = s.escPending := rfl
@[simp] theorem State.beginPush_buf (bytes : List Byte) : (s.beginPush bytes).buf = s.buf := rfl
@[simp] theorem State.beginPush_pushIndex (bytes : List Byte) : (s.beginPush bytes).pushIndex = s.pushIndex := rfl
@[simp] theorem State.beginPush_parseIndex (bytes : List Byte) : (s.beginPush bytes).parseIndex = s.parseIndex := rfl
@[simp] theorem State.beginPush_frameStart (bytes : List Byte) : (s.beginPush bytes).frameStart = s.frameStart := rfl
@[simp] theorem State.beginPush_startValid (bytes : List Byte) : (s.beginPush bytes).startValid = s.startValid := rfl
@[simp] theorem State.beginPush_overrun (bytes : List Byte) : (s.beginPush bytes).overrun = s.overrun := rfl
@[simp] theorem State.beginPush_ch (bytes : List Byte) : (s.beginPush bytes).ch = s.ch := rfl
@[simp] theorem State.beginPush_decimation (bytes : List Byte) : (s.beginPush bytes).decimation = s.decimation := rfl
@[simp] theorem State.beginPush_timeTicks (bytes : List Byte) : (s.beginPush bytes).timeTicks = s.timeTicks := rfl
@[simp] theorem State.beginPush_tracingOn (bytes : List Byte) : (s.beginPush bytes).tracingOn = s.tracingOn := rfl
@[simp] theorem State.beginPush_tracingOnce (bytes : List Byte) : (s.beginPush bytes).tracingOnce = s.tracingOnce := rfl
@[simp] theorem State.beginPush_lastFastUpdate (bytes : List Byte) : (s.beginPush bytes).lastFastUpdate = s.lastFastUpdate := rfl
@[simp] theorem State.beginPush_lastSlowUpdate (bytes : List Byte) : (s.beginPush bytes).lastSlowUpdate = s.lastSlowUpdate := rfl
@[simp] theorem State.beginPush_dbgBuf (bytes : List Byte) : (s.beginPush bytes).dbgBuf = s.dbgBuf := rfl
@[simp] theorem State.beginPush_dbgPush (bytes : List Byte) : (s.beginPush bytes).dbgPush = s.dbgPush := rfl
@[simp] theorem State.beginPush_dbgPop (bytes : List Byte) : (s.beginPush bytes).dbgPop = s.dbgPop := rfl
@[simp] theorem State.beginPush_mem (bytes : List Byte) : (s.beginPush bytes).mem = s.mem := rfl
@[simp] theorem State.beginPush_resolver (bytes : List Byte) : (s.beginPush bytes).resolver = s.resolver := rfl
@[simp] theorem State.beginPush_nullByte (bytes : List Byte) : (s.beginPush bytes).nullByte = s.nullByte := rfl
@[simp] theorem State.beginPush_requests (bytes : List Byte) : (s.beginPush bytes).requests = s.requests := rfl
@[simp] theorem State.beginPush_arrivals (bytes : List Byte) : (s.beginPush bytes).arrivals = s.arrivals := rfl
@[simp] theorem State.beginPush_loop (bytes : List Byte) : (s.beginPush bytes).loop = s.loop := rfl
@[simp] theorem State.beginPush_pushing (bytes : List Byte) : (s.beginPush bytes).pushing = s.pushing ++ [bytes] := rfl
@[simp] theorem State.beginPush_result (bytes : List Byte) : (s.beginPush bytes).result = s.result := rfl
@[simp] theorem State.beginPush_tx (bytes : List Byte) : (s.beginPush bytes).tx = s.tx := rfl
@[simp] theorem State.beginPush_textOut (bytes : List Byte) : (s.beginPush bytes).textOut = s.textOut := rfl
@[simp] theorem State.beginPush_drops (bytes : List Byte) : (s.beginPush bytes).drops = s.drops := rfl

/-! ### State.storeText -/

@[simp] theorem State.storeText_cfg (b : Byte) : (s.storeText b).cfg = s.cfg := rfl
@[simp] theorem State.storeText_crc (b : Byte) : (s.storeText b).crc = s.crc := rfl
@[simp] theorem State.storeText_escPending (b : Byte) : (s.storeText b).escPending = s.escPending := rfl
@[simp] theorem State.storeText_buf (b : Byte) : (s.storeText b).buf = s.buf := rfl
@[simp] theorem State.storeText_pushIndex (b : Byte) : (s.storeText b).pushIndex = s.pushIndex := rfl
@[simp] theorem State.storeText_parseIndex (b : Byte) : (s.storeText b).parseIndex = s.parseIndex := rfl
@[simp] theorem State.storeText_frameStart (b : Byte) : (s.storeText b).frameStart = s.frameStart := rfl
@[simp] theorem State.storeText_startValid (b : Byte) : (s.storeText b).startValid = s.startValid := rfl
@[simp] theorem State.storeText_overrun (b : Byte) : (s.storeText b).overrun = s.overrun := rfl
@[simp] theorem State.storeText_ch (b : Byte) : (s.storeText b).ch = s.ch := rfl
@[simp] theorem State.storeText_decimation (b : Byte) : (s.storeText b).decimation = s.decimation := rfl
@[simp] theorem State.storeText_timeTicks (b : Byte) : (s.storeText b).timeTicks = s.timeTicks := rfl
@[simp] theorem State.storeText_tracingOn (b : Byte) : (s.storeText b).tracingOn = s.tracingOn := rfl
@[simp] theorem State.storeText_tracingOnce (b : Byte) : (s.storeText b).tracingOnce = s.tracingOnce := rfl
@[simp] theorem State.storeText_lastFastUpdate (b : Byte) : (s.storeText b).lastFastUpdate = s.lastFastUpdate := rfl
@[simp] theorem State.storeText_lastSlowUpdate (b : Byte) : (s.storeText b).lastSlowUpdate = s.lastSlowUpdate := rfl
@[simp] theorem State.storeText_dbgBuf (b : Byte) : (s.storeText b).dbgBuf = Memory.store s.dbgBuf s.dbgPush b := rfl
@[simp] theorem State.storeText_dbgPush (b : Byte) : (s.storeText b).dbgPush = textNext s.cfg s.dbgPush := rfl
@[simp] theorem State.storeText_dbgPop (b : Byte) : (s.storeText b).dbgPop = s.dbgPop := rfl
@[simp] theorem State.storeText_mem (b : Byte) : (s.storeText b).mem = s.mem := rfl
@[simp] theorem State.storeText_resolver (b : Byte) : (s.storeText b).resolver = s.resolver := rfl
@[simp] theorem State.storeText_nullByte (b : Byte) : (s.storeText b).nullByte = s.nullByte := rfl
@[simp] theorem State.storeText_requests (b : Byte) : (s.storeText b).requests = s.requests := rfl
@[simp] theorem State.storeText_arrivals (b : Byte) : (s.storeText b).arrivals = s.arrivals := rfl
@[simp] theorem State.storeText_loop (b : Byte) : (s.storeText b).loop = s.loop := rfl
@[simp] theorem State.storeText_pushing (b : Byte) : (s.storeText b).pushing = s.pushing := rfl
@[simp] theorem State.storeText_result (b : Byte) : (s.storeText b).result = s.result := rfl
@[simp] theorem State.storeText_tx (b : Byte) : (s.storeText b).tx = s.tx := rfl
@[simp] theorem State.storeText_textOut (b : Byte) : (s.storeText b).textOut = s.textOut := rfl
@[simp] theorem State.storeText_drops (b : Byte) : (s.storeText b).drops = s.drops := rfl

/-! ### State.tick -/

@[simp] theorem State.tick_cfg : (s.tick).cfg = s.cfg := rfl
@[simp] theorem State.tick_crc : (s.tick).crc = s.crc := rfl
@[simp] theorem State.tick_escPending : (s.tick).escPending = s.escPending := rfl
@[simp] theorem State.tick_buf : (s.tick).buf = s.buf := rfl
@[simp] theorem State.tick_pushIndex : (s.tick).pushIndex = s.pushIndex := rfl
@[simp] theorem State.tick_parseIndex : (s.tick).parseIndex = s.parseIndex := rfl
@[simp] theorem State.tick_frameStart : (s.tick).frameStart = s.frameStart := rfl
@[simp] theorem State.tick_startValid : (s.tick).startValid = s.startValid := rfl
@[simp] theorem State.tick_overrun : (s.tick).overrun = s.overrun := rfl
@[simp] theorem State.tick_ch : (s.tick).ch = s.ch := rfl
@[simp] theorem State.tick_decimation : (s.tick).decimation = s.decimation := rfl
@[simp] theorem State.tick_timeTicks : (s.tick).timeTicks = s.timeTicks + 1 := rfl
@[simp] theorem State.tick_tracingOn : (s.tick).tracingOn = s.tracingOn := rfl
@[simp] theorem State.tick_tracingOnce : (s.tick).tracingOnce = s.tracingOnce := rfl
@[simp] theorem State.tick_lastFastUpdate : (s.tick).lastFastUpdate = s.lastFastUpdate := rfl
@[simp] theorem State.tick_lastSlowUpdate : (s.tick).lastSlowUpdate = s.lastSlowUpdate := rfl
@[simp] theorem State.tick_dbgBuf : (s.tick).dbgBuf = s.dbgBuf := rfl
@[simp] theorem State.tick_dbgPush : (s.tick).dbgPush = s.dbgPush := rfl
@[simp] theorem State.tick_dbgPop : (s.tick).dbgPop = s.dbgPop := rfl
@[simp] theorem State.tick_mem : (s.tick).mem = s.mem := rfl
@[simp] theorem State.tick_resolver : (s.tick).resolver = s.resolver := rfl
@[simp] theorem State.tick_nullByte : (s.tick).nullByte = s.nullByte := rfl
@[simp] theorem State.tick_requests : (s.tick).requests = s.requests := rfl
@[simp] theorem State.tick_arrivals : (s.tick).arrivals = s.arrivals := rfl
@[simp] theorem State.tick_loop : (s.tick).loop = s.loop := rfl
@[simp] theorem State.tick_pushing : (s.tick).pushing = s.pushing := rfl
@[simp] theorem State.tick_result : (s.tick).result = s.result := rfl
@[simp] theorem State.tick_tx : (s.tick).tx = s.tx := rfl
@[simp] theorem State.tick_textOut : (s.tick).textOut = s.textOut := rfl
@[simp] theorem State.tick_drops : (s.tick).drops = s.drops := rfl

/-! ### State.writeByte -/

@[simp] theorem State.writeByte_cfg (a : Address) (b : Byte) : (s.writeByte a b).cfg = s.cfg := rfl
@[simp] theorem State.writeByte_crc (a : Address) (b : Byte) : (s.writeByte a b).crc = s.crc := rfl
@[simp] theorem State.writeByte_escPending (a : Address) (b : Byte) : (s.writeByte a b).escPending = s.escPending := rfl
@[simp] theorem State.writeByte_buf (a : Address) (b : Byte) : (s.writeByte a b).buf = s.buf := rfl
@[simp] theorem State.writeByte_pushIndex (a : Address) (b : Byte) : (s.writeByte a b).pushIndex = s.pushIndex := rfl
@[simp] theorem State.writeByte_parseIndex (a : Address) (b : Byte) : (s.writeByte a b).parseIndex = s.parseIndex := rfl
@[simp] theorem State.writeByte_frameStart (a : Address) (b : Byte) : (s.writeByte a b).frameStart = s.frameStart := rfl
@[simp] theorem State.writeByte_startValid (a : Address) (b : Byte) : (s.writeByte a b).startValid = s.startValid := rfl
@[simp] theorem State.writeByte_overrun (a : Address) (b : Byte) : (s.writeByte a b).overrun = s.overrun := rfl
@[simp] theorem State.writeByte_ch (a : Address) (b : Byte) : (s.writeByte a b).ch = s.ch := rfl
@[simp] theorem State.writeByte_decimation (a : Address) (b : Byte) : (s.writeByte a b).decimation = s.decimation := rfl
@[simp] theorem State.writeByte_timeTicks (a : Address) (b : Byte) : (s.writeByte a b).timeTicks = s.timeTicks := rfl
@[simp] theorem State.writeByte_tracingOn (a : Address) (b : Byte) : (s.writeByte a b).tracingOn = s.tracingOn := rfl
@[simp] theorem State.writeByte_tracingOnce (a : Address) (b : Byte) : (s.writeByte a b).tracingOnce = s.tracingOnce := rfl
@[simp] theorem State.writeByte_lastFastUpdate (a : Address) (b : Byte) : (s.writeByte a b).lastFastUpdate = s.lastFastUpdate := rfl
@[simp] theorem State.writeByte_lastSlowUpdate (a : Address) (b : Byte) : (s.writeByte a b).lastSlowUpdate = s.lastSlowUpdate := rfl
@[simp] theorem State.writeByte_dbgBuf (a : Address) (b : Byte) : (s.writeByte a b).dbgBuf = s.dbgBuf := rfl
@[simp] theorem State.writeByte_dbgPush (a : Address) (b : Byte) : (s.writeByte a b).dbgPush = s.dbgPush := rfl
@[simp] theorem State.writeByte_dbgPop (a : Address) (b : Byte) : (s.writeByte a b).dbgPop = s.dbgPop := rfl
@[simp] theorem State.writeByte_mem (a : Address) (b : Byte) : (s.writeByte a b).mem = Memory.store s.mem (wrap s.cfg a) b := rfl
@[simp] theorem State.writeByte_resolver (a : Address) (b : Byte) : (s.writeByte a b).resolver = s.resolver := rfl
@[simp] theorem State.writeByte_nullByte (a : Address) (b : Byte) : (s.writeByte a b).nullByte = s.nullByte := rfl
@[simp] theorem State.writeByte_requests (a : Address) (b : Byte) : (s.writeByte a b).requests = s.requests := rfl
@[simp] theorem State.writeByte_arrivals (a : Address) (b : Byte) : (s.writeByte a b).arrivals = s.arrivals := rfl
@[simp] theorem State.writeByte_loop (a : Address) (b : Byte) : (s.writeByte a b).loop = s.loop := rfl
@[simp] theorem State.writeByte_pushing (a : Address) (b : Byte) : (s.writeByte a b).pushing = s.pushing := rfl
@[simp] theorem State.writeByte_result (a : Address) (b : Byte) : (s.writeByte a b).result = s.result := rfl
@[simp] theorem State.writeByte_tx (a : Address) (b : Byte) : (s.writeByte a b).tx = s.tx := rfl
@[simp] theorem State.writeByte_textOut (a : Address) (b : Byte) : (s.writeByte a b).textOut = s.textOut := rfl
@[simp] theorem State.writeByte_drops (a : Address) (b : Byte) : (s.writeByte a b).drops = s.drops := rfl

/-! ### State.passSlot -/

@[simp] theorem State.passSlot_cfg : (s.passSlot).cfg = s.cfg := rfl
@[simp] theorem State.passSlot_crc : (s.passSlot).crc = s.crc := rfl
@[simp] theorem State.passSlot_escPending : (s.passSlot).escPending = s.escPending := rfl
@[simp] theorem State.passSlot_buf : (s.passSlot).buf = s.buf := rfl
@[simp] theorem State.passSlot_pushIndex : (s.passSlot).pushIndex = s.pushIndex := rfl
@[simp] theorem State.passSlot_parseIndex : (s.passSlot).parseIndex = ringNext s.cfg s.parseIndex := rfl
@[simp] theorem State.passSlot_frameStart : (s.passSlot).frameStart = s.frameStart := rfl
@[simp] theorem State.passSlot_startValid : (s.passSlot).startValid = s.startValid := rfl
@[simp] theorem State.passSlot_overrun : (s.passSlot).overrun = s.overrun := rfl
@[simp] theorem State.passSlot_ch : (s.passSlot).ch = s.ch := rfl
@[simp] theorem State.passSlot_decimation : (s.passSlot).decimation = s.decimation := rfl
@[simp] theorem State.passSlot_timeTicks : (s.passSlot).timeTicks = s.timeTicks := rfl
@[simp] theorem State.passSlot_tracingOn : (s.passSlot).tracingOn = s.tracingOn := rfl
@[simp] theorem State.passSlot_tracingOnce : (s.passSlot).tracingOnce = s.tracingOnce := rfl
@[simp] theorem State.passSlot_lastFastUpdate : (s.passSlot).lastFastUpdate = s.lastFastUpdate := rfl
@[simp] theorem State.passSlot_lastSlowUpdate : (s.passSlot).lastSlowUpdate = s.lastSlowUpdate := rfl
@[simp] theorem State.passSlot_dbgBuf : (s.passSlot).dbgBuf = s.dbgBuf := rfl
@[simp] theorem State.passSlot_dbgPush : (s.passSlot).dbgPush = s.dbgPush := rfl
@[simp] theorem State.passSlot_dbgPop : (s.passSlot).dbgPop = s.dbgPop := rfl
@[simp] theorem State.passSlot_mem : (s.passSlot).mem = s.mem := rfl
@[simp] theorem State.passSlot_resolver : (s.passSlot).resolver = s.resolver := rfl
@[simp] theorem State.passSlot_nullByte : (s.passSlot).nullByte = s.nullByte := rfl
@[simp] theorem State.passSlot_requests : (s.passSlot).requests = s.requests := rfl
@[simp] theorem State.passSlot_arrivals : (s.passSlot).arrivals = s.arrivals := rfl
@[simp] theorem State.passSlot_loop : (s.passSlot).loop = s.loop := rfl
@[simp] theorem State.passSlot_pushing : (s.passSlot).pushing = s.pushing := rfl
@[simp] theorem State.passSlot_result : (s.passSlot).result = s.result := rfl
@[simp] theorem State.passSlot_tx : (s.passSlot).tx = s.tx := rfl
@[simp] theorem State.passSlot_textOut : (s.passSlot).textOut = s.textOut := rfl
@[simp] theorem State.passSlot_drops : (s.passSlot).drops = s.drops := rfl

/-! ### State.enqueueFirst -/

@[simp] theorem State.enqueueFirst_cfg (r : List Byte) : (s.enqueueFirst r).cfg = s.cfg := rfl
@[simp] theorem State.enqueueFirst_crc (r : List Byte) : (s.enqueueFirst r).crc = s.crc := rfl
@[simp] theorem State.enqueueFirst_escPending (r : List Byte) : (s.enqueueFirst r).escPending = s.escPending := rfl
@[simp] theorem State.enqueueFirst_buf (r : List Byte) : (s.enqueueFirst r).buf = s.buf := rfl
@[simp] theorem State.enqueueFirst_pushIndex (r : List Byte) : (s.enqueueFirst r).pushIndex = s.pushIndex := rfl
@[simp] theorem State.enqueueFirst_parseIndex (r : List Byte) : (s.enqueueFirst r).parseIndex = s.parseIndex := rfl
@[simp] theorem State.enqueueFirst_frameStart (r : List Byte) : (s.enqueueFirst r).frameStart = s.frameStart := rfl
@[simp] theorem State.enqueueFirst_startValid (r : List Byte) : (s.enqueueFirst r).startValid = s.startValid := rfl
@[simp] theorem State.enqueueFirst_overrun (r : List Byte) : (s.enqueueFirst r).overrun = s.overrun := rfl
@[simp] theorem State.enqueueFirst_ch (r : List Byte) : (s.enqueueFirst r).ch = s.ch := rfl
@[simp] theorem State.enqueueFirst_decimation (r : List Byte) : (s.enqueueFirst r).decimation = s.decimation := rfl
@[simp] theorem State.enqueueFirst_timeTicks (r : List Byte) : (s.enqueueFirst r).timeTicks = s.timeTicks := rfl
@[simp] theorem State.enqueueFirst_tracingOn (r : List Byte) : (s.enqueueFirst r).tracingOn = s.tracingOn := rfl
@[simp] theorem State.enqueueFirst_tracingOnce (r : List Byte) : (s.enqueueFirst r).tracingOnce = s.tracingOnce := rfl
@[simp] theorem State.enqueueFirst_lastFastUpdate (r : List Byte) : (s.enqueueFirst r).lastFastUpdate = s.lastFastUpdate := rfl
@[simp] theorem State.enqueueFirst_lastSlowUpdate (r : List Byte) : (s.enqueueFirst r).lastSlowUpdate = s.lastSlowUpdate := rfl
@[simp] theorem State.enqueueFirst_dbgBuf (r : List Byte) : (s.enqueueFirst r).dbgBuf = s.dbgBuf := rfl
@[simp] theorem State.enqueueFirst_dbgPush (r : List Byte) : (s.enqueueFirst r).dbgPush = s.dbgPush := rfl
@[simp] theorem State.enqueueFirst_dbgPop (r : List Byte) : (s.enqueueFirst r).dbgPop = s.dbgPop := rfl
@[simp] theorem State.enqueueFirst_mem (r : List Byte) : (s.enqueueFirst r).mem = s.mem := rfl
@[simp] theorem State.enqueueFirst_resolver (r : List Byte) : (s.enqueueFirst r).resolver = s.resolver := rfl
@[simp] theorem State.enqueueFirst_nullByte (r : List Byte) : (s.enqueueFirst r).nullByte = s.nullByte := rfl
@[simp] theorem State.enqueueFirst_requests (r : List Byte) : (s.enqueueFirst r).requests = r :: s.requests := rfl
@[simp] theorem State.enqueueFirst_arrivals (r : List Byte) : (s.enqueueFirst r).arrivals = s.arrivals := rfl
@[simp] theorem State.enqueueFirst_loop (r : List Byte) : (s.enqueueFirst r).loop = s.loop := rfl
@[simp] theorem State.enqueueFirst_pushing (r : List Byte) : (s.enqueueFirst r).pushing = s.pushing := rfl
@[simp] theorem State.enqueueFirst_result (r : List Byte) : (s.enqueueFirst r).result = s.result := rfl
@[simp] theorem State.enqueueFirst_tx (r : List Byte) : (s.enqueueFirst r).tx = s.tx := rfl
@[simp] theorem State.enqueueFirst_textOut (r : List Byte) : (s.enqueueFirst r).textOut = s.textOut := rfl
@[simp] theorem State.enqueueFirst_drops (r : List Byte) : (s.enqueueFirst r).drops = s.drops := rfl

end Sys2Proof.Machine
end

