-- ==== Sys2Proof/Laws/Landing.lean ====
section
/-! SUPPORT. What the other agents can change at a boundary, said once, and that reading target memory changes nothing
else. -/

namespace Sys2Proof.Machine

/-- `t` differs from `s` only in what the other agents may change (20_memory.md R67): the producer's side of the ring, the
tick counter, target memory, the free byte at NULL, the text the collaborator has taken, RESOLVE, the waiting inputs and pushes, and the record of drops. -/
structure Landed (s t : State) : Prop where
  cfg : t.cfg = s.cfg
  crc : t.crc = s.crc
  escPending : t.escPending = s.escPending
  parseIndex : t.parseIndex = s.parseIndex
  frameStart : t.frameStart = s.frameStart
  startValid : t.startValid = s.startValid
  overrun : s.overrun = true → t.overrun = true
  ch : t.ch = s.ch
  decimation : t.decimation = s.decimation
  tracingOn : t.tracingOn = s.tracingOn
  tracingOnce : t.tracingOnce = s.tracingOnce
  lastFastUpdate : t.lastFastUpdate = s.lastFastUpdate
  lastSlowUpdate : t.lastSlowUpdate = s.lastSlowUpdate
  dbgBuf : t.dbgBuf = s.dbgBuf
  dbgPush : t.dbgPush = s.dbgPush
  loop : t.loop = s.loop
  result : t.result = s.result
  tx : t.tx = s.tx

theorem Landed.refl (s : State) : Landed s s := by constructor <;> first | rfl | exact id

theorem Landed.trans {s t u : State} (h : Landed s t) (k : Landed t u) : Landed s u := by
  constructor
  case overrun => exact fun o => k.overrun (h.overrun o)
  all_goals first
    | exact k.cfg.trans h.cfg | exact k.crc.trans h.crc | exact k.escPending.trans h.escPending
    | exact k.parseIndex.trans h.parseIndex | exact k.frameStart.trans h.frameStart
    | exact k.startValid.trans h.startValid | exact k.ch.trans h.ch | exact k.decimation.trans h.decimation
    | exact k.tracingOn.trans h.tracingOn | exact k.tracingOnce.trans h.tracingOnce
    | exact k.lastFastUpdate.trans h.lastFastUpdate | exact k.lastSlowUpdate.trans h.lastSlowUpdate
    | exact k.dbgBuf.trans h.dbgBuf | exact k.dbgPush.trans h.dbgPush | exact k.loop.trans h.loop
    | exact k.result.trans h.result | exact k.tx.trans h.tx

theorem landed_drop (s : State) (r : Drop) : Landed s (s.drop r) := by constructor <;> first | rfl | exact id

theorem landed_writeByte (s : State) (a : Address) (b : Byte) : Landed s (s.writeByte a b) := by
  constructor <;> first | rfl | exact id

/-- R60, R202: the block's write of a byte, off NULL and at NULL. -/
theorem storeByte_cases (s : State) (a : Address) (b : Byte) :
    (wrap s.cfg a = s.cfg.null ∧ s.storeByte a b = s) ∨
      (wrap s.cfg a ≠ s.cfg.null ∧ s.storeByte a b = s.writeByte a b) := by
  unfold State.storeByte
  split
  · exact .inl ⟨‹_›, rfl⟩
  · exact .inr ⟨‹_›, rfl⟩

theorem landed_storeByte (s : State) (a : Address) (b : Byte) : Landed s (s.storeByte a b) := by
  rcases storeByte_cases s a b with ⟨_, h⟩ | ⟨_, h⟩ <;> rw [h]
  · exact Landed.refl s
  · exact landed_writeByte s a b

/-- A push step, either branch. -/
theorem landed_pushByte (s : State) (b : Byte) : Landed s (s.pushByte b) := by
  unfold State.pushByte
  split <;> constructor <;> first | rfl | exact id | exact fun _ => rfl

/-- R172: what the next iteration of a push can be: nothing, the end of one without bytes left, or one pushed byte. -/
theorem pushStep_cases (s : State) :
    s.pushStep = s ∨ (∃ p, s.pushStep = s.withPushing p) ∨ ∃ p b, s.pushStep = (s.withPushing p).pushByte b := by
  unfold State.pushStep
  split
  · exact .inl rfl
  · exact .inr (.inl ⟨_, rfl⟩)
  · exact .inr (.inr ⟨_, _, rfl⟩)

theorem landed_pushStep (s : State) : Landed s s.pushStep := by
  rcases pushStep_cases s with h | ⟨p, h⟩ | ⟨p, b, h⟩ <;> rw [h]
  · exact Landed.refl s
  · constructor <;> first | rfl | exact id
  · exact Landed.trans (t := s.withPushing p) (by constructor <;> first | rfl | exact id) (landed_pushByte _ b)

/-- One outside event. -/
theorem landed_apply (s : State) (e : Arrival) : Landed s (s.apply e) := by
  cases e with
  | beginPush bytes => constructor <;> first | rfl | exact id
  | pushStep => exact landed_pushStep s
  | consumerTurn => exact Landed.refl s
  | tick => constructor <;> first | rfl | exact id
  | memoryWrite a b => exact landed_writeByte s a b
  | takeText =>
    show Landed s s.takeText
    unfold State.takeText
    split
    · exact Landed.refl s
    · constructor <;> first | rfl | exact id
  | nullByte b => constructor <;> first | rfl | exact id
  | bind e => constructor <;> first | rfl | exact id
  | request r => constructor <;> first | rfl | exact id

theorem landed_foldl (events : List Arrival) (s : State) : Landed s (events.foldl State.apply s) := by
  induction events generalizing s with
  | nil => exact Landed.refl s
  | cons e rest ih => exact (landed_apply s e).trans (ih _)

/-- A boundary. -/
theorem landed_land (s : State) : Landed s s.land := by
  unfold State.land
  split
  · exact Landed.refl s
  · next events later _ =>
    exact Landed.trans (t := { s with arrivals := later }) (by constructor <;> first | rfl | exact id)
      (landed_foldl events _)

/-- Reading target memory. -/
theorem landed_readBytes (n : Nat) (a : Address) (s : State) : Landed s (readBytes n a s).2 := by
  induction n generalizing a s with
  | zero => exact Landed.refl s
  | succ n ih => exact (landed_land s).trans (ih (a + 1) s.land)

theorem landed_readPointer (a : Address) (s : State) : Landed s (readPointer a s).2 :=
  landed_readBytes s.cfg.ptrBytes a s

/-- Writing target memory. -/
theorem landed_writeBytes (v : List Byte) (a : Address) (s : State) : Landed s (writeBytes v a s) := by
  induction v generalizing a s with
  | nil => exact Landed.refl s
  | cons b rest ih => exact ((landed_storeByte s a b).trans (landed_land _)).trans (ih (a + 1) _)

/-- With nothing planned, a boundary does nothing. -/
theorem land_quiet {s : State} (h : s.arrivals = []) : s.land = s := by
  unfold State.land
  rw [h]

theorem readBytes_length (n : Nat) (a : Address) (s : State) : (readBytes n a s).1.length = n := by
  induction n generalizing a s with
  | zero => rfl
  | succ n ih => simp [readBytes, ih]

end Sys2Proof.Machine
end

