-- ==== Sys2Proof/Laws/Channels.lean ====
section
/-! SUPPORT. The pointer chase and the channel read and write: what they may change, and what they give when nothing else
moves. -/

namespace Sys2Proof.Machine

/-! ## What a chase may change -/

theorem landed_chaseFrom (depth : Nat) (p : Address) (s : State) : Landed s (chaseFrom depth p s).2 := by
  induction depth generalizing p s with
  | zero => exact Landed.refl s
  | succ depth ih =>
    unfold chaseFrom
    split
    next q t heq =>
    have ht : Landed s t := by have := landed_readPointer p s; rwa [heq] at this
    split
    · exact ht
    · exact ht.trans (ih q t)

theorem landed_chase (a : Address) (depth : Nat) (s : State) : Landed s (chase a depth s).2 := by
  unfold chase
  split
  · exact landed_drop s _
  · split
    · next p t heq => have := landed_chaseFrom depth (wrap s.cfg a) s; rwa [heq] at this
    · next t heq =>
      have h := landed_chaseFrom depth (wrap s.cfg a) s
      rw [heq] at h
      exact Landed.trans h (landed_drop _ _)

theorem landed_readChannel (d : Descriptor) (s : State) : Landed s (readChannel d s).2 := by
  unfold readChannel
  split
  · next t heq => have := landed_chase d.address d.dereferenceDepth.toNat s; rwa [heq] at this
  · next p t heq =>
    have h := landed_chase d.address d.dereferenceDepth.toNat s
    rw [heq] at h
    exact Landed.trans h (landed_readBytes d.sizeBytes.toNat p t)

theorem landed_writeChannel (d : Descriptor) (v : List Byte) (s : State) : Landed s (writeChannel d v s) := by
  unfold writeChannel
  split
  · next t heq => have := landed_chase d.address d.dereferenceDepth.toNat s; rwa [heq] at this
  · next p t heq =>
    have h := landed_chase d.address d.dereferenceDepth.toNat s
    rw [heq] at h
    exact Landed.trans h (landed_writeBytes _ p t)

/-! ## Nothing else moves -/

theorem bytesAt_succ (s : State) (a n : Nat) : bytesAt s a (n + 1) = s.loadByte a :: bytesAt s (a + 1) n := by
  unfold bytesAt
  rw [List.range_succ_eq_map]
  simp only [List.map_cons, List.map_map, Nat.add_zero, List.cons.injEq, true_and]
  exact List.map_congr_left fun j _ => by simp [← Nat.add_assoc, Nat.add_right_comm]

@[simp] theorem bytesAt_zero (s : State) (a : Nat) : bytesAt s a 0 = [] := rfl

@[simp] theorem bytesAt_length (s : State) (a n : Nat) : (bytesAt s a n).length = n := by simp [bytesAt]

theorem readBytes_quiet {s : State} (h : Quiet s) (n : Nat) (a : Address) : readBytes n a s = (bytesAt s a n, s) := by
  induction n generalizing a with
  | zero => rfl
  | succ n ih => simp [readBytes, land_quiet h, ih, bytesAt_succ]

theorem readPointer_quiet {s : State} (h : Quiet s) (a : Address) : readPointer a s = (pointerAt s a, s) := by
  simp [readPointer, readBytes_quiet h, pointerAt]

theorem chaseFrom_quiet {s : State} (h : Quiet s) (depth : Nat) (p : Address) :
    chaseFrom depth p s = (followAtRest s depth p, s) := by
  induction depth generalizing p with
  | zero => rfl
  | succ depth ih =>
    simp only [chaseFrom, readPointer_quiet h, followAtRest]
    split
    · rfl
    · exact ih _

/-- R201 in a memory at rest: the chase gives what following the stored pointers gives, and changes nothing but the record
of a Null. -/
theorem chase_quiet {s : State} (h : Quiet s) (d : Descriptor) :
    chase d.address d.dereferenceDepth.toNat s =
      (resolveAtRest s d, { s with drops := s.drops ++ chaseDrops s d }) := by
  unfold chase resolveAtRest chaseDrops resolveAtRest
  split
  · rfl
  · rw [chaseFrom_quiet h]
    split
    · next p t heq => obtain ⟨h1, h2⟩ := Prod.mk.inj heq; subst h2; simp [h1]
    · next t heq => obtain ⟨h1, h2⟩ := Prod.mk.inj heq; subst h2; simp [h1, State.drop]

theorem resolveAtRest_isSome (s : State) (d : Descriptor) :
    (resolveAtRest s d).isSome = (valueAtRest s d).isSome := by simp [valueAtRest]

theorem latchDiffers_iff (latch : Vector Byte 8) (n : Nat) (v : List Byte) :
    latchDiffers latch n v = decide (v ≠ latch.toList.take n) := by
  rw [Bool.eq_iff_iff]
  simp [latchDiffers]

theorem overwriteLatch_eq (latch : Vector Byte 8) (v : List Byte) :
    overwriteLatch latch v = Vector.ofFn fun j => if h : j.val < v.length then v[j.val] else latch[j] := by
  unfold overwriteLatch
  congr 1
  funext j
  split
  · next h => simp [List.getD, h]
  · next h => simp [List.getD, List.getElem?_eq_none (Nat.le_of_not_lt h)]

/-- A latch overwritten with its own first bytes stays as it is. -/
theorem overwriteLatch_same (latch : Vector Byte 8) (n : Nat) :
    overwriteLatch latch (latch.toList.take n) = latch := by
  rw [overwriteLatch_eq]
  apply Vector.ext
  intro j hj
  simp

/-- R206 in a memory at rest. -/
theorem readChannel_quiet {s : State} (h : Quiet s) (d : Descriptor) :
    readChannel d s =
      (⟨valueAtRest s d, changedAtRest s d, latchAtRest s d⟩, { s with drops := s.drops ++ chaseDrops s d }) := by
  unfold readChannel
  rw [chase_quiet h]
  cases hr : resolveAtRest s d with
  | none => simp [valueAtRest, changedAtRest, latchAtRest, hr]
  | some p =>
    have hq : Quiet { s with drops := s.drops ++ chaseDrops s d } := h
    have hb : bytesAt { s with drops := s.drops ++ chaseDrops s d } p d.sizeBytes.toNat = bytesAt s p d.sizeBytes.toNat :=
      rfl
    simp only [readBytes_quiet hq, hb]
    simp only [valueAtRest, changedAtRest, latchAtRest, hr, Option.map_some, latchRead, latchDiffers_iff]
    split
    · next hc => simp [overwriteLatch_eq, of_decide_eq_true hc]
    · next hc =>
      have he : bytesAt s p d.sizeBytes.toNat = d.previousValue.toList.take d.sizeBytes.toNat := by
        simpa using hc
      simp only [Prod.mk.injEq, ChannelRead.mk.injEq, true_and, and_true]
      refine ⟨by simpa using he, ?_⟩
      rw [← overwriteLatch_eq, he, overwriteLatch_same]

/-- R210 in a memory at rest. -/
theorem writeBytes_quiet {s : State} (h : Quiet s) (v : List Byte) (a : Address) :
    ∃ m, writeBytes v a s = { s with mem := m } := by
  induction v generalizing a s with
  | nil => exact ⟨s.mem, rfl⟩
  | cons b rest ih =>
    unfold writeBytes
    rcases storeByte_cases s a b with ⟨_, he⟩ | ⟨_, he⟩ <;> rw [he]
    · rw [land_quiet h]
      exact ih h (a + 1)
    · have hq : Quiet (s.writeByte a b) := h
      obtain ⟨m, hm⟩ := ih hq (a + 1)
      exact ⟨m, by rw [land_quiet hq, hm]; rfl⟩

theorem setChannel_ch (s : State) (j k : Fin 16) (c : Channel) :
    (s.setChannel j c).ch[k] = if j = k then c else s.ch[k] := by
  simp [State.setChannel, Vector.getElem_set, Fin.ext_iff]

/-- R206 on a slot in a memory at rest. -/
theorem readSlot_quiet {s : State} (h : Quiet s) (i : Fin 16) :
    readSlot i s =
      (⟨valueAtRest s s.ch[i].descriptor, changedAtRest s s.ch[i].descriptor, latchAtRest s s.ch[i].descriptor⟩,
        { s with
          ch := s.ch.set i { s.ch[i] with previousValue := latchAtRest s s.ch[i].descriptor }
          drops := s.drops ++ chaseDrops s s.ch[i].descriptor }) := by
  unfold readSlot
  rw [readChannel_quiet h]
  simp only [State.setChannel]
  cases hc : changedAtRest s s.ch[i].descriptor
  · have hl : latchAtRest s s.ch[i].descriptor = s.ch[i].previousValue := by
      unfold changedAtRest at hc
      unfold latchAtRest
      cases hv : valueAtRest s s.ch[i].descriptor with
      | none => rfl
      | some v =>
        simp only [hv] at hc ⊢
        have he : v = s.ch[i].descriptor.previousValue.toList.take s.ch[i].descriptor.sizeBytes.toNat := by simpa using hc
        rw [← overwriteLatch_eq, he, overwriteLatch_same]
        rfl
    have he : ({ s.ch[i] with previousValue := latchAtRest s s.ch[i].descriptor } : Channel) = s.ch[i] := by rw [hl]
    rw [he]
    simp
  · simp

/-- What a read at rest gives depends on the parameters, target memory off NULL, and the free value alone. -/
theorem atRest_congr_off_null {s t : State} (hc : t.cfg = s.cfg) (hn : t.nullByte = s.nullByte)
    (hm : ∀ a, wrap s.cfg a ≠ s.cfg.null → t.readByte a = s.readByte a) (d : Descriptor) :
    valueAtRest t d = valueAtRest s d ∧ resolveAtRest t d = resolveAtRest s d := by
  have hl : ∀ a, t.loadByte a = s.loadByte a := fun a => by
    unfold State.loadByte
    rw [hc, hn]
    split
    · rfl
    · exact hm a ‹_›
  have hb : ∀ a n, bytesAt t a n = bytesAt s a n := fun a n => by simp only [bytesAt, hl]
  have hp : ∀ a, pointerAt t a = pointerAt s a := fun a => by simp only [pointerAt, hc, hb]
  have hf : ∀ n p, followAtRest t n p = followAtRest s n p := by
    intro n
    induction n with
    | zero => exact fun _ => rfl
    | succ n ih => exact fun p => by simp only [followAtRest, hp, hc, ih]
  have hr : resolveAtRest t d = resolveAtRest s d := by simp only [resolveAtRest, hc, hf]
  exact ⟨by simp only [valueAtRest, hr, hb], hr⟩

theorem atRest_congr {s t : State} (hc : t.cfg = s.cfg) (hn : t.nullByte = s.nullByte) (hm : t.mem = s.mem)
    (d : Descriptor) : valueAtRest t d = valueAtRest s d ∧ resolveAtRest t d = resolveAtRest s d :=
  atRest_congr_off_null hc hn (fun _ _ => by simp only [State.readByte, hc, hm]) d

/-- The 8 bytes of a value never overlap themselves (the address space has at least 256 addresses). -/
theorem wrap_add_inj {c : Config} (hc : 8 ≤ c.addressSpace) {p i j : Nat} (hi : i < 8) (hj : j < 8)
    (h : wrap c (p + i) = wrap c (p + j)) : i = j := by
  have h3 : i % c.addressSpace = j % c.addressSpace := Nat.ModEq.add_left_cancel' p h
  rwa [Nat.mod_eq_of_lt (by omega), Nat.mod_eq_of_lt (by omega)] at h3

theorem addressSpace_ge {c : Config} (h : c.Valid) : 8 ≤ c.addressSpace := by
  have h1 := h.2.2.2.1
  exact Nat.le_trans (by decide) (Nat.pow_le_pow_right (by decide) (show 3 ≤ 8 * c.ptrBytes by omega))

/-- R210, the stored bytes: at most 8 of them, in a memory at rest. -/
theorem writeBytes_stored {s : State} (hq : Quiet s) (hc : 8 ≤ s.cfg.addressSpace) (v : List Byte) (p : Address)
    (hl : v.length ≤ 8) : ∃ m, writeBytes v p s = { s with mem := m } ∧ StoredAt s { s with mem := m } p v := by
  induction v generalizing s p with
  | nil => exact ⟨s.mem, rfl, fun j h => absurd h (by simp), fun a _ => rfl⟩
  | cons b rest ih =>
    have hl' : rest.length + 1 ≤ 8 := hl
    have e1 : ∀ k, p + (k + 1) = p + 1 + k := fun k => by rw [Nat.add_assoc, Nat.add_comm 1 k]
    have hq' : Quiet (s.storeByte p b) := by rcases storeByte_cases s p b with ⟨_, he⟩ | ⟨_, he⟩ <;> rw [he] <;> exact hq
    have hcfg : (s.storeByte p b).cfg = s.cfg := (landed_storeByte s p b).cfg
    obtain ⟨m, hm, k1, k2⟩ := ih hq' (hcfg ▸ hc) (p + 1) (by omega)
    have hs : ({ s.storeByte p b with mem := m } : State) = { s with mem := m } := by
      rcases storeByte_cases s p b with ⟨_, he⟩ | ⟨_, he⟩ <;> rw [he]
      rfl
    have h1 : ∀ (j : Nat) (h : j < rest.length), wrap s.cfg (p + 1 + j) ≠ s.cfg.null →
        State.readByte { s with mem := m } (p + 1 + j) = rest[j] :=
      fun j h hn => (congrArg (State.readByte · _) hs).symm.trans (k1 j h (by rwa [hcfg]))
    have h2 : ∀ a, (wrap s.cfg a = s.cfg.null ∨ ∀ j < rest.length, wrap s.cfg a ≠ wrap s.cfg (p + 1 + j)) →
        State.readByte { s with mem := m } a = (s.storeByte p b).readByte a :=
      fun a h => (congrArg (State.readByte · _) hs).symm.trans (k2 a (by rwa [hcfg]))
    have hw : ∀ a, (s.storeByte p b).readByte a =
        if wrap s.cfg a = wrap s.cfg p ∧ wrap s.cfg p ≠ s.cfg.null then b else s.readByte a := fun a => by
      rcases storeByte_cases s p b with ⟨hn, he⟩ | ⟨hn, he⟩ <;> rw [he]
      · simp [hn]
      · simp [State.readByte_writeByte, hn]
    refine ⟨m, ?_, ?_, ?_⟩
    · unfold writeBytes
      rw [land_quiet hq']
      exact hm.trans hs
    · intro j hj hn
      cases j with
      | zero =>
        rw [h2 (p + 0) (.inr fun k hk he => by
            have := wrap_add_inj (c := s.cfg) hc (p := p) (i := 0) (j := k + 1) (by omega) (by omega)
              (he.trans (congrArg (wrap s.cfg) (e1 k).symm))
            omega), hw, if_pos ⟨rfl, hn⟩]
        rfl
      | succ j =>
        rw [e1] at hn ⊢
        exact h1 j (by simpa using hj) hn
    · intro a ha
      have h3 : State.readByte { s with mem := m } a = (s.storeByte p b).readByte a :=
        h2 a (ha.imp id fun ha k hk => by
          have := ha (k + 1) (by simpa using hk)
          rwa [e1] at this)
      rw [h3, hw, if_neg]
      rintro ⟨he, hn⟩
      rcases ha with ha | ha
      · exact hn (he ▸ ha)
      · exact ha 0 (by simp) he

end Sys2Proof.Machine
end

