-- ==== Sys2Proof/Laws/Codec.lean ====
section
/-! SUPPORT. The CRC-8 step, the escape of one byte, the unstuffer by its first byte, and the candidate frame of FRM.DEC. -/

namespace Sys2Proof.Machine

/-! ## CRC-8 -/

@[simp] theorem crcFrom_nil (c : Config) (a : Byte) : crcFrom c a [] = a := rfl

theorem crcFrom_cons (c : Config) (a b : Byte) (rest : List Byte) :
    crcFrom c a (b :: rest) = crcFrom c (crcStep c a b) rest := rfl

theorem crcFrom_append (c : Config) (a : Byte) (p q : List Byte) :
    crcFrom c a (p ++ q) = crcFrom c (crcFrom c a p) q := List.foldl_append

/-- Absorbing the accumulator itself looks up entry 0. -/
theorem crcStep_self (c : Config) (a : Byte) : crcStep c a a = c.crcEntry 0 := by
  simp [crcStep]

/-- With pairwise distinct entries, a step's result tells its index. -/
theorem crcStep_index (c : Config) (h : c.crcTable.toList.Nodup) {a b x y : Byte}
    (he : crcStep c a x = crcStep c b y) : a ^^^ x = b ^^^ y := by
  have hl : c.crcTable.toList[(a ^^^ x).toNat]'(by simp; exact (a ^^^ x).isLt) =
      c.crcTable.toList[(b ^^^ y).toNat]'(by simp; exact (b ^^^ y).isLt) := by
    simpa [crcStep, Config.crcEntry] using he
  exact BitVec.eq_of_toNat_eq ((List.Nodup.getElem_inj_iff h).1 hl)

/-- With pairwise distinct entries, absorbing equal bytes keeps different accumulators different. -/
theorem crcFrom_injective (c : Config) (h : c.crcTable.toList.Nodup) (q : List Byte) {a b : Byte}
    (he : crcFrom c a q = crcFrom c b q) : a = b := by
  induction q generalizing a b with
  | nil => exact he
  | cons x q ih =>
    have := congrArg (· ^^^ x) (crcStep_index c h (ih he))
    simpa [BitVec.xor_assoc] using this

/-- CRC.UPD once per byte. -/
theorem execAll_crcUpd (p : List Byte) (s : State) :
    execAll (p.map .crcUpd) s = .next { s with crc := crcFrom s.cfg s.crc p } := by
  induction p generalizing s with
  | nil => rfl
  | cons b rest ih =>
    simp only [List.map_cons, execAll, exec, execCrcUpd]
    rw [ih]
    rfl

/-! ## Stuffer -/

@[simp] theorem stuff_nil : stuff [] = [] := rfl

theorem stuff_cons (b : Byte) (p : List Byte) : stuff (b :: p) = escape b ++ stuff p := by simp [stuff]

theorem stuff_append (p q : List Byte) : stuff (p ++ q) = stuff p ++ stuff q := by simp [stuff]

/-- R141, the four cases. -/
theorem escape_cases (b : Byte) :
    (b = stx ∧ escape b = [esc, 0x33#8]) ∨ (b = etx ∧ escape b = [esc, 0xCC#8]) ∨
    (b = esc ∧ escape b = [esc, 0x00#8]) ∨ (b ≠ stx ∧ b ≠ etx ∧ b ≠ esc ∧ escape b = [b]) := by
  revert b
  decide

/-! ## Unstuffer -/

theorem unstuffFrom_pending (w : Byte) (rest : List Byte) :
    unstuffFrom true (w :: rest) = (unstuff rest).map ((w ^^^ esc) :: ·) := by
  simp [unstuffFrom, unescapeStep, unstuff]

theorem unstuffFrom_idle (w : Byte) (rest : List Byte) :
    unstuffFrom false (w :: rest) = if w = esc then unstuffFrom true rest else (unstuff rest).map (w :: ·) := by
  by_cases h : w = esc <;> simp [unstuffFrom, unescapeStep, unstuff, h]

/-- The unstuffer takes back one escaped byte. -/
theorem unstuff_escape (b : Byte) (rest : List Byte) : unstuff (escape b ++ rest) = (unstuff rest).map (b :: ·) := by
  rcases escape_cases b with ⟨hb, he⟩ | ⟨hb, he⟩ | ⟨hb, he⟩ | ⟨_, _, hn, he⟩ <;> rw [he]
  case inr.inr.inr =>
    show unstuffFrom false (b :: rest) = _
    rw [unstuffFrom_idle, if_neg hn]
  all_goals
    subst hb
    show unstuffFrom false (esc :: _ :: rest) = _
    rw [unstuffFrom_idle, if_pos rfl, unstuffFrom_pending]
    rfl

/-! ## Frames -/

/-- R148: what a candidate frame is. -/
theorem frameBody_iff (f body : List Byte) :
    frameBody f = some body ↔ f = [stx] ++ body ++ [etx] ∧ stx ∉ body ∧ etx ∉ body := by
  cases f with
  | nil => simp [frameBody]
  | cons x rest =>
    simp only [frameBody]
    constructor
    · intro h
      split at h
      · next hc =>
        obtain ⟨hx, h2, h3, h4⟩ := hc
        subst hx
        simp only [Option.some.injEq] at h
        subst h
        refine ⟨?_, h3, h4⟩
        have := List.dropLast_append_getLast? _ h2
        simp only [List.cons_append, List.nil_append]
        rw [this]
      · simp at h
    · rintro ⟨h1, h2, h3⟩
      simp only [List.cons_append, List.nil_append, List.cons.injEq] at h1
      obtain ⟨rfl, rfl⟩ := h1
      rw [if_pos]
      · simp
      · simp [h2, h3]

/-- R149: when decode_body returns a payload. -/
theorem decodeBody_ok (c : Config) (body p : List Byte) :
    decodeBody c body = .ok p ↔
      ∃ u, unstuff body = some u ∧ minDecoded ≤ u.length ∧ u.length ≤ maxDecoded ∧ crc8 c u = 0x00#8 ∧ p = u.dropLast := by
  unfold decodeBody checkUnescaped
  cases unstuff body with
  | none => simp
  | some u =>
    simp only [Option.some.injEq, exists_eq_left']
    constructor
    · intro h
      split at h
      · cases h
      split at h
      · cases h
      split at h
      · cases h
      next h1 h2 h3 =>
      exact ⟨by omega, by omega, Classical.byContradiction h3, (Except.ok.inj h).symm⟩
    · rintro ⟨h1, h2, h3, rfl⟩
      rw [if_neg (by omega), if_neg (by omega), if_neg (by simp [h3])]

/-- A decoded payload holds at least the three header bytes. -/
theorem decodeBody_length {c : Config} {body p : List Byte} (h : decodeBody c body = .ok p) : 3 ≤ p.length := by
  obtain ⟨u, _, h1, _, _, rfl⟩ := (decodeBody_ok c body p).1 h
  have : (4 : Nat) ≤ u.length := h1
  simp
  omega

end Sys2Proof.Machine
end

