-- ==== Sys2Proof/Laws/Config.lean ====
section
/-! SUPPORT. The default parameters meet the constraints of 00_scope.md R9. -/

namespace Sys2Proof

/-- Whether the bytes of a list are pairwise distinct and none is in the set `seen` (a bit per byte value). -/
def distinctFrom : Nat → List Byte → Bool
  | _, [] => true
  | seen, b :: rest => !seen.testBit b.toNat && distinctFrom (seen ||| 1 <<< b.toNat) rest

theorem nodup_of_distinctFrom (l : List Byte) (seen : Nat) (h : distinctFrom seen l = true) :
    l.Nodup ∧ ∀ b ∈ l, seen.testBit b.toNat = false := by
  induction l generalizing seen with
  | nil => simp
  | cons x rest ih =>
    simp only [distinctFrom, Bool.and_eq_true, Bool.not_eq_true'] at h
    obtain ⟨hx, hr⟩ := h
    obtain ⟨h1, h2⟩ := ih _ hr
    simp only [Nat.testBit_or, Bool.or_eq_false_iff] at h2
    refine ⟨List.nodup_cons.2 ⟨fun hm => ?_, h1⟩, fun b hb => ?_⟩
    · have := (h2 x hm).2
      simp [Nat.testBit_shiftLeft] at this
    · rcases List.mem_cons.1 hb with rfl | hb
      · exact hx
      · exact (h2 b hb).1

/-- R9, R123: the default table is a bijection. -/
theorem defaultCrcTable_nodup : defaultCrcTable.toList.Nodup :=
  (nodup_of_distinctFrom _ 0 (by decide +kernel)).1

/-- The parameters at State.reset are legal. -/
theorem Config.default_valid : Config.default.Valid :=
  ⟨by decide, defaultCrcTable_nodup, by decide, by decide, by decide, by decide, by decide, by decide, by decide, by decide,
    by decide, by decide⟩

end Sys2Proof
end

