-- ==== Sys2Proof/Laws/Decode.lean ====
section
/-! SUPPORT. The byte-order helpers, and what the decoder makes of an encoded channel operand. -/

namespace Sys2Proof

theorem leBytes_length (n v : Nat) : (leBytes n v).length = n := by
  induction n generalizing v <;> simp_all [leBytes]

theorem leValue_leBytes (n v : Nat) : leValue (leBytes n v) = v % 256 ^ n := by
  induction n generalizing v with
  | zero => simp [leBytes, leValue, Nat.mod_one]
  | succ n ih =>
    simp only [leBytes, leValue, ih, BitVec.toNat_ofNat]
    rw [show 256 ^ (n + 1) = 256 * 256 ^ n from Nat.pow_succ', Nat.mod_mul]

theorem leBytes_leValue (l : List Byte) : leBytes l.length (leValue l) = l := by
  induction l with
  | nil => rfl
  | cons b rest ih =>
    simp only [List.length_cons, leBytes, leValue]
    congr 1
    · apply BitVec.eq_of_toNat_eq
      simp
      omega
    · rw [show (b.toNat + 256 * leValue rest) / 256 = leValue rest by omega]
      exact ih

theorem leValue_lt (l : List Byte) : leValue l < 256 ^ l.length := by
  induction l with
  | nil => simp [leValue]
  | cons b rest ih =>
    simp only [leValue, List.length_cons, Nat.pow_succ]
    have := b.isLt
    omega

/-- The 8 bytes of a vector, put back. -/
theorem vector_of_bytes (v : Vector Byte 8) : (#v[v[0], v[1], v[2], v[3], v[4], v[5], v[6], v[7]] : Vector Byte 8) = v := by
  apply Vector.ext
  intro j hj
  match j with
  | 0 | 1 | 2 | 3 | 4 | 5 | 6 | 7 => rfl

theorem vectorBytes_eq_toList (v : Vector Byte 8) : vectorBytes v = v.toList := by
  apply List.ext_getElem
  · simp [vectorBytes]
  · intro j _ h
    match j with
    | 0 | 1 | 2 | 3 | 4 | 5 | 6 | 7 => rfl
    | j + 8 => simp at h

/-- The channel operand is read back and the rest is left. -/
theorem decodeScratch_encodeRef (d : ChannelRef) (h : d.wf = true) (rest : List Byte) :
    decodeScratch (encodeRef d ++ rest) = .ok (d, rest) := by
  cases d with
  | slot i => cases h
  | scratch d =>
    have ha : d.address < 2 ^ 64 := by
      simp [ChannelRef.wf, Descriptor.wf] at h
      exact h.1.1
    have hv := leValue_leBytes 8 d.address
    rw [Nat.mod_eq_of_lt (by simpa using ha)] at hv
    simp only [leBytes] at hv
    simp only [encodeRef, leBytes, vectorBytes, List.cons_append, List.nil_append, decodeScratch, hv, vector_of_bytes]

/-- A decoded request is well-formed. -/
theorem decode_wf {bytes : List Byte} {i : Instr} (h : decode bytes = .ok i) : i.wf = true := by
  unfold decode at h
  split at h
  · split at h
    · next hw => cases h; exact hw
    · cases h
  · cases h

end Sys2Proof
end

