-- ==== Sys2Proof/Laws/Dispatcher.lean ====
section
/-! SUPPORT. What the dispatcher does around a command: the node filter, the reply filter, the register operands. -/

namespace Sys2Proof.Machine

theorem addressed_iff (s : State) (h : Header) : addressed s.cfg h.nodeId = true ↔ IsFor s h := by simp [addressed]

/-- R232: a message for this endpoint. -/
theorem receive_for {s : State} {h : Header} (hf : IsFor s h) (command : Byte) (act : State → Reply × State) :
    receive h command act s = finish h command (act s) := by
  simp [receive, (addressed_iff s h).2 hf]

/-- R232: a message for another node. -/
theorem receive_other {s : State} {h : Header} (hf : ¬IsFor s h) (command : Byte) (act : State → Reply × State) :
    receive h command act s = .next (s.drop .notForMe) := by
  have : addressed s.cfg h.nodeId = false := by
    rw [← Bool.not_eq_true]
    exact fun k => hf ((addressed_iff s h).1 k)
  simp [receive, this]

/-- R233, R94: a reply object that fits. -/
theorem finish_body (s : State) (h : Header) (command : Byte) {body : List Byte} (hb : body.length ≤ maxParams) :
    finish h command (.body body, s) = .next { s with tx := s.tx ++ replyFrames s h.msgId command body } := by
  simp only [finish, send, replyTransmitted, replyFrames, replyFrame, messagePayload]
  have hn : ¬ (124 < body.length) := by change body.length ≤ 124 at hb; omega
  by_cases h1 : h.msgId = 0x00#8 <;> by_cases h2 : body = [] <;> simp [h1, h2, hn]

@[simp] theorem finish_silent (s : State) (h : Header) (command : Byte) : finish h command (.silent, s) = .next s := rfl

@[simp] theorem finish_dropped (s : State) (h : Header) (command : Byte) (r : Drop) :
    finish h command (.dropped r, s) = .next (s.drop r) := rfl

@[simp] theorem finish_refused (s : State) (h : Header) (command : Byte) (r : Refusal) :
    finish h command (.refused r, s) = .refused r := rfl

theorem orderBytes_length (o : ByteOrder) (n v : Nat) : (orderBytes o n v).length = n := by
  cases o <;> simp [orderBytes, leBytes_length]

@[simp] theorem wire_length (c : Config) (n v : Nat) : (wire c n v).length = n := orderBytes_length _ _ _

/-- R238: operands that pass. -/
theorem parseRegister_ok (c : Config) {params : List Byte} (h6 : 6 ≤ params.length)
    (h8 : (byteAt params 5).toNat ≤ maxValueBytes) :
    parseRegister c params = .ok ⟨offsetAt c params 0, byteAt params 4, byteAt params 5⟩ := by
  unfold parseRegister
  rw [if_neg (by omega), if_neg (by omega)]

/-- R281, R293: the elapsed ticks as numbers. -/
theorem intervalReached_eq (now base interval : BitVec 32) :
    intervalReached now base interval =
      decide (interval.toNat ≤ (now.toNat + 2 ^ 32 - base.toNat) % 2 ^ 32) := by
  simp only [intervalReached, BitVec.le_def, BitVec.toNat_sub]
  congr 2
  omega

end Sys2Proof.Machine
end

