-- ==== Sys2Proof/Laws/Ring.lean ====
section
/-! SUPPORT. The ring buffer: index arithmetic, the cases of a push step and of a scan step, and that the passes of one
RB.NEXT call are bounded, so that the fuel of `scan` never decides. -/

namespace Sys2Proof.Machine

/-! ## Index arithmetic -/

theorem ringNext_eq {c : Config} {j : Nat} (h : j < c.ringCapacity) :
    ringNext c j = if j + 1 = c.ringCapacity then 0 else j + 1 := by
  unfold ringNext
  split
  · next he => rw [he]; exact Nat.mod_self _
  · exact Nat.mod_eq_of_lt (by omega)

theorem gap_eq {c : Config} {a b : Nat} (ha : a < c.ringCapacity) (hb : b < c.ringCapacity) :
    gap c a b = if a ≤ b then b - a else b + c.ringCapacity - a := by
  unfold gap
  split
  · rw [show b + c.ringCapacity - a = (b - a) + c.ringCapacity by omega, Nat.add_mod_right]
    exact Nat.mod_eq_of_lt (by omega)
  · exact Nat.mod_eq_of_lt (by omega)

theorem lap_eq {c : Config} {a b : Nat} (ha : a < c.ringCapacity) (hb : b < c.ringCapacity) :
    lap c a b = if a < b then b - a else b + c.ringCapacity - a := by
  unfold lap
  split
  · rw [show b + c.ringCapacity - (a + 1) = (b - a - 1) + c.ringCapacity by omega, Nat.add_mod_right,
      Nat.mod_eq_of_lt (by omega)]
    omega
  · rw [Nat.mod_eq_of_lt (by omega)]
    omega

theorem gap_self (c : Config) {a : Nat} (ha : a < c.ringCapacity) : gap c a a = 0 := by
  rw [gap_eq ha ha]; simp

theorem gap_eq_zero {c : Config} {a b : Nat} (ha : a < c.ringCapacity) (hb : b < c.ringCapacity) :
    gap c a b = 0 ↔ a = b := by
  rw [gap_eq ha hb]; split <;> omega

/-! ## Push -/

/-- R171: the two branches of a push step. -/
theorem pushByte_cases (s : State) (b : Byte) :
    (pushRefused s = true ∧ s.pushByte b = s.refusePush) ∨ (pushRefused s = false ∧ s.pushByte b = s.acceptPush b) := by
  unfold State.pushByte
  cases h : pushRefused s <;> simp

/-- The passes the waiting pushes and the coming events can make. -/
theorem pushFuel_eq (s : State) : pushFuel s =
    (s.pushing.map fun bytes => bytes.length + 1).sum +
      (s.arrivals.map fun events => (events.map Arrival.passes).sum).sum := rfl

theorem pushByte_fields (s : State) (b : Byte) :
    (s.pushByte b).pushing = s.pushing ∧ (s.pushByte b).arrivals = s.arrivals := by
  rcases pushByte_cases s b with ⟨_, hp⟩ | ⟨_, hp⟩ <;> rw [hp] <;> exact ⟨rfl, rfl⟩

/-- An iteration moves the pushes on, and leaves the coming events. -/
theorem pushStep_fuel (s : State) :
    s.pushStep.arrivals = s.arrivals ∧ pushFuel s.pushStep ≤ pushFuel s ∧
      (s.pushing ≠ [] → pushFuel s.pushStep + 1 ≤ pushFuel s) := by
  unfold State.pushStep
  split
  · next h => exact ⟨rfl, Nat.le_refl _, fun hne => absurd h hne⟩
  · next later h =>
    refine ⟨rfl, ?_, fun _ => ?_⟩ <;> simp only [pushFuel_eq, State.withPushing_pushing, State.withPushing_arrivals, h, List.map_cons, List.sum_cons,
      List.length_nil] <;> omega
  · next b rest later h =>
    have hf := pushByte_fields (s.withPushing (if pushRefused s || rest.isEmpty then later else rest :: later)) b
    refine ⟨hf.2, ?_, fun _ => ?_⟩ <;>
      rw [pushFuel_eq, hf.1, hf.2, pushFuel_eq, h] <;>
      simp only [State.withPushing_pushing, State.withPushing_arrivals, List.map_cons, List.sum_cons, List.length_cons] <;>
      split <;> (try simp only [List.map_cons, List.sum_cons]) <;> omega

/-- An event adds at most the passes it stands for. -/
theorem apply_fuel (s : State) (e : Arrival) :
    (s.apply e).arrivals = s.arrivals ∧ pushFuel (s.apply e) ≤ pushFuel s + e.passes := by
  cases e with
  | beginPush bytes =>
    refine ⟨rfl, ?_⟩
    simp only [pushFuel_eq, State.apply, State.beginPush_pushing, State.beginPush_arrivals, Arrival.passes, List.map_append, List.sum_append, List.map_cons,
      List.map_nil, List.sum_cons, List.sum_nil]
    omega
  | pushStep => exact ⟨(pushStep_fuel s).1, (pushStep_fuel s).2.1⟩
  | takeText =>
    show s.takeText.arrivals = s.arrivals ∧ pushFuel s.takeText ≤ pushFuel s
    unfold State.takeText
    split
    · exact ⟨rfl, Nat.le_refl _⟩
    · exact ⟨rfl, Nat.le_refl _⟩
  | consumerTurn => exact ⟨rfl, Nat.le_refl _⟩
  | tick => exact ⟨rfl, Nat.le_refl _⟩
  | memoryWrite a b => exact ⟨rfl, Nat.le_refl _⟩
  | nullByte b => exact ⟨rfl, Nat.le_refl _⟩
  | bind e => exact ⟨rfl, Nat.le_refl _⟩
  | request r => exact ⟨rfl, Nat.le_refl _⟩

/-- A boundary never raises the bound. -/
theorem land_fuel (s : State) : pushFuel s.land ≤ pushFuel s := by
  have key : ∀ (l : List Arrival) (u : State), (l.foldl State.apply u).arrivals = u.arrivals ∧
      pushFuel (l.foldl State.apply u) ≤ pushFuel u + (l.map Arrival.passes).sum := by
    intro l
    induction l with
    | nil => exact fun u => ⟨rfl, Nat.le_refl _⟩
    | cons e rest ih =>
      intro u
      obtain ⟨h1, h2⟩ := ih (u.apply e)
      obtain ⟨k1, k2⟩ := apply_fuel u e
      refine ⟨h1.trans k1, ?_⟩
      simp only [List.foldl_cons, List.map_cons, List.sum_cons] at h2 ⊢
      omega
  unfold State.land
  split
  · exact Nat.le_refl _
  · next events later h =>
    have := (key events { s with arrivals := later }).2
    rw [pushFuel_eq { s with arrivals := later }] at this
    rw [pushFuel_eq s, h]
    simp only [List.map_cons, List.sum_cons] at this ⊢
    omega

/-- Once the fuel reaches the bound it no longer matters. -/
theorem runPushes_fuel (fuel fuel' : Nat) (s : State) (hf : pushFuel s ≤ fuel) (hf' : pushFuel s ≤ fuel') :
    runPushes fuel s = runPushes fuel' s := by
  induction fuel generalizing fuel' s with
  | zero =>
    have hp : s.pushing = [] := by
      cases h : s.pushing with
      | nil => rfl
      | cons x rest =>
        rw [pushFuel_eq, h] at hf
        simp only [List.map_cons, List.sum_cons] at hf
        omega
    cases fuel' with
    | zero => rfl
    | succ k => rw [runPushes, runPushes, if_pos hp]
  | succ fuel ih =>
    by_cases hp : s.pushing = []
    · cases fuel' with
      | zero => rw [runPushes, runPushes, if_pos hp]
      | succ k => rw [runPushes, runPushes, if_pos hp, if_pos hp]
    · have h1 := (pushStep_fuel s).2.2 hp
      have h2 := land_fuel s.pushStep
      obtain ⟨k, rfl⟩ : ∃ k, fuel' = k + 1 := ⟨fuel' - 1, by omega⟩
      rw [runPushes, runPushes, if_neg hp, if_neg hp]
      split
      · rfl
      · exact ih k _ (by omega) (by omega)

/-- The pushes that wait at s, run: what RB.PUSH does after it has begun. -/
abbrev finishPushes (s : State) : State := runPushes (pushFuel s) s

/-- Nothing waits: nothing is pushed. -/
theorem finishPushes_none {s : State} (h : s.pushing = []) : finishPushes s = s := by
  unfold finishPushes
  cases hf : pushFuel s with
  | zero => rfl
  | succ k => rw [runPushes, if_pos h]

/-- R172: one iteration; then the end, or the consumer's turn, or the boundary and the rest as if it began there. -/
theorem finishPushes_step {s : State} (h : s.pushing ≠ []) :
    finishPushes s =
      if s.pushStep.pushing = [] || consumerNext s.pushStep then s.pushStep else finishPushes s.pushStep.land := by
  have h1 := (pushStep_fuel s).2.2 h
  have h2 := land_fuel s.pushStep
  obtain ⟨k, hk⟩ : ∃ k, pushFuel s = k + 1 := ⟨pushFuel s - 1, by omega⟩
  unfold finishPushes
  rw [hk, runPushes, if_neg h, runPushes_fuel k (pushFuel s.pushStep.land) _ (by omega) (Nat.le_refl _)]

/-- With nothing else moving every iteration is made. -/
theorem finishPushes_quiet {s : State} (hq : s.arrivals = []) : finishPushes s = finishPushes s.pushStep := by
  have ha := (pushStep_fuel s).1.trans hq
  by_cases h : s.pushing = []
  · rw [State.pushStep, h]
  · rw [finishPushes_step h, land_quiet ha]
    split
    · next hc =>
      rw [consumerNext, ha] at hc
      exact (finishPushes_none (by simpa using hc)).symm
    · rfl

/-- R172 with nothing else moving: the bytes one after another, up to the first refusal. -/
def pushAtRest : List Byte → State → State
  | [], s => s
  | b :: rest, s => if pushRefused s = true then s.refusePush else pushAtRest rest (s.acceptPush b)

/-- What `pushAtRest` leaves alone. -/
theorem pushAtRest_fields (bytes : List Byte) (s : State) :
    (pushAtRest bytes s).pushing = s.pushing ∧ (pushAtRest bytes s).arrivals = s.arrivals := by
  induction bytes generalizing s with
  | nil => exact ⟨rfl, rfl⟩
  | cons b rest ih =>
    unfold pushAtRest
    split
    · exact ⟨rfl, rfl⟩
    · exact ih _

theorem withPushing_acceptPush (s : State) (p : List (List Byte)) (b : Byte) :
    (s.withPushing p).acceptPush b = (s.acceptPush b).withPushing p := rfl

theorem withPushing_refusePush (s : State) (p : List (List Byte)) :
    (s.withPushing p).refusePush = s.refusePush.withPushing p := rfl

theorem pushRefused_withPushing (s : State) (p : List (List Byte)) :
    pushRefused (s.withPushing p) = pushRefused s := rfl

/-- R172: one iteration with a byte to push. -/
theorem pushStep_cons (s : State) (b : Byte) (rest : List Byte) (later : List (List Byte)) :
    (s.withPushing ((b :: rest) :: later)).pushStep =
      if pushRefused s = true then s.refusePush.withPushing later
      else (s.acceptPush b).withPushing (if rest.isEmpty then later else rest :: later) := by
  have h : (s.withPushing ((b :: rest) :: later)).pushStep =
      (s.withPushing (if pushRefused s || rest.isEmpty then later else rest :: later)).pushByte b := rfl
  rw [h, State.pushByte, pushRefused_withPushing, withPushing_acceptPush, withPushing_refusePush]
  cases pushRefused s <;> simp

/-- With nothing else moving the oldest push is made whole, then the others. -/
theorem finishPushes_at_rest (bytes : List Byte) (later : List (List Byte)) {s : State} (hq : s.arrivals = []) :
    finishPushes (s.withPushing (bytes :: later)) = finishPushes ((pushAtRest bytes s).withPushing later) := by
  induction bytes generalizing s with
  | nil => exact finishPushes_quiet (s := s.withPushing ([] :: later)) hq
  | cons b rest ih =>
    rw [finishPushes_quiet (s := s.withPushing ((b :: rest) :: later)) hq, pushStep_cons, pushAtRest]
    split
    · rfl
    · cases rest with
      | nil => rfl
      | cons c rest => exact ih (s := s.acceptPush b) hq

/-- RB.PUSH with nothing else moving and no earlier push unfinished. -/
theorem push_at_rest (bytes : List Byte) {s : State} (hq : s.arrivals = []) (hp : s.pushing = []) :
    exec (.rbPush bytes) s = .next (pushAtRest bytes s) := by
  have e : s.beginPush bytes = s.withPushing [bytes] := by rw [State.beginPush, hp, List.nil_append]
  have k : (pushAtRest bytes s).withPushing [] = pushAtRest bytes s := by
    rw [← hp, ← (pushAtRest_fields bytes s).1]
    rfl
  show Host.Outcome.next (finishPushes (s.beginPush bytes)) = _
  rw [e, finishPushes_at_rest bytes [] hq, finishPushes_none rfl, k]

/-! ## Scan -/

/-- R176: what one scan step can be. -/
theorem scanStep_cases (s : State) :
    (s.slot s.parseIndex = stx ∧ scanStep s = (none, scanStart s)) ∨
    (s.slot s.parseIndex = etx ∧ scanStep s = scanEnd s) ∨
    (s.slot s.parseIndex ≠ stx ∧ s.slot s.parseIndex ≠ etx ∧ scanStep s = (none, s.passSlot)) := by
  unfold scanStep
  by_cases h1 : s.slot s.parseIndex = stx
  · exact .inl ⟨h1, by simp [h1]⟩
  · by_cases h2 : s.slot s.parseIndex = etx
    · exact .inr (.inl ⟨h2, by rw [if_neg h1, if_pos h2]⟩)
    · exact .inr (.inr ⟨h1, h2, by rw [if_neg h1, if_neg h2]⟩)

/-- The fields a scan step leaves alone (R176: "never buf, pushIndex, overrun, crc, escPending"). -/
structure Scanned (s t : State) : Prop where
  same : t = { s with parseIndex := t.parseIndex, frameStart := t.frameStart, startValid := t.startValid, drops := t.drops }
  parseIndex : t.parseIndex = ringNext s.cfg s.parseIndex
  frameStart : t.frameStart = s.frameStart ∨ t.frameStart = s.parseIndex

theorem scanned_start (s : State) : Scanned s (scanStart s) := by
  unfold scanStart
  split
  · exact ⟨rfl, rfl, .inr rfl⟩
  · exact ⟨rfl, rfl, .inr rfl⟩

theorem scanned_end (s : State) : Scanned s (scanEnd s).2 := by
  unfold scanEnd
  split
  · simp only
    split
    · exact ⟨rfl, rfl, .inl rfl⟩
    · exact ⟨rfl, rfl, .inl rfl⟩
  · exact ⟨rfl, rfl, .inl rfl⟩

theorem scanned_step (s : State) : Scanned s (scanStep s).2 := by
  rcases scanStep_cases s with ⟨_, h⟩ | ⟨_, h⟩ | ⟨_, _, h⟩ <;> rw [h]
  · exact scanned_start s
  · exact scanned_end s
  · exact ⟨rfl, rfl, .inl rfl⟩

theorem Scanned.fields {s t : State} (h : Scanned s t) :
    t.cfg = s.cfg ∧ t.pushIndex = s.pushIndex ∧ t.buf = s.buf ∧ t.arrivals = s.arrivals := by
  have := h.same
  refine ⟨?_, ?_, ?_, ?_⟩ <;> rw [this]

/-- The events still to come. -/
def eventsToCome (s : State) : Nat := (s.arrivals.map List.length).sum

/-- The measure of one RB.NEXT call: unparsed bytes and events still to come. -/
def scanMeasure (s : State) : Nat := gap s.cfg s.parseIndex s.pushIndex + eventsToCome s

/-- A push step adds at most one unparsed byte, and keeps the indices in range. -/
theorem pushByte_gap {s : State} (h : IndicesInRange s) (b : Byte) :
    IndicesInRange (s.pushByte b) ∧ (s.pushByte b).arrivals = s.arrivals ∧
      gap (s.pushByte b).cfg (s.pushByte b).parseIndex (s.pushByte b).pushIndex ≤
        gap s.cfg s.parseIndex s.pushIndex + 1 := by
  rcases pushByte_cases s b with ⟨_, hp⟩ | ⟨_, hp⟩ <;> rw [hp]
  · exact ⟨h, rfl, Nat.le_succ _⟩
  · obtain ⟨h1, h2, h3⟩ := h
    refine ⟨⟨ringNext_lt _ _, h2, h3⟩, rfl, ?_⟩
    simp only [State.acceptPush_cfg, State.acceptPush_parseIndex, State.acceptPush_pushIndex]
    rw [gap_eq h2 h1, gap_eq h2 (ringNext_lt _ _), ringNext_eq h1]
    split <;> split <;> split at * <;> omega

/-- One outside event adds at most one unparsed byte, and keeps the indices in range. -/
theorem apply_gap {s : State} (h : IndicesInRange s) (e : Arrival) :
    IndicesInRange (s.apply e) ∧ (s.apply e).arrivals = s.arrivals ∧
      gap (s.apply e).cfg (s.apply e).parseIndex (s.apply e).pushIndex ≤ gap s.cfg s.parseIndex s.pushIndex + 1 := by
  cases e with
  | beginPush bytes => exact ⟨h, rfl, Nat.le_succ _⟩
  | pushStep =>
    show IndicesInRange s.pushStep ∧ s.pushStep.arrivals = s.arrivals ∧
      gap s.pushStep.cfg s.pushStep.parseIndex s.pushStep.pushIndex ≤ _
    rcases pushStep_cases s with hp | ⟨p, hp⟩ | ⟨p, b, hp⟩ <;> rw [hp]
    · exact ⟨h, rfl, Nat.le_succ _⟩
    · exact ⟨h, rfl, Nat.le_succ _⟩
    · exact pushByte_gap (s := s.withPushing p) h b
  | consumerTurn => exact ⟨h, rfl, Nat.le_succ _⟩
  | takeText =>
    show IndicesInRange s.takeText ∧ s.takeText.arrivals = s.arrivals ∧
      gap s.takeText.cfg s.takeText.parseIndex s.takeText.pushIndex ≤ _
    unfold State.takeText
    split
    · exact ⟨h, rfl, Nat.le_succ _⟩
    · exact ⟨h, rfl, Nat.le_succ _⟩
  | tick => exact ⟨h, rfl, Nat.le_succ _⟩
  | memoryWrite a b => exact ⟨h, rfl, Nat.le_succ _⟩
  | nullByte b => exact ⟨h, rfl, Nat.le_succ _⟩
  | bind e => exact ⟨h, rfl, Nat.le_succ _⟩
  | request r => exact ⟨h, rfl, Nat.le_succ _⟩

theorem foldl_gap (events : List Arrival) {s : State} (h : IndicesInRange s) :
    IndicesInRange (events.foldl State.apply s) ∧ (events.foldl State.apply s).arrivals = s.arrivals ∧
      gap (events.foldl State.apply s).cfg (events.foldl State.apply s).parseIndex (events.foldl State.apply s).pushIndex ≤
        gap s.cfg s.parseIndex s.pushIndex + events.length := by
  induction events generalizing s with
  | nil => exact ⟨h, rfl, Nat.le_refl _⟩
  | cons e rest ih =>
    obtain ⟨h1, h2, h3⟩ := apply_gap h e
    obtain ⟨k1, k2, k3⟩ := ih h1
    refine ⟨k1, k2.trans h2, ?_⟩
    simp only [List.foldl_cons, List.length_cons] at k3 ⊢
    omega

/-- A boundary never raises the measure. -/
theorem land_measure {s : State} (h : IndicesInRange s) : IndicesInRange s.land ∧ scanMeasure s.land ≤ scanMeasure s := by
  unfold State.land
  split
  · exact ⟨h, Nat.le_refl _⟩
  · next events later heq =>
    have h0 : IndicesInRange { s with arrivals := later } := h
    obtain ⟨k1, k2, k3⟩ := foldl_gap events h0
    refine ⟨k1, ?_⟩
    simp only [scanMeasure, eventsToCome, k2, heq, List.map_cons, List.sum_cons] at k3 ⊢
    omega

/-- A scan step lowers the measure by one. -/
theorem scanned_measure {s t : State} (h : IndicesInRange s) (hne : s.parseIndex ≠ s.pushIndex) (ht : Scanned s t) :
    IndicesInRange t ∧ scanMeasure t + 1 = scanMeasure s := by
  obtain ⟨h1, h2, h3⟩ := h
  obtain ⟨hc, hp, _, ha⟩ := ht.fields
  have hf : t.frameStart < t.cfg.ringCapacity := by
    rw [hc]
    rcases ht.frameStart with hf | hf <;> rw [hf] <;> assumption
  have hpi : t.parseIndex < t.cfg.ringCapacity := by rw [hc, ht.parseIndex]; exact ringNext_lt _ _
  refine ⟨⟨by rw [hc, hp]; exact h1, hpi, hf⟩, ?_⟩
  have hg : gap t.cfg t.parseIndex t.pushIndex + 1 = gap s.cfg s.parseIndex s.pushIndex := by
    rw [hc, hp, ht.parseIndex, gap_eq h2 h1, gap_eq (ringNext_lt _ _) h1, ringNext_eq h2]
    split <;> split <;> split at * <;> omega
  simp only [scanMeasure, eventsToCome, ha]
  omega

/-- Once the fuel is above the measure it no longer matters. -/
theorem scan_fuel (fuel fuel' : Nat) {s : State} (h : IndicesInRange s) (hf : scanMeasure s < fuel)
    (hf' : scanMeasure s < fuel') : scan fuel s = scan fuel' s := by
  induction fuel generalizing fuel' s with
  | zero => omega
  | succ fuel ih =>
    obtain ⟨fuel', rfl⟩ : ∃ k, fuel' = k + 1 := ⟨fuel' - 1, by omega⟩
    unfold scan
    split
    · rfl
    · next hne =>
      obtain ⟨ht, hm⟩ := scanned_measure h hne (scanned_step s)
      obtain ⟨hl, hlm⟩ := land_measure ht
      cases hs : scanStep s with
      | mk m t =>
        rw [hs] at hl hlm hm
        cases m with
        | some m => rfl
        | none => exact ih fuel' hl (by simp only at hlm hm; omega) (by simp only at hlm hm; omega)

/-- The fuel of RB.NEXT is above the measure. -/
theorem scanMeasure_lt_fuel (s : State) : scanMeasure s < scanFuel s := by
  have : gap s.cfg s.parseIndex s.pushIndex < s.cfg.ringCapacity := Nat.mod_lt _ (Config.ringCapacity_pos _)
  simp only [scanMeasure, eventsToCome, scanFuel]
  omega

/-! ## RB.NEXT, one pass at a time -/

theorem next_empty {s : State} (h : s.parseIndex = s.pushIndex) :
    exec .rbNext s = .next (s.withResult (.message none)) := by
  simp only [exec, execRbNext, scanFuel]
  unfold scan
  rw [if_pos h]

theorem next_message {s t : State} {m : Message} (hne : s.parseIndex ≠ s.pushIndex) (hs : scanStep s = (some m, t)) :
    exec .rbNext s = .next (t.withResult (.message (some m))) := by
  simp only [exec, execRbNext, scanFuel]
  unfold scan
  rw [if_neg hne, hs]

/-- A scan step without a message, then the boundary, then RB.NEXT goes on as if it began there. -/
theorem next_continues {s t : State} (h : IndicesInRange s) (hne : s.parseIndex ≠ s.pushIndex)
    (hs : scanStep s = (none, t)) : exec .rbNext s = exec .rbNext t.land := by
  have ⟨ht, hm⟩ := scanned_measure h hne (scanned_step s)
  rw [hs] at ht hm
  have ⟨hl, hlm⟩ := land_measure ht
  have h1 := scanMeasure_lt_fuel s
  have h2 := scanMeasure_lt_fuel t.land
  have e : scan (scanFuel s) s = scan (scanFuel t.land) t.land := by
    obtain ⟨k, hk⟩ : ∃ k, scanFuel s = k + 1 := ⟨scanFuel s - 1, by omega⟩
    rw [hk]
    conv => lhs; unfold scan
    rw [if_neg hne, hs]
    simp only at hm hlm ⊢
    exact scan_fuel _ _ hl (by omega) h2
  simp only [exec, execRbNext, e]

/-! ## Room in the ring -/

/-- R172: how many more bytes the producer can push. -/
def room (s : State) : Nat :=
  if s.startValid = true then gap s.cfg s.pushIndex s.frameStart else s.cfg.ringCapacity - 1 - gap s.cfg s.parseIndex s.pushIndex

theorem pushRefused_iff {s : State} (h : IndicesInRange s) : pushRefused s = true ↔ room s = 0 := by
  obtain ⟨h1, h2, h3⟩ := h
  unfold pushRefused room
  rcases (Bool.eq_false_or_eq_true s.startValid).symm with hv | hv
  · simp only [hv, Bool.false_eq_true, if_false, beq_iff_eq]
    rw [ringNext_eq h1, gap_eq h2 h1]
    split <;> split <;> omega
  · simp only [hv, if_true, beq_iff_eq]
    rw [gap_eq_zero h1 h3]

/-- An accepted byte takes one place of the room. -/
theorem room_acceptPush {s : State} (h : IndicesInRange s) (hr : pushRefused s = false) (b : Byte) :
    IndicesInRange (s.acceptPush b) ∧ room (s.acceptPush b) + 1 = room s := by
  have hnz : ¬ room s = 0 := by
    rw [← pushRefused_iff h, hr]
    simp
  obtain ⟨h1, h2, h3⟩ := h
  refine ⟨⟨ringNext_lt _ _, h2, h3⟩, ?_⟩
  have hlt := ringNext_lt s.cfg s.pushIndex
  have hq := ringNext_eq h1
  have g1 := gap_eq h2 hlt
  have g2 := gap_eq h2 h1
  have g3 := gap_eq hlt h3
  have g4 := gap_eq h1 h3
  unfold room at hnz ⊢
  simp only [State.acceptPush_startValid, State.acceptPush_cfg, State.acceptPush_pushIndex, State.acceptPush_frameStart,
    State.acceptPush_parseIndex, g1, g2, g3, g4] at hnz ⊢
  generalize ringNext s.cfg s.pushIndex = q at *
  generalize s.cfg.ringCapacity = N at *
  rcases (Bool.eq_false_or_eq_true s.startValid).symm with hv | hv
  · simp only [hv, Bool.false_eq_true, if_false] at hnz ⊢
    clear g1 g2 g3 g4
    split at hq <;> (repeat' split at hnz) <;> (repeat' split) <;> omega
  · simp only [hv, if_true] at hnz ⊢
    clear g1 g2 g3 g4
    split at hq <;> (repeat' split at hnz) <;> (repeat' split) <;> omega

/-- A slot after a store. -/
theorem slot_store (s : State) (a j : Nat) (b : Byte) :
    State.slot { s with buf := Memory.store s.buf a b } j = if j = a then b else s.slot j := by
  simp only [State.slot, Memory.find_store]
  split <;> rfl

end Sys2Proof.Machine
end

