-- ==== Sys2Proof/Laws/Effects.lean ====
section
/-! SUPPORT. Everything an instruction can do, said once: the elementary changes of state an instruction may make, and that
an instruction that completes makes a sequence of them. An invariant of the machine needs one case for each. -/

namespace Sys2Proof.Machine

/-- The instruction handles a message with this command (R231). -/
abbrev Handles (i : Instr) (command : Byte) : Prop := commandOf i = some command

/-- One elementary change, and which instructions may make it. -/
inductive Effect (i : Instr) : State → State → Prop
  /-- a boundary at which something is planned (R66) -/
  | land (s : State) (h : s.arrivals ≠ []) : Effect i s s.land
  | drop (s : State) (r : Drop) : Effect i s (s.drop r)
  | result (s : State) (r : PortResult) : Effect i s (s.withResult r)
  | crc (s : State) (c : Byte) (h : i = .crcClr ∨ ∃ b, i = .crcUpd b) : Effect i s { s with crc := c }
  | escape (s : State) (p : Bool) (h : i = .crcClr ∨ ∃ w, i = .escGet w) : Effect i s { s with escPending := p }
  | push (s : State) (b : Byte) (h : ∃ bytes, i = .rbPush bytes) : Effect i s (s.pushByte b)
  | pushing (s : State) (p : List (List Byte)) (h : ∃ bytes, i = .rbPush bytes) : Effect i s (s.withPushing p)
  | scan (s : State) (h : i = .rbNext) (hne : s.parseIndex ≠ s.pushIndex) : Effect i s (scanStep s).2
  | write (s : State) (a : Address) (b : Byte) (h : Handles i cmdWrite ∨ ∃ d v, i = .chWr d v)
      (hn : wrap s.cfg a ≠ s.cfg.null) :
      Effect i s (s.writeByte a b)
  | latch (s : State) (j : Fin 16) (l : Vector Byte 8) (h : i = .tmPoll ∨ i = .chRd (.slot j)) :
      Effect i s (s.setChannel j { s.ch[j] with previousValue := l })
  | mode (s : State) (j : Fin 16) (m : Byte) (h : Handles i cmdConfig) :
      Effect i s (s.setChannel j { s.ch[j] with updateMode := m })
  | configure (s : State) (j : Fin 16) (ps : List Byte) (h : Handles i cmdConfig)
      (hs : (byteAt ps 7).toNat ≤ maxValueBytes) :
      Effect i s (s.setChannel j (configuredChannel s.cfg s.resolver ps))
  | arm (s : State) (h : Handles i cmdConfig ∨ Handles i cmdReadChannelData) : Effect i s { s with tracingOnce := true }
  | trace (s : State) (on : Bool) (h : Handles i cmdReadChannelData) : Effect i s { s with tracingOn := on }
  | decimate (s : State) (v : Byte) (h : Handles i cmdDecimation) : Effect i s { s with decimation := decimationOf v }
  | resetTime (s : State) (h : Handles i cmdResetTime) :
      Effect i s { s with timeTicks := 0, lastFastUpdate := 0, lastSlowUpdate := 0 }
  | text (s : State) (b : Byte) (h : Handles i cmdDebugString) (hf : textFull s = false) :
      Effect i s (s.storeText b)
  | tick (s : State) (h : i = .tmTick) : Effect i s s.tick
  | beginScan (s : State) (h : i = .tmPoll) : Effect i s s.beginScan
  | disarm (s : State) (h : i = .tmPoll) : Effect i s { s with tracingOnce := false }
  | transmit (s : State) (f : List Byte)
      (h : (∃ c, Handles i c) ∨ i = .tmPoll ∨ ∃ ts mask values, i = .tlmTelemetry ts mask values) :
      Effect i s { s with tx := s.tx ++ [f] }
  | reset (s : State) (h : i = .rst) : Effect i s s.resetBlock

/-- A sequence of elementary changes. -/
inductive Effects (i : Instr) : State → State → Prop
  | refl (s : State) : Effects i s s
  | tail {s t u : State} (h : Effects i s t) (e : Effect i t u) : Effects i s u

theorem Effects.single {i : Instr} {s t : State} (e : Effect i s t) : Effects i s t := .tail (.refl s) e

theorem Effects.trans {i : Instr} {s t u : State} (h : Effects i s t) (k : Effects i t u) : Effects i s u := by
  induction k with
  | refl => exact h
  | tail _ e ih => exact .tail ih e

/-- A property every elementary change keeps is kept by the sequence. -/
theorem Effects.keep {i : Instr} {P : State → Prop} (hstep : ∀ s t, Effect i s t → P s → P t) {s t : State}
    (h : Effects i s t) (hs : P s) : P t := by
  induction h with
  | refl => exact hs
  | tail _ e ih => exact hstep _ _ e ih

/-! ## The shared operations -/

theorem effects_land (i : Instr) (s : State) : Effects i s s.land := by
  by_cases h : s.arrivals = []
  · rw [land_quiet h]; exact .refl s
  · exact .single (.land s h)

theorem effects_readBytes (i : Instr) (n : Nat) (a : Address) (s : State) : Effects i s (readBytes n a s).2 := by
  induction n generalizing a s with
  | zero => exact .refl s
  | succ n ih => exact (effects_land i s).trans (ih (a + 1) s.land)

theorem effects_chaseFrom (i : Instr) (depth : Nat) (p : Address) (s : State) : Effects i s (chaseFrom depth p s).2 := by
  induction depth generalizing p s with
  | zero => exact .refl s
  | succ depth ih =>
    have hr : Effects i s (readPointer p s).2 := effects_readBytes i s.cfg.ptrBytes p s
    cases hq : readPointer p s with
    | mk q t =>
      rw [hq] at hr
      simp only [chaseFrom, hq]
      split
      · exact hr
      · exact hr.trans (ih q t)

theorem effects_chase (i : Instr) (a : Address) (depth : Nat) (s : State) : Effects i s (chase a depth s).2 := by
  unfold chase
  split
  · exact .single (.drop s _)
  · have hc := effects_chaseFrom i depth (wrap s.cfg a) s
    split
    · next heq => rwa [heq] at hc
    · next heq => rw [heq] at hc; exact .tail hc (.drop _ _)

theorem effects_readChannel (i : Instr) (d : Descriptor) (s : State) : Effects i s (readChannel d s).2 := by
  have hc := effects_chase i d.address d.dereferenceDepth.toNat s
  unfold readChannel
  split
  · next heq => rwa [heq] at hc
  · next p t heq => rw [heq] at hc; exact hc.trans (effects_readBytes i d.sizeBytes.toNat p t)

theorem effects_readSlot {i : Instr} (j : Fin 16) (h : i = .tmPoll ∨ i = .chRd (.slot j)) (s : State) :
    Effects i s (readSlot j s).2 := by
  have hc := effects_readChannel i s.ch[j].descriptor s
  unfold readSlot
  split
  next r t heq =>
  rw [heq] at hc
  simp only
  split
  · exact .tail hc (.latch t j r.latch h)
  · exact hc

theorem effects_writeBytes {i : Instr} (h : Handles i cmdWrite ∨ ∃ d v, i = .chWr d v) (v : List Byte) (a : Address)
    (s : State) : Effects i s (writeBytes v a s) := by
  induction v generalizing a s with
  | nil => exact .refl s
  | cons b rest ih =>
    have hs : Effects i s (s.storeByte a b) := by
      rcases storeByte_cases s a b with ⟨_, he⟩ | ⟨hn, he⟩ <;> rw [he]
      · exact .refl s
      · exact .single (.write s a b h hn)
    exact (hs.trans (effects_land i _)).trans (ih (a + 1) _)

theorem effects_writeChannel {i : Instr} (h : Handles i cmdWrite ∨ ∃ d v, i = .chWr d v) (d : Descriptor)
    (v : List Byte) (s : State) : Effects i s (writeChannel d v s) := by
  have hc := effects_chase i d.address d.dereferenceDepth.toNat s
  unfold writeChannel
  split
  · next heq => rwa [heq] at hc
  · next p t heq => rw [heq] at hc; exact hc.trans (effects_writeBytes h _ p t)

theorem effects_pushStep {i : Instr} (h : ∃ bytes, i = .rbPush bytes) (s : State) : Effects i s s.pushStep := by
  rcases pushStep_cases s with hp | ⟨p, hp⟩ | ⟨p, b, hp⟩ <;> rw [hp]
  · exact .refl s
  · exact .single (.pushing s p h)
  · exact .tail (.single (.pushing s p h)) (.push _ b h)

theorem effects_runPushes {i : Instr} (h : ∃ bytes, i = .rbPush bytes) (fuel : Nat) (s : State) :
    Effects i s (runPushes fuel s) := by
  induction fuel generalizing s with
  | zero => exact .refl s
  | succ fuel ih =>
    unfold runPushes
    split
    · exact .refl s
    · have hs := effects_pushStep h s
      split
      · exact hs
      · exact (hs.trans (effects_land i _)).trans (ih _)

theorem effects_scan (fuel : Nat) (s : State) : Effects .rbNext s (scan fuel s).2 := by
  induction fuel generalizing s with
  | zero => exact .refl s
  | succ fuel ih =>
    unfold scan
    split
    · exact .refl s
    · next hne =>
      have he : Effects .rbNext s (scanStep s).2 := .single (.scan s rfl hne)
      cases hs : scanStep s with
      | mk m t =>
        rw [hs] at he
        cases m with
        | some m => exact he
        | none => exact (he.trans (effects_land _ t)).trans (ih t.land)

theorem effects_appendText {i : Instr} (h : Handles i cmdDebugString) (text : List Byte) (s : State) :
    Effects i s (appendText text s) := by
  induction text generalizing s with
  | nil => exact .refl s
  | cons b rest ih =>
    unfold appendText
    split
    · exact .single (.drop s _)
    · next hf => exact ((Effects.single (.text s b h (by simpa using hf))).trans (effects_land i _)).trans (ih _)

theorem effects_scanChannels (slowDue once : Bool) (s : State) : Effects .tmPoll s (scanChannels slowDue once s).2 := by
  have key : ∀ (l : List (Fin 16)) (x : Multiplex × State), Effects .tmPoll s x.2 →
      Effects .tmPoll s (l.foldl (visitChannel slowDue once) x).2 := by
    intro l
    induction l with
    | nil => exact fun _ hx => hx
    | cons j rest ih =>
      intro x hx
      refine ih _ ?_
      have := effects_readSlot j (Or.inl rfl) x.2
      exact hx.trans this
  exact key channelOrder _ (.refl s)

/-! ## The commands -/

theorem effects_handle {i : Instr} {command : Byte} (h : Handles i command) (ps : List Byte) (s : State) :
    Effects i s (handle command ps s).2 := by
  unfold handle
  split
  · exact .refl s
  split
  · exact .refl s
  split
  · next hc =>
    subst hc
    unfold doWrite
    split
    · exact .refl s
    · split
      · exact .refl s
      · exact effects_writeChannel (Or.inl h) _ _ s
  split
  · next hc =>
    unfold doQuery
    split
    · exact .refl s
    · next o _ =>
      have := effects_readChannel i (scratchDescriptor s.cfg s.resolver o) s
      split
      next heq => rwa [heq] at this
  split
  · next hc =>
    subst hc
    unfold doConfig
    split
    · exact .refl s
    unfold withChannel
    split
    · next hi =>
      unfold configForm
      split
      · exact .refl s
      split
      · unfold configMode
        have hm := Effects.single (Effect.mode s ⟨(byteAt ps 0).toNat, hi⟩ (byteAt ps 1) h)
        by_cases hs : byteAt ps 1 = s.cfg.mode.sendOnce
        · simp only [hs, if_true]
          rw [hs] at hm
          exact .tail hm (.arm _ (Or.inl h))
        · simp only [hs, if_false]
          exact hm
      split
      · unfold configFull
        split
        · exact .refl s
        · next hb => exact .single (.configure s _ ps h (by omega))
      split
      · exact .refl s
      · exact .refl s
    · exact .refl s
  split
  · next hc =>
    subst hc
    unfold doDecimation
    split
    · exact .refl s
    · exact .single (.decimate s _ h)
  split
  · next hc => subst hc; exact .single (.resetTime s h)
  split
  · next hc =>
    subst hc
    unfold doReadChannelData
    split
    · exact .refl s
    · unfold tracingSelect
      split
      · exact .single (.trace s _ h)
      split
      · exact .single (.trace s _ h)
      split
      · exact .single (.arm s (Or.inr h))
      · exact .refl s
  split
  · next hc => subst hc; exact effects_appendText h ps s
  · exact .refl s

theorem effects_finish {i : Instr} {command : Byte} (h : Handles i command) (hd : Header) (x : Reply × State)
    {t : State} (he : finish hd command x = .next t) : Effects i x.2 t := by
  obtain ⟨r, s⟩ := x
  unfold finish at he
  split at he
  · next b u hx =>
    cases hx
    split at he
    · unfold send at he
      split at he
      · cases he
      · cases he; exact .single (.transmit _ _ (Or.inl ⟨command, h⟩))
    · cases he; exact .refl _
  · next hx => cases hx; cases he; exact .refl _
  · next hx => cases hx; cases he; exact .single (.drop _ _)
  · cases he

theorem effects_receive {i : Instr} {command : Byte} (h : Handles i command) (hd : Header) (ps : List Byte) (s : State)
    {t : State} (he : receive hd command (handle command ps) s = .next t) : Effects i s t := by
  unfold receive at he
  split at he
  · exact (effects_handle h ps s).trans (effects_finish h hd _ he)
  · cases he; exact .single (.drop s _)

theorem effects_emit {i : Instr} (hi : i = .tmPoll ∨ ∃ ts mask values, i = .tlmTelemetry ts mask values)
    (ts : BitVec 24) (mask : BitVec 16) (values : List Byte) (s : State) {t : State}
    (he : emitTelemetry ts mask values s = .next t) : Effects i s t := by
  unfold emitTelemetry at he
  split at he
  · cases he; exact .refl s
  · unfold send at he
    split at he
    · cases he
    · cases he; exact .single (.transmit s _ (Or.inr hi))

theorem effects_poll (s : State) {t : State} (he : execTmPoll s = .next t) : Effects .tmPoll s t := by
  unfold execTmPoll at he
  split at he
  · unfold pollScan at he
    have hb : Effects .tmPoll s s.beginScan := .single (.beginScan s rfl)
    have hs := effects_scanChannels (slowBoundary s) s.tracingOnce s.beginScan
    split at he
    next x u heq =>
    rw [heq] at hs
    exact (Effects.tail (hb.trans hs) (.disarm u rfl)).trans (effects_emit (Or.inl rfl) _ _ _ _ he)
  · cases he; exact .refl s

/-- The machine's meaning of an instruction is a sequence of the elementary changes it may make. -/
theorem exec_effects {i : Instr} {s t : State} (h : exec i s = .next t) : Effects i s t := by
  cases i with
  | op0Reserved => cases h; exact .refl s
  | crcClr => cases h; exact .tail (.single (.crc s crcSeed (Or.inl rfl))) (.escape _ false (Or.inl rfl))
  | crcUpd b => cases h; exact .single (.crc s _ (Or.inr ⟨b, rfl⟩))
  | crcChk => cases h; exact .single (.result s _)
  | escPut b => cases h; exact .single (.result s _)
  | escGet w =>
    cases h
    exact .tail (.single (.escape s (unescapeStep s.escPending w).2 (Or.inr ⟨w, rfl⟩)))
      (.result _ (.unescaped (unescapeStep s.escPending w).1))
  | frmEnc p => cases h; exact .single (.result s _)
  | frmDec f => cases h; exact .single (.result s _)
  | rbPush bytes => cases h; exact .trans (.single (.pushing s _ ⟨bytes, rfl⟩)) (effects_runPushes ⟨bytes, rfl⟩ _ _)
  | rbNext => cases h; exact .tail (effects_scan _ s) (.result _ _)
  | chRd d =>
    cases d with
    | slot j => cases h; exact .tail (effects_readSlot j (Or.inr rfl) s) (.result _ _)
    | scratch d => cases h; exact .tail (effects_readChannel _ d s) (.result _ _)
  | chWr d v => cases h; exact effects_writeChannel (Or.inr ⟨d, v, rfl⟩) _ _ s
  | dspMsg m => exact effects_receive rfl _ _ s h
  | tmTick => cases h; exact .single (.tick s rfl)
  | tmPoll => exact effects_poll s h
  | rst => cases h; exact .single (.reset s rfl)
  | vGetVersion hd ps => exact effects_receive (command := cmdVersion) rfl hd ps s h
  | iGetInfo hd ps => exact effects_receive (command := cmdInfo) rfl hd ps s h
  | wWriteRegister hd ps => exact effects_receive (command := cmdWrite) rfl hd ps s h
  | qQueryRegister hd ps => exact effects_receive (command := cmdQuery) rfl hd ps s h
  | cConfigQuery hd x => exact effects_receive (command := cmdConfig) rfl hd [x] s h
  | cConfigMode hd x y => exact effects_receive (command := cmdConfig) rfl hd [x, y] s h
  | cConfigFull hd ps => exact effects_receive (command := cmdConfig) rfl hd ps s h
  | dDecimationQuery hd => exact effects_receive (command := cmdDecimation) rfl hd [] s h
  | dDecimationSet hd x ps => exact effects_receive (command := cmdDecimation) rfl hd (x :: ps) s h
  | tResetTime hd ps => exact effects_receive (command := cmdResetTime) rfl hd ps s h
  | rReadChannelData hd ps => exact effects_receive (command := cmdReadChannelData) rfl hd ps s h
  | sDebugString hd ps => exact effects_receive (command := cmdDebugString) rfl hd ps s h
  | tlmTelemetry ts mask values => exact effects_emit (Or.inr ⟨ts, mask, values, rfl⟩) ts mask values s h

/-! ## From elementary changes to a step -/

/-- A property every outside event keeps is kept at a boundary. -/
theorem land_keep {P : State → Prop} (happly : ∀ s e, P s → P (s.apply e))
    (harrivals : ∀ s later, P s → P { s with arrivals := later }) {s : State} (hs : P s) : P s.land := by
  have key : ∀ (l : List Arrival) (u : State), P u → P (l.foldl State.apply u) := by
    intro l
    induction l with
    | nil => exact fun _ h => h
    | cons e rest ih => exact fun u h => ih _ (happly u e h)
  unfold State.land
  split
  · exact hs
  · next events later _ => exact key events _ (harrivals s later hs)

/-- What a step adds around exec: the boundary before it, the request taken from the queue, the loop's position. -/
theorem step_keep {P : State → Prop} (hland : ∀ s, P s → P s.land)
    (hexec : ∀ i s t, exec i s = .next t → P s → P t)
    (hrequests : ∀ s waiting, P s → P { s with requests := waiting })
    (hloop : ∀ s l, P s → P { s with loop := l }) {s t : State} (h : step s = .next t) (hs : P s) : P t := by
  have hl := hland s hs
  unfold step runNext at h
  split at h
  · unfold runRequest at h
    split at h
    · exact hexec _ _ _ h (hrequests _ _ hl)
    · cases h
  · unfold mainLoopStep at h
    split at h
    · split at h
      · next heq =>
        have hn := hexec _ _ _ heq hl
        cases h
        unfold afterNext
        split <;> exact hloop _ _ hn
      · cases h
      · cases h
    · exact hexec _ _ _ h (hloop _ _ hl)
    · exact hexec _ _ _ h (hloop _ _ hl)

end Sys2Proof.Machine
end

