-- ==== Sys2Proof/Laws/PerInstr.lean ====
section
/-! SUPPORT. Per instruction: the first byte of its encoding is the row's match value in spec/opcode_table.json. -/

namespace Sys2Proof.Laws

/-- The match column of the opcode table. -/
def tableMatch : Instr → Byte
  | .op0Reserved => 0x00#8
  | .crcClr => 0x01#8
  | .crcUpd _ => 0x02#8
  | .crcChk => 0x03#8
  | .escPut _ => 0x04#8
  | .escGet _ => 0x05#8
  | .frmEnc _ => 0x06#8
  | .frmDec _ => 0x07#8
  | .rbPush _ => 0x08#8
  | .rbNext => 0x09#8
  | .chRd _ => 0x0A#8
  | .chWr _ _ => 0x0B#8
  | .dspMsg _ => 0x0C#8
  | .tmTick => 0x0D#8
  | .tmPoll => 0x0E#8
  | .rst => 0x0F#8
  | .vGetVersion _ _ => 0x56#8
  | .iGetInfo _ _ => 0x49#8
  | .wWriteRegister _ _ => 0x57#8
  | .qQueryRegister _ _ => 0x51#8
  | .cConfigQuery _ _ => 0x43#8
  | .cConfigMode _ _ _ => 0x43#8
  | .cConfigFull _ _ => 0x43#8
  | .dDecimationQuery _ => 0x44#8
  | .dDecimationSet _ _ _ => 0x44#8
  | .tResetTime _ _ => 0x54#8
  | .rReadChannelData _ _ => 0x52#8
  | .sDebugString _ _ => 0x53#8
  | .tlmTelemetry _ _ _ => 0x52#8

/-- The encoding begins with the row's select. -/
def EncodedSelect.Statement (i : Instr) : Prop := (encode i).head? = some (tableMatch i)

namespace EncodedSelect

theorem op0Reserved : Statement .op0Reserved := rfl
theorem crcClr : Statement .crcClr := rfl
theorem crcUpd (b : Byte) : Statement (.crcUpd b) := rfl
theorem crcChk : Statement .crcChk := rfl
theorem escPut (b : Byte) : Statement (.escPut b) := rfl
theorem escGet (w : Byte) : Statement (.escGet w) := rfl
theorem frmEnc (payload : List Byte) : Statement (.frmEnc payload) := rfl
theorem frmDec (frame : List Byte) : Statement (.frmDec frame) := rfl
theorem rbPush (bytes : List Byte) : Statement (.rbPush bytes) := rfl
theorem rbNext : Statement .rbNext := rfl
theorem chRd (d : ChannelRef) : Statement (.chRd d) := rfl
theorem chWr (d : ChannelRef) (v : Vector Byte 8) : Statement (.chWr d v) := rfl
theorem dspMsg (m : Message) : Statement (.dspMsg m) := rfl
theorem tmTick : Statement .tmTick := rfl
theorem tmPoll : Statement .tmPoll := rfl
theorem rst : Statement .rst := rfl
theorem vGetVersion (h : Header) (params : List Byte) : Statement (.vGetVersion h params) := rfl
theorem iGetInfo (h : Header) (params : List Byte) : Statement (.iGetInfo h params) := rfl
theorem wWriteRegister (h : Header) (params : List Byte) : Statement (.wWriteRegister h params) := rfl
theorem qQueryRegister (h : Header) (params : List Byte) : Statement (.qQueryRegister h params) := rfl
theorem cConfigQuery (h : Header) (index : Byte) : Statement (.cConfigQuery h index) := rfl
theorem cConfigMode (h : Header) (index : Byte) (mode : Byte) : Statement (.cConfigMode h index mode) := rfl
theorem cConfigFull (h : Header) (params : List Byte) : Statement (.cConfigFull h params) := rfl
theorem dDecimationQuery (h : Header) : Statement (.dDecimationQuery h) := rfl
theorem dDecimationSet (h : Header) (value : Byte) (extra : List Byte) : Statement (.dDecimationSet h value extra) := rfl
theorem tResetTime (h : Header) (params : List Byte) : Statement (.tResetTime h params) := rfl
theorem rReadChannelData (h : Header) (params : List Byte) : Statement (.rReadChannelData h params) := rfl
theorem sDebugString (h : Header) (text : List Byte) : Statement (.sDebugString h text) := rfl
theorem tlmTelemetry (timestamp : BitVec 24) (mask : BitVec 16) (values : List Byte) : Statement (.tlmTelemetry timestamp mask values) := rfl

end EncodedSelect

end Sys2Proof.Laws
end

