-- ==== Sys2Proof/Tests/Slice0.lean ====
section
/-! SUPPORT. Tests: ill-formed terms refused, words of the spec decoded, vectors of 95_test_vectors.md (named in each
comment), and for every obligation with hypotheses a witness that meets them. -/

namespace Sys2Proof.Tests

-- One theorem after another: the package is compiled as one text, and each waiting proof would hold a thread.
set_option Elab.async false

open Sys2Proof.Machine

/-! ## Helpers -/

/-- Cells from an address on. -/
def cells : Nat → List Byte → Memory
  | _, [] => []
  | a, b :: rest => (a, b) :: cells (a + 1) rest

/-- The reset state with a ring of 2^k slots whose first slots hold `bytes`, pushed and not yet parsed. -/
def ring (k : Nat) (bytes : List Byte) : State :=
  { State.reset with cfg := { Config.default with rbK := k }, buf := cells 0 bytes, pushIndex := bytes.length }

/-- The reset state with target memory. -/
def withMem (m : Memory) : State := { State.reset with mem := m }

/-- The next state, if there is one. -/
def after (i : Instr) (s : State) : Option State :=
  match exec i s with
  | .next t => some t
  | _ => none

/-- The refusal, if there is one. -/
def refusalOf (i : Instr) (s : State) : Option Refusal :=
  match exec i s with
  | .refused r => some r
  | _ => none

/-- The instruction the decoder reads, if any. -/
def decoded (bytes : List Byte) : Option Instr :=
  match decode bytes with
  | .ok i => some i
  | .error _ => none

/-- The decoder's rejection, if any. -/
def rejected (bytes : List Byte) : Option DecodeError :=
  match decode bytes with
  | .ok _ => none
  | .error e => some e

/-- Memory of the vectors C1 to C5. -/
def chain : State := withMem (cells 0x1000 [0x00, 0x20, 0x00, 0x00] ++ cells 0x2000 [0x00, 0x30, 0x00, 0x00] ++
  cells 0x3000 [0x2A, 0x00])

/-- A descriptor with a zero latch. -/
def plain (address : Address) (depth size : Byte) : Descriptor := ⟨address, depth, size, Vector.replicate 8 0⟩

/-- The header of a message to node 7. -/
def toNode (msgId : Byte) : Header := ⟨0x07, msgId⟩

/-- A message to another node. -/
def toOther : Header := ⟨0x08, 0x03⟩

/-- A channel of depth 0 with a zero latch. -/
def chan (address : Address) (size mode : Byte) : Channel := { Channel.zeroed Config.default with
  address := address, sizeBytes := size, updateMode := mode }

/-- The reset state after a tick with tracing on, one byte 77 at 0x50, and one channel that reads it. -/
def scanning (i : Fin 16) (mode : Byte) : State := { withMem (cells 0x50 [0x77]) with
  timeTicks := 1, tracingOn := true, ch := State.reset.ch.set i (chan 0x50 1 mode) }

/-- An operation whose next state a computation finds. -/
theorem exists_next {i : Instr} {s : State} (h : (after i s).isSome = true) : ∃ t, exec i s = .next t := by
  unfold after at h
  cases he : exec i s with
  | next t => exact ⟨t, rfl⟩
  | fault r => simp [he] at h
  | refused r => simp [he] at h

/-! ## WellFormed: one ill-formed term per check -/

theorem test_wf_depth : (Instr.chRd (.scratch (plain 0x1000 16 1))).wf = false := by decide
/-- R31: the port cannot name a slot. -/
theorem test_wf_slot : [Instr.chRd (.slot 3), .chWr (.slot 3) (Vector.replicate 8 0)].map Instr.wf = [false, false] := by decide
theorem test_wf_size : (Instr.chWr (.scratch (plain 0x1000 0 9)) (Vector.replicate 8 0)).wf = false := by decide
theorem test_wf_address : (Instr.chRd (.scratch (plain (2 ^ 64) 0 1))).wf = false := by decide +kernel
theorem test_wf_boundary : (Instr.chRd (.scratch (plain (2 ^ 64 - 1) 15 8))).wf = true := by decide +kernel

/-- 125 parameter bytes in every row that takes a list. -/
theorem test_wf_params :
    ((fun ps => [Instr.dspMsg ⟨0, 0, 0, ps⟩, .vGetVersion ⟨0, 0⟩ ps, .iGetInfo ⟨0, 0⟩ ps, .wWriteRegister ⟨0, 0⟩ ps,
      .qQueryRegister ⟨0, 0⟩ ps, .cConfigFull ⟨0, 0⟩ ps, .tResetTime ⟨0, 0⟩ ps, .rReadChannelData ⟨0, 0⟩ ps,
      .sDebugString ⟨0, 0⟩ ps].map Instr.wf) (List.replicate 125 0)) = List.replicate 9 false := by decide +kernel
theorem test_wf_decimation : (Instr.dDecimationSet ⟨0, 0⟩ 1 (List.replicate 124 0)).wf = false := by decide +kernel
theorem test_wf_config : [Instr.cConfigFull ⟨0, 0⟩ [3], .cConfigFull ⟨0, 0⟩ [3, 1]].map Instr.wf = [false, false] := by decide
theorem test_wf_telemetry : (Instr.tlmTelemetry 0 1 (List.replicate 120 0)).wf = false := by decide +kernel

/-! ## Decode: the selects of R82 and R85, operands in the layout of log 6 and log 7 -/

/-- R82: the 4-bit select of every port operation. -/
theorem test_decode_ports :
    [[0x00], [0x01], [0x03], [0x09], [0x0D], [0x0E], [0x0F]].map decoded =
      [some .op0Reserved, some .crcClr, some .crcChk, some .rbNext, some .tmTick, some .tmPoll, some .rst] := by decide
theorem test_decode_bytes :
    [[0x02, 0xA5], [0x04, 0x55], [0x05, 0x66], [0x06, 0x07, 0x00], [0x07, 0x55, 0xAA], [0x08, 0x12, 0x34]].map decoded =
      [some (.crcUpd 0xA5), some (.escPut 0x55), some (.escGet 0x66), some (.frmEnc [0x07, 0x00]),
        some (.frmDec [0x55, 0xAA]), some (.rbPush [0x12, 0x34])] := by decide
theorem test_decode_read :
    decoded [0x0A, 0x00, 0x10, 0, 0, 0, 0, 0, 0, 0x02, 0x04, 1, 2, 3, 4, 5, 6, 7, 8] =
      some (.chRd (.scratch ⟨0x1000, 2, 4, #v[1, 2, 3, 4, 5, 6, 7, 8]⟩)) := by decide
theorem test_decode_write :
    decoded [0x0B, 0x10, 0x00, 0x00, 0x20, 0, 0, 0, 0, 0, 4, 0, 0, 0, 0, 0, 0, 0, 0, 0xDE, 0xAD, 0xBE, 0xEF, 0, 0, 0, 0] =
      some (.chWr (.scratch (plain 0x20000010 0 4)) #v[0xDE, 0xAD, 0xBE, 0xEF, 0, 0, 0, 0]) := by decide
/-- R84: the order of the header bytes. -/
theorem test_decode_message :
    decoded [0x0C, 0x07, 0x01, 0x44, 0x05] = some (.dspMsg ⟨0x07, 0x01, 0x44, [0x05]⟩) := by decide
/-- R85: the command bytes 'V', 'I', 'W', 'Q', 'T', 'R', 'S'. -/
theorem test_decode_commands :
    [[0x56, 0, 7, 1], [0x49, 0, 7, 2], [0x57, 0, 7, 5, 9], [0x51, 0, 7, 6, 9], [0x54, 0, 7, 4], [0x52, 0, 7, 0, 1],
      [0x53, 0, 7, 0x15, 0x48]].map decoded =
      [some (.vGetVersion ⟨7, 1⟩ []), some (.iGetInfo ⟨7, 2⟩ []), some (.wWriteRegister ⟨7, 5⟩ [9]),
        some (.qQueryRegister ⟨7, 6⟩ [9]), some (.tResetTime ⟨7, 4⟩ []), some (.rReadChannelData ⟨7, 0⟩ [1]),
        some (.sDebugString ⟨7, 0x15⟩ [0x48])] := by decide
/-- R248, R256: the forms of 'C' and 'D' by length; R95: the emitted message with its low bytes first. -/
theorem test_decode_forms :
    [[0x43, 0, 7, 1, 3], [0x43, 0, 7, 1, 3, 4], [0x43, 0, 7, 1, 3, 4, 5], [0x43, 0, 7, 1], [0x44, 0, 7, 1],
      [0x44, 0, 7, 1, 0, 9], [0x52, 1, 0x56, 0x34, 0x12, 0x00, 0x80, 0xAA]].map decoded =
      [some (.cConfigQuery ⟨7, 1⟩ 3), some (.cConfigMode ⟨7, 1⟩ 3 4), some (.cConfigFull ⟨7, 1⟩ [3, 4, 5]),
        some (.cConfigFull ⟨7, 1⟩ []), some (.dDecimationQuery ⟨7, 1⟩), some (.dDecimationSet ⟨7, 1⟩ 0 [9]),
        some (.tlmTelemetry 0x123456 0x8000 [0xAA])] := by decide
/-- Each rejection. -/
theorem test_decode_rejects :
    [[], [0x10], [0x5A, 0, 7, 4], [0x02], [0x01, 0x00], [0x0A, 0x01, 0x10], [0x0A, 0x02], [0x56, 0x01, 7, 1], [0x52, 0x02],
      0x0C :: List.replicate 128 0].map rejected =
      [some .emptyRequest, some (.unknownSelect 0x10), some (.unknownSelect 0x5A), some .missingOperand,
        some .trailingOperand, some .missingOperand, some .missingOperand, some .badOperand, some .badOperand,
        some .illFormed] := by decide +kernel
/-- Every row's word decodes, operand bytes zero: the rows that share a byte give one instruction (log 7). -/
theorem test_table_words :
    [0x2, 0x4, 0x5, 0x6, 0x7, 0x8, 0xA, 0xB, 0xC, 0x49, 0x57, 0x51, 0x43, 0x44, 0x52, 0x53].map (decodeTableWord 8) =
      [some (.crcUpd 0), some (.escPut 0), some (.escGet 0), some (.frmEnc []), some (.frmDec []), some (.rbPush []),
        some (.chRd (.scratch (plain 0 0 0))), some (.chWr (.scratch (plain 0 0 0)) (Vector.replicate 8 0)),
        some (.dspMsg ⟨0, 0, 0, []⟩), some (.iGetInfo ⟨0, 0⟩ []), some (.wWriteRegister ⟨0, 0⟩ []),
        some (.qQueryRegister ⟨0, 0⟩ []), some (.cConfigFull ⟨0, 0⟩ []), some (.dDecimationQuery ⟨0, 0⟩),
        some (.rReadChannelData ⟨0, 0⟩ []), some (.sDebugString ⟨0, 0⟩ [])] := by decide +kernel

/-! ## One step each -/

/-- Section 2: `07 01 44 05` runs `15 6C D8 1D`. -/
theorem test_crcUpd : (after (.crcUpd 0x01) { State.reset with crc := 0x15 }).map (·.crc) = some 0x6C := by decide
/-- Section 2: the last byte of `07 01 44 05 1D`. -/
theorem test_crcUpd_zero : (after (.crcUpd 0x1D) { State.reset with crc := 0x1D }).map (·.crc) = some 0x00 := by decide
/-- P2 step 0. -/
theorem test_crcClr : (after .crcClr { State.reset with crc := 0x99, escPending := true }).map
    (fun t => (t.crc, t.escPending)) = some (0x00, false) := by decide
/-- Section 2: `07 01 44 05 1C` ends at 07, not ok. -/
theorem test_crcChk : (after .crcChk { State.reset with crc := 0x07 }).map (·.result) =
    some (.crcCheck 0x07 false) := by decide
/-- Section 3. -/
theorem test_escPut : [0x55, 0xAA, 0x66, 0x33, 0xFF].map (fun b => (after (.escPut b) State.reset).map (·.result)) =
    [some (.wire [0x66, 0x33]), some (.wire [0x66, 0xCC]), some (.wire [0x66, 0x00]), some (.wire [0x33]),
      some (.wire [0xFF])] := by decide
/-- Section 3, rows `0 66`, `0 55`. -/
theorem test_escGet : [0x66, 0x55].map (fun w => (after (.escGet w) State.reset).map (fun t => (t.result, t.escPending))) =
    [some (.unescaped none, true), some (.unescaped (some 0x55), false)] := by decide
/-- Section 3, rows `1 33`, `1 66`, `1 41`. -/
theorem test_escGet_pending : [0x33, 0x66, 0x41].map (fun w =>
      (after (.escGet w) { State.reset with escPending := true }).map (fun t => (t.result, t.escPending))) =
    [some (.unescaped (some 0x55), false), some (.unescaped (some 0x00), false),
      some (.unescaped (some 0x27), false)] := by decide
/-- S1: every reserved value as data. -/
theorem test_frmEnc : (after (.frmEnc [0x55, 0xAA, 0x66, 0x33]) State.reset).map (·.result) =
    some (.wire [0x55, 0x66, 0x33, 0x66, 0xCC, 0x66, 0x00, 0x33, 0x6F, 0xAA]) := by decide +kernel
/-- S1: a CRC byte equal to ESC. -/
theorem test_frmEnc_crc : (after (.frmEnc [0x07, 0x00, 0x54, 0xC6]) State.reset).map (·.result) =
    some (.wire [0x55, 0x07, 0x00, 0x54, 0xC6, 0x66, 0x00, 0xAA]) := by decide +kernel
/-- Section 4: a non-canonical pair is accepted. -/
theorem test_frmDec : (after (.frmDec [0x55, 0x07, 0x01, 0x44, 0x66, 0x41, 0xF3, 0xAA]) State.reset).map (·.result) =
    some (.payload (some [0x07, 0x01, 0x44, 0x27])) := by decide +kernel
/-- Section 4: a raw STX inside, a bad CRC, a dangling marker, no ETX. -/
theorem test_frmDec_none : [[0x55, 0x07, 0x55, 0x07, 0x02, 0x54, 0x97, 0xAA], [0x55, 0x07, 0x01, 0x44, 0x05, 0x1C, 0xAA],
      [0x55, 0x07, 0x01, 0x44, 0x05, 0x1D, 0x66, 0xAA], [0x55, 0x07, 0x02, 0x54, 0x97, 0xAA, 0x00]].map
      (fun f => (after (.frmDec f) State.reset).map (·.result)) = List.replicate 4 (some (.payload none)) := by
  decide +kernel
/-- A6. -/
theorem test_rbPush : (after (.rbPush [1, 2, 3, 4, 5, 6, 7, 8]) (ring 3 [])).map
      (fun t => (t.pushIndex, t.parseIndex, t.overrun, t.buf)) =
    some (7, 0, true, cells 0 [1, 2, 3, 4, 5, 6, 7]) := by decide +kernel
/-- A9, the second push: the latched guard. -/
theorem test_rbPush_latched : (after (.rbPush [3, 4, 5, 6, 7, 8, 9])
      { ring 3 [0x55, 1, 2] with parseIndex := 3, startValid := true }).map
      (fun t => (t.pushIndex, t.parseIndex, t.frameStart, t.startValid, t.overrun)) =
    some (0, 3, 0, true, true) := by decide +kernel
/-- A3: the inner start wins. -/
theorem test_rbNext : (after .rbNext (ring 5 [0x55, 0x07, 0x55, 0x07, 0x02, 0x54, 0x97, 0xAA])).map
      (fun t => (t.result, t.parseIndex, t.frameStart, t.startValid, t.drops)) =
    some (.message (some ⟨0x07, 0x02, 0x54, []⟩), 8, 2, false, [.abandoned]) := by decide +kernel
/-- A4, the first call. -/
theorem test_rbNext_skips : (after .rbNext
      (ring 5 [0x55, 0x07, 0x01, 0x44, 0x05, 0x1C, 0xAA, 0x00, 0x55, 0x07, 0x02, 0x54, 0x97, 0xAA])).map
      (fun t => (t.result, t.parseIndex, t.frameStart, t.drops)) =
    some (.message (some ⟨0x07, 0x02, 0x54, []⟩), 14, 8, [.badCrc]) := by decide +kernel
/-- C1. -/
theorem test_chRd : (after (.chRd (.scratch (plain 0x1000 2 2))) chain).map (·.result) =
    some (.value (some [0x2A, 0x00]) true #v[0x2A, 0, 0, 0, 0, 0, 0, 0]) := by decide +kernel
/-- C8 on a slot: only bytes 0..1 are compared. -/
theorem test_chRd_slot : (after (.chRd (.slot 4)) { chain with
      ch := chain.ch.set 4 { chan 0x3000 2 0 with previousValue := #v[0x2A, 0, 0xFF, 0xFF, 0xFF, 0xFF, 0xFF, 0xFF] } }).map
      (fun t => (t.result, t.ch[4].previousValue)) =
    some (.value (some [0x2A, 0x00]) false #v[0x2A, 0, 0xFF, 0xFF, 0xFF, 0xFF, 0xFF, 0xFF],
      #v[0x2A, 0, 0xFF, 0xFF, 0xFF, 0xFF, 0xFF, 0xFF]) := by decide +kernel
/-- C10. -/
theorem test_chWr : (after (.chWr (.scratch (plain 0x1000 2 2)) #v[0x34, 0x12, 9, 9, 9, 9, 9, 9]) chain).map (·.mem) =
    some (cells 0x1000 [0x00, 0x20, 0x00, 0x00] ++ cells 0x2000 [0x00, 0x30, 0x00, 0x00] ++ cells 0x3000 [0x34, 0x12]) := by
  decide +kernel
/-- C4: no memory write through NULL. -/
theorem test_chWr_null : (after (.chWr (.scratch (plain 0 0 1)) #v[0x99, 0, 0, 0, 0, 0, 0, 0]) State.reset).map
    (fun t => (t.mem, t.drops)) = some ([], [.nullPointer]) := by decide +kernel
/-- M4. -/
theorem test_dspMsg_other : (after (.dspMsg ⟨0x08, 0x03, 0x56, []⟩) State.reset).map (fun t => (t.tx, t.drops)) =
    some ([], [.notForMe]) := by decide +kernel
/-- M5. -/
theorem test_dspMsg_unknown : (after (.dspMsg ⟨0x07, 0x04, 0x5A, []⟩) State.reset).map (fun t => (t.tx, t.drops)) =
    some ([], [.unknownCommand]) := by decide +kernel
/-- R281. -/
theorem test_tmTick : (after .tmTick { State.reset with timeTicks := 0xFFFFFFFF }).map (·.timeTicks) = some 0 := by decide
/-- T5. -/
theorem test_tmPoll_once : (after .tmPoll { scanning 4 3 with tracingOn := false, tracingOnce := true }).map
      (fun t => (t.tx, t.tracingOnce)) =
    some ([[0x55, 0x07, 0x00, 0x52, 0x01, 0x00, 0x00, 0x10, 0x00, 0x77, 0x8E, 0xAA]], false) := by decide +kernel
/-- T3, the second poll: the clock has wrapped. -/
theorem test_tmPoll_wrap : (after .tmPoll { withMem (cells 0x30 [0x01]) with
      timeTicks := 1, lastFastUpdate := 0xFFFFFFFE, lastSlowUpdate := 0xFFFFFFF8, decimation := 3, tracingOn := true
      ch := State.reset.ch.set 0 (chan 0x30 1 4) }).map (fun t => (t.tx, t.lastFastUpdate, t.lastSlowUpdate)) =
    some ([[0x55, 0x07, 0x00, 0x52, 0x01, 0x00, 0x00, 0x01, 0x00, 0x01, 0x02, 0xAA]], 1, 0xFFFFFFF8) := by decide +kernel
/-- P4 step 12. -/
theorem test_rst : (after .rst { ring 4 [0x55, 0x11] with
      parseIndex := 2, frameStart := 2, startValid := true, overrun := true, crc := 7, decimation := 9 }).map
      (fun t => (t.pushIndex, t.startValid, t.overrun, t.crc, t.decimation)) =
    some (0, false, false, 0, 1) := by decide +kernel
/-- R97. -/
theorem test_op0Reserved : (after .op0Reserved { State.reset with crc := 7 }).map (fun t => (t.crc, t.result)) =
    some (7, .nothing) := by decide
/-- M1: a broadcast is answered with the node's own id. -/
theorem test_getVersion : (after (.vGetVersion ⟨0xFF, 0x01⟩ []) State.reset).map (·.tx) =
    some [[0x55, 0x07, 0x01, 0x56, 0x01, 0x02, 0x03, 0x04, 0x05, 0x06, 0x07, 0x08, 0x02, 0x4E, 0x37, 0x02, 0x53, 0x31, 0x10,
      0xAA]] := by decide +kernel
/-- M3. -/
theorem test_getInfo : (after (.iGetInfo (toNode 0x02) []) State.reset).map (·.tx) =
    some [[0x55, 0x07, 0x02, 0x49, 0x01, 0x01, 0x33, 0x02, 0x02, 0x33, 0x03, 0x04, 0x66, 0xCC, 0xAA]] := by decide +kernel
/-- M6. -/
theorem test_writeRegister : (after (.wWriteRegister (toNode 0x05) [0x10, 0x00, 0x00, 0x20, 0xC0, 0x02, 0x34, 0x12])
      State.reset).map (fun t => (t.mem, t.tx)) =
    some (cells 0x20000010 [0x34, 0x12], [[0x55, 0x07, 0x05, 0x57, 0xF5, 0xAA]]) := by decide +kernel
/-- M15: a value byte short. -/
theorem test_writeRegister_short : (after (.wWriteRegister (toNode 0x09) [0x20, 0x00, 0x00, 0x20, 0xC0, 0x02, 0x01])
      State.reset).map (fun t => (t.mem, t.tx, t.drops)) = some ([], [], [.badLength]) := by decide +kernel
/-- M8. -/
theorem test_queryRegister : (after (.qQueryRegister (toNode 0x06) [0x10, 0x00, 0x00, 0x20, 0x40, 0x02])
      (withMem (cells 0x20000010 [0x99, 0x12]))).map (·.tx) =
    some [[0x55, 0x07, 0x06, 0x51, 0x10, 0x00, 0x00, 0x20, 0x40, 0x02, 0x99, 0x12, 0x00, 0x00, 0x14, 0xAA]] := by
  decide +kernel
/-- M10: the first 4 of 8 bytes. -/
theorem test_queryRegister_long : (after (.qQueryRegister (toNode 0x08) [0x20, 0x00, 0x00, 0x20, 0x40, 0x08])
      (withMem (cells 0x20000020 [1, 2, 3, 4, 5, 6, 7, 8]))).map (·.tx) =
    some [[0x55, 0x07, 0x08, 0x51, 0x20, 0x00, 0x00, 0x20, 0x40, 0x08, 0x01, 0x02, 0x03, 0x04, 0x30, 0xAA]] := by
  decide +kernel
/-- M19. -/
theorem test_configQuery : (after (.cConfigQuery (toNode 0x0C) 3) { State.reset with
      ch := State.reset.ch.set 3 { chan 0x20000010 1 1 with offset := 0x20000010, control := 0x40 } }).map (·.tx) =
    some [[0x55, 0x07, 0x0C, 0x43, 0x01, 0x10, 0x00, 0x00, 0x20, 0x40, 0x01, 0x8A, 0xAA]] := by decide +kernel
/-- M20. -/
theorem test_configMode : (after (.cConfigMode (toNode 0x0D) 3 3) State.reset).map
      (fun t => (t.ch[3].updateMode, t.tracingOnce, t.tx)) =
    some (3, true, [[0x55, 0x07, 0x0D, 0x43, 0x31, 0xAA]]) := by decide +kernel
/-- M29. -/
theorem test_configFull : (after (.cConfigFull (toNode 0x1F) [0x0F, 0x04, 0x20, 0x00, 0x00, 0x20, 0x42, 0x08, 0xEE])
      State.reset).map (fun t => (t.ch[15], t.tx)) =
    some (⟨0x20000020, 2, 8, #v[1, 0, 0, 0, 0, 0, 0, 0], 4, 0x20000020, 0x42⟩,
      [[0x55, 0x07, 0x1F, 0x43, 0x4C, 0xAA]]) := by decide +kernel
/-- M23. -/
theorem test_configFull_seven : refusalOf (.cConfigFull (toNode 0x1A) [0x03, 0x01, 0x00, 0x00, 0x00, 0x00, 0x40])
    State.reset = some .cfgLen7 := by decide +kernel
/-- M33. -/
theorem test_decimationQuery : (after (.dDecimationQuery (toNode 0x12)) { State.reset with decimation := 5 }).map (·.tx) =
    some [[0x55, 0x07, 0x12, 0x44, 0x05, 0x02, 0xAA]] := by decide +kernel
/-- M31. -/
theorem test_decimationSet_zero : (after (.dDecimationSet (toNode 0x11) 0 []) State.reset).map
      (fun t => (t.decimation, t.tx)) = some (1, [[0x55, 0x07, 0x11, 0x44, 0x01, 0xA3, 0xAA]]) := by decide +kernel
/-- M34. -/
theorem test_decimationSet : (after (.dDecimationSet (toNode 0x20) 0xFF [0x01]) State.reset).map
      (fun t => (t.decimation, t.tx)) = some (255, [[0x55, 0x07, 0x20, 0x44, 0xFF, 0xDD, 0xAA]]) := by decide +kernel
/-- M35. -/
theorem test_resetTime : (after (.tResetTime (toNode 0x13) []) { State.reset with
      timeTicks := 99, lastFastUpdate := 90, lastSlowUpdate := 80 }).map
      (fun t => (t.timeTicks, t.lastFastUpdate, t.lastSlowUpdate, t.tx)) =
    some (0, 0, 0, [[0x55, 0x07, 0x13, 0x54, 0xD5, 0xAA]]) := by decide +kernel
/-- M37, M38, M40. -/
theorem test_readChannelData : [1, 2, 3].map (fun b => (after (.rReadChannelData (toNode 0x14) [b]) State.reset).map
      (fun t => (t.tracingOn, t.tracingOnce, t.tx))) =
    [some (true, false, []), some (false, true, []), some (false, false, [])] := by decide +kernel
/-- M43. -/
theorem test_debugString : (after (.sDebugString (toNode 0x30) [0x41, 0x42, 0x43, 0x44, 0x45, 0x46, 0x47, 0x48, 0x49])
      State.reset).map (fun t => (t.dbgBuf, t.dbgPush, t.drops, t.tx)) =
    some (cells 0 [0x41, 0x42, 0x43, 0x44, 0x45, 0x46, 0x47], 7, [.dbgOverflow], []) := by decide +kernel
/-- R378: a collaborator that takes a byte during the append makes room for the eighth. -/
theorem test_debugString_drained : (after (.sDebugString (toNode 0x30) [0x41, 0x42, 0x43, 0x44, 0x45, 0x46, 0x47, 0x48])
      { State.reset with arrivals := [[.takeText]] }).map (fun t => (t.dbgPush, t.dbgPop, t.textOut, t.drops)) =
    some (0, 1, [0x41], []) := by decide +kernel
/-- T2, tick 6. -/
theorem test_telemetry : (after (.tlmTelemetry 6 0x8001 [0xAA, 0x55, 0x22]) State.reset).map (·.tx) =
    some [[0x55, 0x07, 0x00, 0x52, 0x06, 0x00, 0x00, 0x01, 0x80, 0x66, 0xCC, 0x66, 0x33, 0x22, 0x65, 0xAA]] := by
  decide +kernel
/-- T6: a message too long is refused. -/
theorem test_telemetry_long : refusalOf (.tlmTelemetry 0 1 (List.replicate 120 0)) State.reset = some .bodyTooLong := by
  decide +kernel

/-! ## Witnesses of hypotheses: CRC, stuffer, frames -/

theorem test_witness_CrcUpdateAndCheck : State.reset.cfg.crcTable[0] = 0x00#8 := by decide
theorem test_witness_CrcLaws : State.reset.cfg.crcTable[0] = 0x00#8 := by decide
theorem test_witness_SingleSubstitutionDetected :
    State.reset.cfg.crcTable.toList.Nodup ∧ (0x05#8 : Byte) ≠ 0x04#8 := ⟨defaultCrcTable_nodup, by decide⟩
theorem test_witness_StuffedBytes : (stuff [0x55, 0x66])[0]? = some 0x66#8 ∧ (stuff [0x55, 0x66])[2]? = some 0x66#8 := by
  decide
theorem test_witness_UnstuffLaws : (0x07#8 : Byte) ≠ 0x66#8 ∧ unstuff [0x07, 0x66, 0x33] = some [0x07, 0x55] := by decide
/-- The five clauses of decode_body at the ends of their ranges: lengths 3, 4, 128, 129. -/
theorem test_witness_FrameDecodeRule :
    unstuff [0x66] = none ∧ unstuff [0x00, 0x00, 0x00] = some [0x00, 0x00, 0x00] ∧
    unstuff (List.replicate 129 0) = some (List.replicate 129 0) ∧
    (unstuff [0x00, 0x00, 0x00, 0x01] = some [0x00, 0x00, 0x00, 0x01] ∧
      crc8 State.reset.cfg [0x00, 0x00, 0x00, 0x01] ≠ 0x00#8) ∧
    (unstuff (List.replicate 128 0) = some (List.replicate 128 0) ∧
      crc8 State.reset.cfg (List.replicate 128 0) = 0x00#8) ∧
    (unstuff (List.replicate 4 0) = some (List.replicate 4 0) ∧ crc8 State.reset.cfg (List.replicate 4 0) = 0x00#8) := by
  decide +kernel
theorem test_witness_FrameRoundTrip : State.reset.cfg.crcTable[0] = 0x00#8 := by decide
theorem test_witness_StreamingFormAgrees :
    0x55#8 ∉ [0x07#8, 0x00#8, 0x54#8, 0x78#8, 0x66#8, 0x33#8] ∧ 0xAA#8 ∉ [0x07#8, 0x00#8, 0x54#8, 0x78#8, 0x66#8, 0x33#8] := by
  decide

/-! ## Witnesses: ring buffer -/

theorem test_witness_PushOneByte :
    State.reset.pushing = [] ∧ ({ ring 3 [0x55] with parseIndex := 1, startValid := true } : State).pushing = [] := by decide
theorem test_witness_PushTakesAPrefix :
    ∃ s : State, s = { ring 3 [] with pushIndex := 7, parseIndex := 7 } ∧ Quiet s ∧ s.pushing = [] ∧ IndicesInRange s :=
  ⟨_, rfl, by decide⟩
/-- A full ring; an empty one with the consumer's turn at the next boundary; a push that waits, in a ring with room and in a
full one; nothing else moving. -/
theorem test_witness_PushInterleaves :
    ((ring 3 [0, 0, 0, 0, 0, 0, 0]).pushing = [] ∧ pushRefused (ring 3 [0, 0, 0, 0, 0, 0, 0]) = true) ∧
    (∃ s : State, s = { ring 3 [] with arrivals := [[.tick, .consumerTurn]] } ∧ s.pushing = [] ∧ pushRefused s = false ∧
      (∃ events later, s.arrivals = events :: later ∧ .consumerTurn ∈ events) ∧
      (after (.rbPush [1, 2, 3]) s).map (fun t => (t.pushIndex, t.pushing)) = some (1, [[2, 3]])) ∧
    (∃ s : State, s = { ring 3 [] with pushing := [[1]] } ∧ s.pushing = [[1]] ∧ pushRefused s = false) ∧
    (∃ s : State, s = { ring 3 [0, 0, 0, 0, 0, 0, 0] with pushing := [[1, 2]] } ∧ s.pushing = [[1, 2]] ∧
      pushRefused s = true) ∧
    (Quiet (ring 3 []) ∧ (ring 3 []).pushing = []) := by
  refine ⟨by decide, ⟨_, rfl, by decide, by decide, ⟨_, _, rfl, by decide⟩, by decide +kernel⟩, ⟨_, rfl, by decide⟩,
    ⟨_, rfl, by decide⟩, by decide⟩
/-- R172: a scan step between two iterations frees a place, and the byte the full ring would have refused is accepted. -/
theorem test_push_resumed :
    (after .rbNext { ring 3 [0, 0, 0, 0, 0, 0, 0] with pushing := [[1, 2]], arrivals := [[.pushStep]] }).map
      (fun t => (t.pushIndex, t.overrun, t.pushing)) = some (0, false, [[2]]) := by decide +kernel
/-- Every branch of a scan step: empty, a start at the last slot, an end that decodes, an end that does not, a stray end, a
plain byte. -/
theorem test_witness_NextScansByteByByte :
    (Quiet (ring 3 []) ∧ IndicesInRange (ring 3 []) ∧ (ring 3 []).parseIndex = (ring 3 []).pushIndex) ∧
    (∃ s : State, s = { ring 3 [] with parseIndex := 7, buf := [(7, 0x55)] } ∧ Quiet s ∧ IndicesInRange s ∧
      s.parseIndex ≠ s.pushIndex ∧ s.slot s.parseIndex = 0x55#8) ∧
    (∃ s : State, s = { ring 3 [0x55, 0, 0, 0, 0, 0xAA] with parseIndex := 5, startValid := true } ∧ Quiet s ∧
      IndicesInRange s ∧ s.parseIndex ≠ s.pushIndex ∧ s.slot s.parseIndex = 0xAA#8 ∧
      decodeBody s.cfg (candidateBody s s.parseIndex) = .ok (0x00#8 :: 0x00#8 :: 0x00#8 :: [])) ∧
    (∃ s : State, s = { ring 3 [0x55, 0xAA] with parseIndex := 1, startValid := true } ∧ Quiet s ∧ IndicesInRange s ∧
      s.parseIndex ≠ s.pushIndex ∧ s.slot s.parseIndex = 0xAA#8 ∧
      decodeBody s.cfg (candidateBody s s.parseIndex) = .error .shortFrame) ∧
    (∃ s : State, s = ring 3 [0xAA] ∧ Quiet s ∧ IndicesInRange s ∧ s.parseIndex ≠ s.pushIndex ∧
      s.slot s.parseIndex = 0xAA#8 ∧ s.startValid = false) ∧
    (∃ s : State, s = ring 3 [0x07] ∧ Quiet s ∧ IndicesInRange s ∧ s.parseIndex ≠ s.pushIndex ∧
      s.slot s.parseIndex ≠ 0x55#8 ∧ s.slot s.parseIndex ≠ 0xAA#8) := by
  refine ⟨by decide, ⟨_, rfl, by decide⟩, ⟨_, rfl, by decide, by decide, by decide, by decide, by rfl⟩,
    ⟨_, rfl, by decide, by decide, by decide, by decide, by rfl⟩, ⟨_, rfl, by decide⟩, ⟨_, rfl, by decide⟩⟩
/-- With an arrival inside the call: the last byte of a frame is pushed while the scanner runs. -/
theorem test_witness_NextDeliversAtMostOne :
    ∃ s : State, s = { ring 4 [0x55, 0x07, 0x02, 0x54, 0x97] with arrivals := [[.tick], [.beginPush [0xAA], .pushStep]] } ∧ IndicesInRange s ∧
      (after .rbNext s).map (·.result) = some (.message (some ⟨0x07, 0x02, 0x54, []⟩)) :=
  ⟨_, rfl, by decide, by decide +kernel⟩
/-- P4 after step 9. -/
theorem test_witness_WedgeLastsUntilReset :
    ∃ s : State, s = { ring 4 [] with
        pushIndex := 11, parseIndex := 11, frameStart := 11, startValid := true, overrun := true } ∧
      Wedged s ∧ s.pushing = [] := ⟨_, rfl, by decide⟩
/-- S3: the vector fills 13 of 31 places. -/
theorem test_witness_SecondFrameIsDelivered :
    (ring 5 []).cfg.Valid ∧ Quiet (ring 5 []) ∧ (ring 5 []).pushing = [] ∧ IndicesInRange (ring 5 []) ∧ (ring 5 []).startValid = false ∧
    (ring 5 []).parseIndex = (ring 5 []).pushIndex ∧ 0x55#8 ∉ [0x12#8, 0xAA#8, 0x34#8] ∧ 0xAA#8 ∉ [0x07#8, 0x01#8, 0x44#8] ∧
    ([0x12#8, 0xAA#8, 0x34#8] ++ 0x55#8 :: [0x07#8, 0x01#8, 0x44#8] ++
      frameEncode (ring 5 []).cfg ([0x07#8, 0x02#8, 0x54#8] ++ [])).length ≤ 2 ^ (ring 5 []).cfg.rbK - 1 := by
  refine ⟨?_, by decide +kernel⟩
  obtain ⟨h1, h2, _, h⟩ := Config.default_valid
  exact ⟨h1, h2, by decide, h⟩
/-- A latched start with a byte still to scan, and the step that scans it. -/
theorem test_witness_RingInvariantKept :
    ∃ s t : State, s = { ring 3 [0x55, 0x07] with parseIndex := 1, startValid := true } ∧ RingInv s ∧ step s = .next t :=
  ⟨_, _, rfl, by decide, rfl⟩

/-! ## Witnesses: debug channels -/

/-- And a value of two bytes that runs onto NULL: the second is the free value, whatever memory holds there. -/
theorem test_witness_ReadAtRest :
    Quiet chain ∧
    (∃ s : State, s = { withMem [(0, 0x22), (0xFFFFFFFF, 0x11)] with nullByte := 0x99 } ∧ Quiet s ∧
      (after (.chRd (.scratch (plain 0xFFFFFFFF 0 2))) s).map (·.result) =
        some (.value (some [0x11, 0x99]) true #v[0x11, 0x99, 0, 0, 0, 0, 0, 0])) :=
  ⟨by decide, ⟨_, rfl, by decide, by decide +kernel⟩⟩
/-- The third clause's premise, for a memory that differs at NULL. -/
theorem test_witness_ReadAtRest_null :
    ∀ a, wrap chain.cfg a ≠ chain.cfg.null →
      State.readByte { chain with mem := (0, 0x5A) :: chain.mem } a = chain.readByte a := fun a h => by
  have h0 : wrap chain.cfg a ≠ 0 := h
  show (Memory.find ((0, 0x5A) :: chain.mem) (wrap chain.cfg a)).getD _ = (Memory.find chain.mem (wrap chain.cfg a)).getD _
  rw [Memory.find, if_neg h0]
theorem test_witness_ChainOfTwoPointers :
    (Quiet chain ∧ wrap chain.cfg 0x1000 ≠ chain.cfg.null ∧ pointerAt chain (wrap chain.cfg 0x1000) ≠ chain.cfg.null ∧
      pointerAt chain (pointerAt chain (wrap chain.cfg 0x1000)) ≠ chain.cfg.null) ∧
    (∃ s : State, s = withMem (cells 0x1000 [0, 0, 0, 0]) ∧ Quiet s ∧ wrap s.cfg 0x1000 ≠ s.cfg.null ∧
      pointerAt s (wrap s.cfg 0x1000) = s.cfg.null) ∧
    (∃ s : State, s = withMem (cells 0x1000 [0, 0x20, 0, 0] ++ cells 0x2000 [0, 0, 0, 0]) ∧
      wrap s.cfg 0x1000 ≠ s.cfg.null ∧ pointerAt s (pointerAt s (wrap s.cfg 0x1000)) = s.cfg.null) := by
  refine ⟨by decide +kernel, ⟨_, rfl, by decide +kernel⟩, ⟨_, rfl, by decide +kernel⟩⟩
/-- A null root that is not the number 0 (2^32 wraps to it), and a slot of size 0. -/
theorem test_witness_AbortedReadKeepsTheLatch :
    wrap State.reset.cfg (plain (2 ^ 32) 0 1).address = State.reset.cfg.null ∧ State.reset.ch[3].sizeBytes = 0x00#8 := by
  decide
theorem test_witness_WriteAtRest :
    State.reset.cfg.Valid ∧ Quiet State.reset ∧
    resolveAtRest State.reset (refDescriptor (.slot 3) State.reset) = none ∧
    resolveAtRest State.reset (refDescriptor (.scratch (plain 0xFFFFFFFF 0 8)) State.reset) = some 0xFFFFFFFF ∧
    (after (.chWr (.scratch (plain 0xFFFFFFFF 0 2)) #v[1, 2, 0, 0, 0, 0, 0, 0]) (withMem [(0, 0x22)])).map (·.mem) =
      some [(0, 0x22), (0xFFFFFFFF, 1)] :=
  ⟨Config.default_valid, by decide +kernel⟩
theorem test_witness_WriteThenRead :
    ∃ s : State, s = scanning 15 4 ∧ s.cfg.Valid ∧ Quiet s ∧ s.ch[(15 : Fin 16)].dereferenceDepth = 0x00#8 ∧
      s.ch[(15 : Fin 16)].sizeBytes.toNat ≤ 8 ∧ wrap s.cfg s.ch[(15 : Fin 16)].address ≠ s.cfg.null ∧
      (∀ j < s.ch[(15 : Fin 16)].sizeBytes.toNat, wrap s.cfg (s.ch[(15 : Fin 16)].address + j) ≠ s.cfg.null) :=
  ⟨_, rfl, Config.default_valid, by decide +kernel⟩
theorem test_witness_MultiByteFields : (0 < 4 ∧ 3 < 4) ∧ orderBytes .big 4 0x20000010 = [0x20, 0x00, 0x00, 0x10] := by decide

/-! ## Witnesses: dispatcher -/

theorem test_witness_NodeFilterAndUnknownCommand :
    ¬IsFor State.reset toOther ∧ IsFor State.reset (toNode 4) ∧
    (0x5A#8 : Byte) ∉ [0x56#8, 0x49#8, 0x57#8, 0x51#8, 0x43#8, 0x44#8, 0x54#8, 0x52#8, 0x53#8] := by decide
theorem test_witness_VersionReply : State.reset.cfg.Valid ∧ IsFor State.reset ⟨0xFF, 0x01⟩ := ⟨Config.default_valid, by decide⟩
theorem test_witness_InfoReply : State.reset.cfg.Valid ∧ IsFor State.reset (toNode 2) := ⟨Config.default_valid, by decide⟩
/-- The descriptor is then whatever the equation says: a resolved one, and one with a null root. -/
theorem test_witness_WriteRegisterEffect :
    State.reset.cfg.Valid ∧ Quiet State.reset ∧ IsFor State.reset (toNode 5) ∧
    (∃ ps : List Byte, ps = [0x10, 0x00, 0x00, 0x20, 0xC0, 0x02, 0x34, 0x12] ∧ 6 ≤ ps.length ∧ (byteAt ps 5).toNat ≤ 8 ∧
      6 + (byteAt ps 5).toNat ≤ ps.length ∧
      resolveAtRest State.reset ⟨resolve State.reset.cfg State.reset.resolver
        (BitVec.ofNat 32 (unwire State.reset.cfg (ps.take 4))) (byteAt ps 4), byteAt ps 4 &&& 0x0F#8, byteAt ps 5,
        Vector.replicate 8 0x00#8⟩ = some 0x20000010) ∧
    (∃ ps : List Byte, ps = [0, 0, 0, 0, 0xC0, 0x00] ∧ 6 ≤ ps.length ∧ (byteAt ps 5).toNat ≤ 8 ∧
      6 + (byteAt ps 5).toNat ≤ ps.length ∧
      resolveAtRest State.reset ⟨resolve State.reset.cfg State.reset.resolver
        (BitVec.ofNat 32 (unwire State.reset.cfg (ps.take 4))) (byteAt ps 4), byteAt ps 4 &&& 0x0F#8, byteAt ps 5,
        Vector.replicate 8 0x00#8⟩ = none) := by
  refine ⟨Config.default_valid, by decide, by decide, ⟨_, rfl, by decide +kernel⟩, ⟨_, rfl, by decide +kernel⟩⟩
theorem test_witness_QueryRegisterReply :
    State.reset.cfg.Valid ∧ Quiet State.reset ∧ IsFor State.reset (toNode 8) ∧
    (∃ ps : List Byte, ps = [0x20, 0x00, 0x00, 0x20, 0x40, 0x08] ∧ 6 ≤ ps.length ∧ (byteAt ps 5).toNat ≤ 8) := by
  refine ⟨Config.default_valid, by decide, by decide, ⟨_, rfl, by decide⟩⟩
/-- Five bytes; six with size 9; seven with size 2. -/
theorem test_witness_RegisterCommandChecks :
    IsFor State.reset (toNode 0x17) ∧ [0x20#8, 0x00, 0x00, 0x20, 0x40].length < 6 ∧
    (∃ ps : List Byte, ps = [0x20, 0x00, 0x00, 0x20, 0x40, 0x09] ∧ 6 ≤ ps.length ∧ 8 < (byteAt ps 5).toNat) ∧
    (∃ ps : List Byte, ps = [0x20, 0x00, 0x00, 0x20, 0xC0, 0x02, 0x01] ∧ 6 ≤ ps.length ∧ (byteAt ps 5).toNat ≤ 8 ∧
      ps.length < 6 + (byteAt ps 5).toNat) := by
  refine ⟨by decide, by decide, ⟨_, rfl, by decide⟩, ⟨_, rfl, by decide⟩⟩
theorem test_witness_ConfigQueryReply : IsFor State.reset (toNode 0x0C) := by decide
theorem test_witness_ConfigModeEffect : IsFor State.reset (toNode 0x0D) := by decide
/-- Slot 15 with size 8, slot 3 with size 9. -/
theorem test_witness_ConfigFullEffect :
    IsFor State.reset (toNode 0x1F) ∧
    (∃ ps : List Byte, ps = [0x0F, 0x04, 0x20, 0x00, 0x00, 0x20, 0x42, 0x08, 0xEE] ∧ 8 ≤ ps.length ∧
      byteAt ps 0 = BitVec.ofNat 8 (15 : Fin 16).val ∧ (byteAt ps 7).toNat ≤ 8) ∧
    (∃ ps : List Byte, ps = [0x03, 0x01, 0x10, 0x00, 0x00, 0x20, 0x40, 0x09] ∧ 8 ≤ ps.length ∧
      byteAt ps 0 = BitVec.ofNat 8 (3 : Fin 16).val ∧ 8 < (byteAt ps 7).toNat) := by
  refine ⟨by decide, ⟨_, rfl, by decide⟩, ⟨_, rfl, by decide⟩⟩
/-- One list for each clause: index 15 in the forms of 1, 2, 3, 6, 7 and 8 bytes, index 16, and no byte. -/
theorem test_witness_ConfigFormByLength :
    IsFor State.reset (toNode 0x0E) ∧ ([] : List Byte).length = 0 ∧ 15 < (byteAt [0x10] 0).toNat ∧
    (byteAt [0x0F] 0).toNat ≤ 15 ∧
    [1, 2, 3, 6, 7, 8].map (fun n => (byteAt (0x0F :: List.replicate (n - 1) 0) 0).toNat) = List.replicate 6 15 ∧
    [1, 2, 3, 6, 7, 8].map (fun n => (0x0F#8 :: List.replicate (n - 1) 0).length) = [1, 2, 3, 6, 7, 8] := by decide
theorem test_witness_DecimationEffect : IsFor State.reset (toNode 0x10) := by decide
theorem test_witness_ResetTimeEffect : IsFor State.reset ⟨0xFF, 0x00⟩ := by decide
theorem test_witness_ReadChannelDataEffect : IsFor State.reset (toNode 0x14) ∧ 2 < (0x03#8 : Byte).toNat := by decide
theorem test_witness_DebugStringEffect :
    ∃ s : State, s = { State.reset with dbgPush := 7, dbgPop := 0 } ∧ Quiet s ∧ IsFor s (toNode 0x15) ∧ TextInv s ∧
      (s.dbgPush + 1) % 2 ^ s.cfg.dbgK = s.dbgPop ∧
      (State.reset.dbgPush + 1) % 2 ^ State.reset.cfg.dbgK ≠ State.reset.dbgPop := ⟨_, rfl, by decide⟩
theorem test_witness_RepliesAreFiltered : ∃ t : State, exec (.dspMsg ⟨0x07, 0x10, 0x44, []⟩) State.reset = .next t :=
  exists_next (by decide +kernel)

/-! ## Witnesses: telemetry -/

theorem test_witness_TickWraps : ({ State.reset with timeTicks := 0xFFFFFFFF } : State).timeTicks = 0xFFFFFFFF#32 := by decide
/-- T3, the first poll: two ticks of three. -/
theorem test_witness_PollWithoutScan :
    (State.reset.tracingOn = false ∧ State.reset.tracingOnce = false) ∧
    ((0x00000000#32).toNat + 2 ^ 32 - (0xFFFFFFFE#32).toNat) % 2 ^ 32 < (3#32).toNat := by decide
/-- A scan of one byte, and T6 at the first length that is refused: 15 channels of 8 bytes. -/
theorem test_witness_PollScansAtRest :
    (∃ s : State, s = scanning 4 4 ∧ Quiet s ∧ MaskOf s 0x0010#16 ∧ s.tracingOn = true ∧
      s.decimation.toNat ≤ (s.timeTicks.toNat + 2 ^ 32 - s.lastFastUpdate.toNat) % 2 ^ 32 ∧
      5 + (valuesAtRest s).length ≤ 124) ∧
    (∃ s : State, s = { scanning 4 4 with
        ch := (Vector.replicate 16 (chan 0x50 8 4)).set 0 (chan 0 0 0), mem := cells 0x50 (List.replicate 8 0) } ∧
      Quiet s ∧ MaskOf s 0xFFFE#16 ∧ s.tracingOn = true ∧
      s.decimation.toNat ≤ (s.timeTicks.toNat + 2 ^ 32 - s.lastFastUpdate.toNat) % 2 ^ 32 ∧
      124 < 5 + (valuesAtRest s).length) := by
  refine ⟨⟨_, rfl, by decide, by unfold MaskOf; decide +kernel, by decide, by decide, by decide +kernel⟩,
    ⟨_, rfl, by decide, by unfold MaskOf; decide +kernel, by decide, by decide, by decide +kernel⟩⟩
/-- A tick arrives during the poll. -/
theorem test_witness_ClockIsReadOnce :
    ∃ s : State, s = { scanning 4 4 with arrivals := [[.tick]] } ∧ (s.tracingOn = true ∨ s.tracingOnce = true) ∧
      s.decimation.toNat ≤ (s.timeTicks.toNat + 2 ^ 32 - s.lastFastUpdate.toNat) % 2 ^ 32 ∧
      ∃ t : State, exec .tmPoll s = .next t :=
  ⟨_, rfl, by decide, by decide, exists_next (by decide +kernel)⟩
/-- Each row of the table of R288: no value, the five modes, a code that is none of them. -/
theorem test_witness_ContributionTable :
    State.reset.cfg.mode.all.Nodup ∧ valueAtRest State.reset State.reset.ch[(0 : Fin 16)].descriptor = none ∧
    (∀ mode : Byte, mode ∈ [0x00#8, 0x01#8, 0x02#8, 0x03#8, 0x04#8, 0x05#8] →
      valueAtRest (scanning 0 mode) (scanning 0 mode).ch[(0 : Fin 16)].descriptor = some [0x77]) ∧
    (0x05#8 : Byte) ∉ State.reset.cfg.mode.all := by decide +kernel
/-- 119 value bytes, and 120. -/
theorem test_witness_TelemetryEmission :
    (0x0001#16 ≠ 0x0000#16) ∧ 5 + (List.replicate 119 0x00#8).length ≤ 124 ∧ 124 < 5 + (List.replicate 120 0x00#8).length := by
  decide
theorem test_witness_ReceiverReadsBack :
    ∀ i : Fin 16, (0x8001#16).getLsbD i.val = true →
      (if i = 15 then [0xAA#8, 0x55#8] else [0x22#8]).length =
        (#v[1, 0, 0, 0, 0, 0, 0, 0, 0, 0, 0, 0, 0, 0, 0, 2] : Vector Nat 16)[i] := by decide

/-! ## Witnesses: reset and the whole machine -/

theorem test_witness_ResetIsIdle : IsFor (scanning 4 4) (toNode 0x10) := by decide
theorem test_witness_GoodStatesKept :
    ∃ s t : State, s = scanning 4 4 ∧ s.Inv ∧ step s = .next t := by
  refine ⟨_, _, rfl, ?_, rfl⟩
  refine ⟨Config.default_valid, by decide, by decide, by decide, by decide, ?_⟩
  refine ⟨⟨by decide, ?_⟩, ⟨by decide, ?_⟩, ⟨by decide, ?_⟩⟩
  · intro x hx
    rw [show x = (0x50, 0x77) from List.mem_singleton.1 hx]
    decide
  · intro x hx; cases hx
  · intro x hx; cases hx
theorem test_witness_WritersOfEachRegister :
    ∃ t : State, exec .crcChk (scanning 4 4) = .next t ∧ Quiet (scanning 4 4) := ⟨_, rfl, rfl⟩
/-- An operation that completes, and the two that are refused. -/
theorem test_witness_OnlyTwoRefusals :
    (scanning 4 4).cfg.Valid ∧ (Instr.tmPoll.wf = true ∧ totalSize (scanning 4 4) ≤ 119) ∧
    ((Instr.cConfigFull (toNode 0x1A) (List.replicate 7 0)).wf = true ∧
      refusalOf (.cConfigFull (toNode 0x1A) (List.replicate 7 0)) State.reset = some .cfgLen7) ∧
    refusalOf .tmPoll { scanning 4 4 with
      ch := (Vector.replicate 16 (chan 0x50 8 4)).set 0 (chan 0 0 0), mem := cells 0x50 (List.replicate 8 0) } =
        some .bodyTooLong :=
  ⟨Config.default_valid, by decide +kernel⟩
theorem test_witness_DecodeOfEncode : (Instr.chRd (.scratch (plain (2 ^ 64 - 1) 15 8))).wf = true := by decide +kernel
theorem test_witness_EncodeOfDecode : decoded [0x0F] = some .rst := by decide
/-- A request that lands at this very step, one that decodes to nothing, and a table word. -/
theorem test_witness_StepRunsDecodedRequest :
    ({ State.reset with arrivals := [[.request [0x0D]]] } : State).land.requests = [[0x0D]] ∧
    decoded [0x0D] = some .tmTick ∧ rejected [0x10] = some (.unknownSelect 0x10) ∧
    decodeTableWord 8 0xF = some .rst := by decide
theorem test_witness_MainLoopOrder :
    State.reset.land.requests = [] ∧ State.reset.land.loop = .drain ∧
    (∃ t : State, exec .rbNext State.reset.land = .next t ∧ t.result = .message none) ∧
    (∃ t : State, exec .rbNext (ring 4 [0x55, 0x07, 0x02, 0x54, 0x97, 0xAA]).land = .next t ∧
      t.result = .message (some ⟨0x07, 0x02, 0x54, []⟩)) :=
  ⟨by decide, by decide, ⟨_, rfl, by decide⟩, ⟨_, rfl, by decide +kernel⟩⟩

end Sys2Proof.Tests
end

/-! Every step keeps the ring invariants of 10_state.md R29: what a push, a scan step and a reset do to the slots
known to be written; no other elementary change touches the ring. -/

namespace Sys2Proof.Machine

/-! ## Distances on the ring -/

theorem add_gap_mod {c : Config} {a b : Nat} (ha : a < c.ringCapacity) (hb : b < c.ringCapacity) :
    (a + gap c a b) % c.ringCapacity = b := by
  rw [gap_eq ha hb]
  split
  · rw [Nat.add_sub_cancel' ‹_›, Nat.mod_eq_of_lt hb]
  · rw [show a + (b + c.ringCapacity - a) = b + c.ringCapacity by omega, Nat.add_mod_right, Nat.mod_eq_of_lt hb]

theorem add_lap_mod {c : Config} {a b : Nat} (ha : a < c.ringCapacity) (hb : b < c.ringCapacity) :
    (a + lap c a b) % c.ringCapacity = b := by
  rw [lap_eq ha hb]
  split
  · rw [Nat.add_sub_cancel' (by omega), Nat.mod_eq_of_lt hb]
  · rw [show a + (b + c.ringCapacity - a) = b + c.ringCapacity by omega, Nat.add_mod_right, Nat.mod_eq_of_lt hb]

/-- Two slots at one distance from `a` are the same slot. -/
theorem lap_inj {c : Config} {a b b' : Nat} (ha : a < c.ringCapacity) (hb : b < c.ringCapacity)
    (hb' : b' < c.ringCapacity) (h : lap c a b = lap c a b') : b = b' := by
  rw [← add_lap_mod ha hb, h, add_lap_mod ha hb']

/-- R29 (d): only a full lap counts 2^k slots. -/
theorem lap_lt_iff {c : Config} {a b : Nat} (ha : a < c.ringCapacity) (hb : b < c.ringCapacity) :
    lap c a b < c.ringCapacity ↔ b ≠ a := by
  rw [lap_eq ha hb]; split <;> omega

theorem lap_le (c : Config) (a b : Nat) : lap c a b ≤ c.ringCapacity := Nat.mod_lt _ (Config.ringCapacity_pos c)

theorem lap_eq_gap {c : Config} {a b : Nat} (ha : a < c.ringCapacity) (hb : b < c.ringCapacity) (hne : a ≠ b) :
    lap c a b = gap c a b := by
  rw [lap_eq ha hb, gap_eq ha hb]; split <;> split <;> omega

theorem lap_ringNext {c : Config} {a b : Nat} (ha : a < c.ringCapacity) (hb : b < c.ringCapacity)
    (hne : b ≠ a) : lap c a (ringNext c b) = lap c a b + 1 := by
  rw [lap_eq ha hb, lap_eq ha (ringNext_lt c b), ringNext_eq hb]
  split <;> repeat' split
  all_goals omega

theorem lap_ringNext_self {c : Config} {a : Nat} (ha : a < c.ringCapacity) : lap c a (ringNext c a) = 1 := by
  rw [lap_eq ha (ringNext_lt c a), ringNext_eq ha]
  split <;> split <;> omega

theorem gap_ringNext_right {c : Config} {a b : Nat} (ha : a < c.ringCapacity) (hb : b < c.ringCapacity)
    (h : ringNext c b ≠ a) : gap c a (ringNext c b) = gap c a b + 1 := by
  rw [gap_eq ha hb, gap_eq ha (ringNext_lt c b)]
  rw [ringNext_eq hb] at h ⊢
  split at h <;> repeat' split
  all_goals omega

theorem gap_ringNext_left {c : Config} {a b : Nat} (ha : a < c.ringCapacity) (hb : b < c.ringCapacity) (hne : a ≠ b) :
    gap c a b = 1 + gap c (ringNext c a) b := by
  rw [gap_eq ha hb, gap_eq (ringNext_lt c a) hb, ringNext_eq ha]
  split <;> repeat' split
  all_goals omega

/-- Where `a` comes no later than `b` on the way from `f`, the way to `b` leads through `a`. -/
theorem lap_add_gap {c : Config} {f a b : Nat} (hf : f < c.ringCapacity) (ha : a < c.ringCapacity)
    (hb : b < c.ringCapacity) (h : lap c f a ≤ lap c f b) : lap c f a + gap c a b = lap c f b := by
  rw [lap_eq hf ha, lap_eq hf hb] at h ⊢
  rw [gap_eq ha hb]
  repeat' split at h
  all_goals repeat' split
  all_goals omega

/-! ## Written slots -/

/-- R29 (c): the `n` slots from `a` forward have been written. -/
def Written (c : Config) (m : Memory) (a n : Nat) : Prop :=
  ∀ j < n, (Memory.find m ((a + j) % c.ringCapacity)).isSome = true

/-- The slots after the first `d` of a written stretch. -/
theorem Written.drop {c : Config} {m : Memory} {a d n : Nat} (h : Written c m a (d + n)) :
    Written c m ((a + d) % c.ringCapacity) n := by
  intro j hj
  rw [Nat.mod_add_mod, Nat.add_assoc]
  exact h (d + j) (by omega)

/-- A store to the slot behind a written stretch makes it one longer. -/
theorem Written.store {c : Config} {m : Memory} {a n : Nat} (h : Written c m a n) (b : Byte) :
    Written c (Memory.store m ((a + n) % c.ringCapacity) b) a (n + 1) := by
  intro j hj
  rw [Memory.find_store]
  split
  · rfl
  · next hne =>
    have hjn : j ≠ n := fun he => hne (by rw [he])
    exact h j (by omega)

/-- A scanned slot of a written stretch is listed with the byte the scanner sees. -/
theorem find_of_written {s : State} {a n : Nat} (ha : a < s.cfg.ringCapacity) (hn : 0 < n)
    (h : Written s.cfg s.buf a n) : Memory.find s.buf a = some (s.slot a) := by
  have h0 := h 0 hn
  rw [Nat.add_zero, Nat.mod_eq_of_lt ha] at h0
  obtain ⟨b, hb⟩ := Option.isSome_iff_exists.1 h0
  simp [State.slot, hb]

/-! ## The invariant by the latch -/

theorem ringInv_latched_iff {s : State} (hv : s.startValid = true) :
    RingInv s ↔ IndicesInRange s ∧ Memory.find s.buf s.frameStart = some stx ∧
      lap s.cfg s.frameStart s.parseIndex ≤ lap s.cfg s.frameStart s.pushIndex ∧
      Written s.cfg s.buf s.frameStart (lap s.cfg s.frameStart s.pushIndex) := by
  simp [RingInv, Written, hv]

theorem ringInv_unlatched_iff {s : State} (hv : s.startValid = false) :
    RingInv s ↔ IndicesInRange s ∧ Written s.cfg s.buf s.parseIndex (gap s.cfg s.parseIndex s.pushIndex) := by
  simp [RingInv, Written, hv]

/-- R29 (c), latched or not: the unparsed content has been written. -/
theorem RingInv.unparsed_written {s : State} (h : RingInv s) :
    Written s.cfg s.buf s.parseIndex (gap s.cfg s.parseIndex s.pushIndex) := by
  cases hv : s.startValid with
  | false => exact ((ringInv_unlatched_iff hv).1 h).2
  | true =>
    obtain ⟨⟨hpush, hparse, hstart⟩, -, hle, hw⟩ := (ringInv_latched_iff hv).1 h
    rw [← lap_add_gap hstart hparse hpush hle] at hw
    have hd := hw.drop
    rwa [add_lap_mod hstart hparse] at hd

/-! ## Push -/

/-- R171: the guard that refuses a push keeps the written slots from being overtaken. -/
theorem ringInv_acceptPush {s : State} (h : RingInv s) (hr : pushRefused s = false) (b : Byte) :
    RingInv (s.acceptPush b) := by
  have hidx : IndicesInRange (s.acceptPush b) := (room_acceptPush h.1 hr b).1
  obtain ⟨hpush, hparse, hstart⟩ := h.1
  unfold pushRefused at hr
  cases hv : s.startValid with
  | false =>
    have hw := h.unparsed_written.store b
    rw [add_gap_mod hparse hpush] at hw
    have hne : ringNext s.cfg s.pushIndex ≠ s.parseIndex := by simpa [hv] using hr
    refine (ringInv_unlatched_iff (s := s.acceptPush b) hv).2 ⟨hidx, ?_⟩
    simpa [State.acceptPush, gap_ringNext_right hparse hpush hne] using hw
  | true =>
    obtain ⟨-, hstx, hle, hw⟩ := (ringInv_latched_iff hv).1 h
    have hw := hw.store b
    rw [add_lap_mod hstart hpush] at hw
    have hne : s.pushIndex ≠ s.frameStart := by simpa [hv] using hr
    have hlap := lap_ringNext hstart hpush hne
    refine (ringInv_latched_iff (s := s.acceptPush b) hv).2 ⟨hidx, ?_, ?_, ?_⟩
    · simpa [State.acceptPush, Memory.find_store_other _ hne.symm] using hstx
    · simpa [State.acceptPush, hlap] using Nat.le_succ_of_le hle
    · simpa [State.acceptPush, hlap] using hw

theorem ringInv_pushByte {s : State} (h : RingInv s) (b : Byte) : RingInv (s.pushByte b) := by
  rcases pushByte_cases s b with ⟨_, hp⟩ | ⟨hr, hp⟩ <;> rw [hp]
  · exact h
  · exact ringInv_acceptPush h hr b

theorem ringInv_pushStep {s : State} (h : RingInv s) : RingInv s.pushStep := by
  rcases pushStep_cases s with hp | ⟨p, hp⟩ | ⟨p, b, hp⟩ <;> rw [hp]
  · exact h
  · exact h
  · exact ringInv_pushByte (s := s.withPushing p) h b

/-! ## Scan -/

/-- A scan step that ends without a latch: one slot less is unparsed. -/
theorem ringInv_scanned_unlatched {s t : State} (h : RingInv s) (hne : s.parseIndex ≠ s.pushIndex) (ht : Scanned s t)
    (hv : t.startValid = false) : RingInv t := by
  have hidx : IndicesInRange t := (scanned_measure h.1 hne ht).1
  obtain ⟨hpush, hparse, -⟩ := h.1
  obtain ⟨hcfg, hpi, hbuf, -⟩ := ht.fields
  have hw := h.unparsed_written
  rw [gap_ringNext_left hparse hpush hne] at hw
  refine (ringInv_unlatched_iff hv).2 ⟨hidx, ?_⟩
  rw [hcfg, hpi, hbuf, ht.parseIndex]
  exact hw.drop

/-- R176, the `STX` branch: the scanned slot is latched, and everything behind it is written. -/
theorem ringInv_scanStart {s : State} (h : RingInv s) (hne : s.parseIndex ≠ s.pushIndex)
    (hstx : s.slot s.parseIndex = stx) : RingInv (scanStart s) := by
  have ht := scanned_start s
  have hidx : IndicesInRange (scanStart s) := (scanned_measure h.1 hne ht).1
  obtain ⟨hpush, hparse, -⟩ := h.1
  obtain ⟨hcfg, hpi, hbuf, -⟩ := ht.fields
  have hlatch : (scanStart s).startValid = true ∧ (scanStart s).frameStart = s.parseIndex := by
    unfold scanStart
    split <;> exact ⟨rfl, rfl⟩
  have hw := h.unparsed_written
  rw [← lap_eq_gap hparse hpush hne] at hw
  refine (ringInv_latched_iff hlatch.1).2 ⟨hidx, ?_⟩
  rw [hcfg, hpi, hbuf, ht.parseIndex, hlatch.2]
  refine ⟨?_, ?_, hw⟩
  · rw [find_of_written hparse (Nat.succ_pos _) hw, hstx]
  · rw [lap_ringNext_self hparse]
    exact Nat.succ_pos _

/-- R176, the `ETX` branch leaves no latch. -/
theorem scanEnd_startValid (s : State) : (scanEnd s).2.startValid = false := by
  unfold scanEnd
  split
  · simp only
    split <;> rfl
  · next hv => simpa using hv

/-- R176, any other byte: with a latch the scanner comes one slot nearer to `pushIndex`. -/
theorem ringInv_passSlot {s : State} (h : RingInv s) (hne : s.parseIndex ≠ s.pushIndex) : RingInv s.passSlot := by
  have ht : Scanned s s.passSlot := ⟨rfl, rfl, .inl rfl⟩
  cases hv : s.startValid with
  | false => exact ringInv_scanned_unlatched h hne ht hv
  | true =>
    obtain ⟨⟨hpush, hparse, hstart⟩, hstx, hle, hw⟩ := (ringInv_latched_iff hv).1 h
    have hlt : lap s.cfg s.frameStart s.parseIndex < lap s.cfg s.frameStart s.pushIndex :=
      Nat.lt_of_le_of_ne hle fun he => hne (lap_inj hstart hparse hpush he)
    refine (ringInv_latched_iff (s := s.passSlot) hv).2 ⟨(scanned_measure h.1 hne ht).1, hstx, ?_, hw⟩
    rw [State.passSlot_cfg, State.passSlot_parseIndex, State.passSlot_frameStart, State.passSlot_pushIndex,
      lap_ringNext hstart hparse ((lap_lt_iff hstart hparse).1 (Nat.lt_of_lt_of_le hlt (lap_le _ _ _)))]
    exact hlt

theorem ringInv_scanStep {s : State} (h : RingInv s) (hne : s.parseIndex ≠ s.pushIndex) : RingInv (scanStep s).2 := by
  rcases scanStep_cases s with ⟨hstx, he⟩ | ⟨_, he⟩ | ⟨_, _, he⟩ <;> rw [he]
  · exact ringInv_scanStart h hne hstx
  · exact ringInv_scanned_unlatched h hne (scanned_end s) (scanEnd_startValid s)
  · exact ringInv_passSlot h hne

/-! ## Reset, the other agents, and everything else -/

/-- R350: an empty ring without a latch, whatever `buf` still lists. -/
theorem ringInv_resetBlock (s : State) : RingInv s.resetBlock := by
  have hpos := Config.ringCapacity_pos s.cfg
  refine (ringInv_unlatched_iff (s := s.resetBlock) rfl).2 ⟨⟨hpos, hpos, hpos⟩, fun j hj => ?_⟩
  have hgap : gap s.cfg 0 0 = 0 := gap_self s.cfg hpos
  exact absurd (hgap ▸ hj : j < 0) (Nat.not_lt_zero j)

/-- R64, R67: of the other agents only the producer touches the ring. -/
theorem ringInv_apply {s : State} (h : RingInv s) (e : Arrival) : RingInv (s.apply e) := by
  cases e with
  | pushStep => exact ringInv_pushStep h
  | takeText =>
    show RingInv s.takeText
    unfold State.takeText
    split <;> exact h
  | beginPush | consumerTurn | tick | memoryWrite | nullByte | bind | request => exact h

theorem ringInv_land {s : State} (h : RingInv s) : RingInv s.land :=
  land_keep (P := RingInv) (fun _ e hs => ringInv_apply hs e) (fun _ _ hs => hs) h

/-- R20, the ring group: of the elementary changes only a boundary, a push, a scan step and a reset touch the ring. -/
theorem ringInv_effect {i : Instr} {s t : State} (he : Effect i s t) (h : RingInv s) : RingInv t := by
  cases he with
  | land => exact ringInv_land h
  | push b => exact ringInv_pushByte h b
  | scan _ hne => exact ringInv_scanStep h hne
  | reset => exact ringInv_resetBlock s
  | drop | result | crc | escape | pushing | write | latch | mode | configure | arm | trace | decimate | resetTime | text
  | tick | beginScan | disarm | transmit => exact h

theorem ringInv_exec {i : Instr} {s t : State} (h : exec i s = .next t) (hs : RingInv s) : RingInv t :=
  (exec_effects h).keep (fun _ _ => ringInv_effect) hs

/-- Settles O18: the boundary before the operation and the operation itself keep the ring invariants; the queue of requests
and the loop's position are no part of the ring. -/
theorem ringInvariantKept : Obligations.RingInvariantKept := fun _ _ hs h =>
  step_keep (P := RingInv) (fun _ => ringInv_land) (fun _ _ _ => ringInv_exec) (fun _ _ hr => hr) (fun _ _ hl => hl) h hs

end Sys2Proof.Machine

/-! ## CRC-8: the laws of the generator (40_crc8.md) -/

namespace Sys2Proof.Machine

/-! ### The datapath operations -/

theorem crcEntry_zero (c : Config) : c.crcEntry 0 = c.crcTable[0] := rfl

theorem exec_crcUpd (b : Byte) (s : State) : exec (.crcUpd b) s = .next { s with crc := crcStep s.cfg s.crc b } := rfl

theorem exec_crcChk (s : State) : exec .crcChk s = .next (s.withResult (.crcCheck s.crc (crcOk s.crc))) := rfl

theorem crcOk_eq_decide (crc : Byte) : crcOk crc = decide (crc = 0x00#8) := beq_eq_decide crc 0x00#8

/-! ### The function crc8 -/

/-- R129: absorbing goes on from the prefix's value. -/
theorem crc8_append (c : Config) (p q : List Byte) : crc8 c (p ++ q) = crcFrom c (crc8 c p) q :=
  crcFrom_append c crcSeed p q

/-- R126: whatever the string, absorbing its own crc8 looks up entry 0. -/
theorem crc8_append_self (c : Config) (p : List Byte) : crc8 c (p ++ [crc8 c p]) = c.crcTable[0] :=
  calc crc8 c (p ++ [crc8 c p])
    _ = crcStep c (crc8 c p) (crc8 c p) := crc8_append c p [crc8 c p]
    _ = c.crcTable[0] := crcStep_self c (crc8 c p)

/-- R131: with a zero entry 0, the seed is a fixed point of absorbing zero bytes. -/
theorem crc8_zeros (c : Config) (h : c.crcTable[0] = 0x00#8) (n : Nat) : crc8 c (List.replicate n 0x00#8) = 0x00#8 := by
  induction n with
  | zero => rfl
  | succ n ih =>
    have hstep : crcStep c 0x00#8 0x00#8 = 0x00#8 := (crcStep_self c 0x00#8).trans h
    rw [List.replicate_succ', crc8_append, ih]
    exact hstep

/-- R128: with pairwise distinct entries a substitution of one byte changes the residue: the accumulators differ after
the two bytes, and absorbing what follows keeps them different. -/
theorem crc8_substitute_ne (c : Config) (h : c.crcTable.toList.Nodup) (before after : List Byte) {x y : Byte}
    (hxy : x ≠ y) : crc8 c (before ++ [x] ++ after) ≠ crc8 c (before ++ [y] ++ after) := by
  intro he
  rw [crc8_append, crc8_append, crc8_append, crc8_append] at he
  have hstep : crcStep c (crc8 c before) x = crcStep c (crc8 c before) y := crcFrom_injective c h after he
  exact hxy ((BitVec.xor_right_inj (crc8 c before)).1 (crcStep_index c h hstep))

/-! ### The obligations -/

/-- Settles O3: the verify law at the empty string gives the converse of "exactly when entry 0 is 0". -/
theorem crcLaws : Obligations.CrcLaws := by
  refine ⟨crc8_append_self, fun c => ⟨fun hall => ?_, fun h p => ?_⟩, crc8_append, fun c n p h => ⟨crc8_zeros c h n, ?_⟩⟩
  · exact (crc8_append_self c []).symm.trans (hall [])
  · exact (crc8_append_self c p).trans h
  · rw [crc8_append, crc8_zeros c h n]
    rfl

/-- Settles O4: the two residues differ, so they are not both zero. -/
theorem singleSubstitutionDetected : Obligations.SingleSubstitutionDetected :=
  fun c before after _ _ h hxy ⟨hx, hy⟩ => crc8_substitute_ne c h before after hxy (hx.trans hy.symm)

/-- Settles O1, from the equations of the two operations; absorbing the accumulator itself looks up entry 0. -/
theorem crcUpdateAndCheck : Obligations.CrcUpdateAndCheck := by
  refine ⟨exec_crcUpd, fun s h => ?_, fun s => ?_⟩
  · rw [exec_crcUpd, crcStep_self, crcEntry_zero, h]
  · rw [exec_crcChk, crcOk_eq_decide]
    rfl

end Sys2Proof.Machine

/-! ## Byte stuffer and frame encoder: what is put on the wire (41_byte_stuffer.md) -/

namespace Sys2Proof.Machine

/-! ### The escape of one byte -/

/-- R140. -/
theorem isReserved_iff (b : Byte) : isReserved b = true ↔ b = stx ∨ b = etx ∨ b = esc := by
  simp [isReserved, or_assoc]

/-- R141: a reserved byte takes one byte more. -/
theorem escape_length (b : Byte) : (escape b).length = if isReserved b = true then 2 else 1 := by
  unfold escape
  split <;> rfl

/-- R142: no escape holds a sentinel, since neither the marker nor any of the second bytes is one. -/
theorem sentinels_not_mem_escape (b : Byte) : stx ∉ escape b ∧ etx ∉ escape b := by
  rcases escape_cases b with ⟨_, he⟩ | ⟨_, he⟩ | ⟨_, he⟩ | ⟨hstx, hetx, _, he⟩ <;> rw [he]
  case inr.inr.inr => simp [hstx.symm, hetx.symm]
  all_goals decide

/-! ### Stuffed strings -/

/-- R142: a byte that no escape holds is in no stuffed string. -/
theorem not_mem_stuff {x : Byte} (h : ∀ b, x ∉ escape b) (p : List Byte) : x ∉ stuff p := fun hx => by
  obtain ⟨b, _, hb⟩ := List.mem_flatMap.1 hx
  exact h b hb

/-- R142: one byte more for each reserved byte. -/
theorem stuff_length (p : List Byte) : (stuff p).length = p.length + p.countP isReserved := by
  induction p with
  | nil => rfl
  | cons b p ih =>
    rw [stuff_cons, List.length_append, escape_length, ih, List.countP_cons, List.length_cons]
    split <;> omega

/-- R142: after every marker stands one of the three second bytes. -/
def MarkersPaired (w : List Byte) : Prop :=
  ∀ i : Nat, w[i]? = some esc → w[i + 1]? = some 0x33#8 ∨ w[i + 1]? = some 0xCC#8 ∨ w[i + 1]? = some 0x00#8

theorem markersPaired_nil : MarkersPaired [] := fun _ h => nomatch h

/-- A byte in front that is no marker starts no pair. -/
theorem MarkersPaired.cons {w : List Byte} (hw : MarkersPaired w) {x : Byte} (hx : x ≠ esc) : MarkersPaired (x :: w)
  | 0, h => absurd (Option.some.inj h) hx
  | i + 1, h => hw i h

/-- A pair in front: its second byte is no marker, so the first byte alone needs a successor. -/
theorem MarkersPaired.pair {w : List Byte} (hw : MarkersPaired w) {x : Byte}
    (hx : x = 0x33#8 ∨ x = 0xCC#8 ∨ x = 0x00#8) : MarkersPaired (esc :: x :: w)
  | 0, _ => by simpa using hx
  | i + 1, h => by
    have hne : x ≠ esc := by rcases hx with rfl | rfl | rfl <;> decide
    exact hw.cons hne i h

theorem markersPaired_stuff (p : List Byte) : MarkersPaired (stuff p) := by
  induction p with
  | nil => exact markersPaired_nil
  | cons b p ih =>
    rw [stuff_cons]
    rcases escape_cases b with ⟨_, he⟩ | ⟨_, he⟩ | ⟨_, he⟩ | ⟨_, _, hesc, he⟩ <;> rw [he]
    · exact ih.pair (.inl rfl)
    · exact ih.pair (.inr (.inl rfl))
    · exact ih.pair (.inr (.inr rfl))
    · exact ih.cons hesc

/-! ### The port operations -/

theorem exec_escPut (b : Byte) (s : State) : exec (.escPut b) s = .next (s.withResult (.wire (escape b))) := rfl

theorem exec_escGet (w : Byte) (s : State) : exec (.escGet w) s = .next { s with
    result := .unescaped (unescapeStep s.escPending w).1, escPending := (unescapeStep s.escPending w).2 } := rfl

theorem exec_frmEnc (p : List Byte) (s : State) :
    exec (.frmEnc p) s = .next (s.withResult (.wire (frameEncode s.cfg p))) := rfl

/-- R143: after a marker every byte is taken, the marker and the sentinels included. -/
theorem unescapeStep_pending (w : Byte) : unescapeStep true w = (some (w ^^^ esc), false) := rfl

theorem unescapeStep_marker : unescapeStep false esc = (none, true) := rfl

theorem unescapeStep_plain {w : Byte} (h : w ≠ esc) : unescapeStep false w = (some w, false) := if_neg h

/-! ### Frames on the wire -/

/-- R146: both sentinels, payload and CRC byte, and one byte more for each reserved byte among them. -/
theorem frameEncode_length (c : Config) (p : List Byte) :
    (frameEncode c p).length = 2 + p.length + 1 + (p ++ [crc8 c p]).countP isReserved := by
  have hstuffed := stuff_length (p ++ [crc8 c p])
  rw [stuff_append, List.length_append, List.length_append] at hstuffed
  simp only [frameEncode, List.length_append, List.length_singleton] at hstuffed ⊢
  omega

/-- R146: the CRC of the empty payload is the seed, whatever the table. -/
theorem frameEncode_nil (c : Config) : frameEncode c [] = [stx, 0x00#8, etx] := rfl

/-! ### The obligations -/

/-- Settles O6: sentinels byte by byte from the escapes, markers and length by induction on the string. -/
theorem stuffedBytes : Obligations.StuffedBytes := fun p =>
  ⟨not_mem_stuff (fun b => (sentinels_not_mem_escape b).1) p, not_mem_stuff (fun b => (sentinels_not_mem_escape b).2) p,
    markersPaired_stuff p, stuff_length p⟩

/-- Settles O5: ESC.GET by the pending bit, then by whether the byte is the marker. -/
theorem stufferPortOperations : Obligations.StufferPortOperations := by
  refine ⟨fun b s => ?_, fun w s => ?_⟩
  · have hescape : escape b = if b = stx ∨ b = etx ∨ b = esc then [esc, b ^^^ esc] else [b] := by
      simp only [escape, isReserved_iff]
    rw [exec_escPut, hescape]
    rfl
  · rw [exec_escGet]
    cases hp : s.escPending with
    | true => rw [unescapeStep_pending, if_pos rfl]
    | false =>
      rw [if_neg Bool.false_ne_true]
      by_cases hw : w = esc
      · rw [hw, unescapeStep_marker, if_pos rfl]
      · rw [unescapeStep_plain hw, if_neg hw, ← hp]

/-- Settles O8: FRM.ENC answers `frameEncode` of the payload, whose length is the stuffed length between the sentinels. -/
theorem frameEncodeRule : Obligations.FrameEncodeRule := by
  refine ⟨exec_frmEnc, fun p s => frameEncode_length s.cfg p, fun s => ?_⟩
  rw [exec_frmEnc, frameEncode_nil]
  rfl

end Sys2Proof.Machine

/-! ## The ring buffer at rest, as byte strings (42_frame_assembler.md): what stands unparsed after a push, and the scanner
as a function of the unparsed string and the candidate it has collected. -/

namespace Sys2Proof.Machine

/-! ### Stretches of the ring -/

/-- The bytes of the `n` slots from `a` forward. -/
def slotsFrom (s : State) (a n : Nat) : List Byte :=
  (List.range n).map fun j => s.slot ((a + j) % s.cfg.ringCapacity)

@[simp] theorem slotsFrom_zero (s : State) (a : Nat) : slotsFrom s a 0 = [] := rfl

theorem slotsFrom_cons (s : State) {a : Nat} (ha : a < s.cfg.ringCapacity) (n : Nat) :
    slotsFrom s a (1 + n) = s.slot a :: slotsFrom s (ringNext s.cfg a) n := by
  simp [slotsFrom, Nat.add_comm 1 n, List.range_succ_eq_map, Nat.mod_eq_of_lt ha, ringNext, Function.comp_def,
    Nat.add_assoc, Nat.add_comm 1]

theorem slotsFrom_concat (s : State) (a n : Nat) :
    slotsFrom s a (n + 1) = slotsFrom s a n ++ [s.slot ((a + n) % s.cfg.ringCapacity)] := by
  simp [slotsFrom, List.range_succ]

theorem slotsFrom_congr {s t : State} (hcfg : t.cfg = s.cfg) (hbuf : t.buf = s.buf) (a n : Nat) :
    slotsFrom t a n = slotsFrom s a n := by
  simp only [slotsFrom, State.slot, hcfg, hbuf]

/-- R26: what the producer has pushed and the scanner has not passed. -/
def unparsed (s : State) : List Byte := slotsFrom s s.parseIndex (gap s.cfg s.parseIndex s.pushIndex)

theorem unparsed_eq_nil {s : State} (h : IndicesInRange s) : unparsed s = [] ↔ s.parseIndex = s.pushIndex := by
  rw [← gap_eq_zero h.2.1 h.1]
  simp [unparsed, slotsFrom]

/-- The scanner's next byte, and what stands behind it. -/
theorem unparsed_cons {s : State} (h : IndicesInRange s) (hne : s.parseIndex ≠ s.pushIndex) {t : State}
    (ht : Scanned s t) : unparsed s = s.slot s.parseIndex :: unparsed t := by
  obtain ⟨hcfg, hpush, hbuf, -⟩ := ht.fields
  rw [unparsed, gap_ringNext_left h.2.1 h.1 hne, slotsFrom_cons s h.2.1, unparsed, slotsFrom_congr hcfg hbuf, hcfg, hpush,
    ht.parseIndex]

/-! ### Pushing -/

theorem ringInv_of_empty {s : State} (h : IndicesInRange s) (hv : s.startValid = false)
    (he : s.parseIndex = s.pushIndex) : RingInv s := by
  refine (ringInv_unlatched_iff hv).2 ⟨h, fun j hj => ?_⟩
  rw [(gap_eq_zero h.2.1 h.1).2 he] at hj
  exact absurd hj (Nat.not_lt_zero j)

/-- D8: one slot less than the ring. -/
theorem room_of_empty {s : State} (h : IndicesInRange s) (hv : s.startValid = false)
    (he : s.parseIndex = s.pushIndex) : room s = s.cfg.ringCapacity - 1 := by
  rw [room, hv, if_neg Bool.false_ne_true, (gap_eq_zero h.2.1 h.1).2 he, Nat.sub_zero]

/-- No slot of an unparsed stretch is the one the producer writes. -/
theorem add_mod_ne_of_lt_gap {c : Config} {a b j : Nat} (ha : a < c.ringCapacity) (hb : b < c.ringCapacity)
    (hj : j < gap c a b) : (a + j) % c.ringCapacity ≠ b := by
  intro he
  have hmod : a + j ≡ a + gap c a b [MOD c.ringCapacity] := he.trans (add_gap_mod ha hb).symm
  have hgap : gap c a b < c.ringCapacity := Nat.mod_lt _ (Config.ringCapacity_pos c)
  exact hj.ne (hmod.add_left_cancel'.eq_of_lt_of_lt (hj.trans hgap) hgap)

theorem unparsed_acceptPush {s : State} (h : IndicesInRange s) (hv : s.startValid = false)
    (hr : pushRefused s = false) (b : Byte) : unparsed (s.acceptPush b) = unparsed s ++ [b] := by
  obtain ⟨hpush, hparse, -⟩ := h
  have hne : ringNext s.cfg s.pushIndex ≠ s.parseIndex := by simpa [pushRefused, hv] using hr
  have hslot : ∀ j, (s.acceptPush b).slot j = if j = s.pushIndex then b else s.slot j := fun j => slot_store s _ j b
  have hold : slotsFrom (s.acceptPush b) s.parseIndex (gap s.cfg s.parseIndex s.pushIndex) = unparsed s :=
    List.map_congr_left fun j hj => by
      rw [hslot, State.acceptPush_cfg, if_neg (add_mod_ne_of_lt_gap hparse hpush (List.mem_range.1 hj))]
  rw [unparsed, State.acceptPush_cfg, State.acceptPush_parseIndex, State.acceptPush_pushIndex,
    gap_ringNext_right hparse hpush hne, slotsFrom_concat, hold, State.acceptPush_cfg, add_gap_mod hparse hpush, hslot,
    if_pos rfl]

/-- R172: with room for all of them the bytes of a push come to stand behind the unparsed ones; nothing else moves. -/
theorem pushAtRest_of_room (bytes : List Byte) {s : State} (h : IndicesInRange s) (hv : s.startValid = false)
    (hroom : bytes.length ≤ room s) :
    unparsed (pushAtRest bytes s) = unparsed s ++ bytes ∧
      ∃ buf pushIndex, pushAtRest bytes s = { s with buf := buf, pushIndex := pushIndex } := by
  induction bytes generalizing s with
  | nil => exact ⟨(List.append_nil _).symm, s.buf, s.pushIndex, rfl⟩
  | cons b rest ih =>
    rw [List.length_cons] at hroom
    have hr : pushRefused s = false := by
      rw [← Bool.not_eq_true, pushRefused_iff h]
      omega
    obtain ⟨h', hroom'⟩ := room_acceptPush h hr b
    obtain ⟨hbytes, buf, pushIndex, ht⟩ := ih h' hv (by omega)
    rw [pushAtRest, hr, if_neg Bool.false_ne_true]
    refine ⟨?_, buf, pushIndex, ht⟩
    rw [hbytes, unparsed_acceptPush h hv hr, List.append_assoc, List.singleton_append]

/-! ### The scanner on byte strings -/

/-- R176: the candidate the scanner has collected behind its latched start. -/
def candidate (s : State) : Option (List Byte) :=
  if s.startValid = true then some (candidateBody s s.parseIndex) else none

/-- R149, R151: the message of a candidate that passes its checks. -/
def delivered (c : Config) (body : List Byte) : Option Message :=
  match decodeBody c body with
  | .ok p => messageOf p
  | .error _ => none

/-- R176 as a function of the byte scanned: a message, if it ends one, and the candidate afterwards. -/
def feedByte (c : Config) (latch : Option (List Byte)) (b : Byte) : Option Message × Option (List Byte) :=
  if b = stx then (none, some [])
  else if b = etx then (latch.bind (delivered c), none)
  else (none, latch.map (· ++ [b]))

/-- R176: the loop. The first message, and what is left unparsed behind it. -/
def feedBytes (c : Config) : Option (List Byte) → List Byte → Option Message × List Byte
  | _, [] => (none, [])
  | latch, b :: rest =>
    match feedByte c latch b with
    | (some m, _) => (some m, rest)
    | (none, latch') => feedBytes c latch' rest

theorem candidate_unlatched {s : State} (hv : s.startValid = false) : candidate s = none := by
  rw [candidate, hv, if_neg Bool.false_ne_true]

theorem candidateBody_eq_slotsFrom (s : State) (pos : Nat) :
    candidateBody s pos = slotsFrom s (s.frameStart + 1) (lap s.cfg s.frameStart pos - 1) := rfl

/-- R176, the `STX` branch: a new candidate, empty so far. -/
theorem candidate_scanStart {s : State} (h : IndicesInRange s) : candidate (scanStart s) = some [] := by
  have hempty : ∀ t : State, t.startValid = true → t.frameStart < t.cfg.ringCapacity →
      t.parseIndex = ringNext t.cfg t.frameStart → candidate t = some [] := fun t hv hf hp => by
    rw [candidate, if_pos hv, candidateBody_eq_slotsFrom, hp, lap_ringNext_self hf]
    rfl
  unfold scanStart
  split
  · exact hempty _ rfl h.2.1 rfl
  · exact hempty _ rfl h.2.1 rfl

/-- R176, the `ETX` branch: the message of the candidate, if there is one, and no latch. -/
theorem scanEnd_message (s : State) : (scanEnd s).1 = (candidate s).bind (delivered s.cfg) := by
  unfold scanEnd candidate
  split
  · rw [Option.bind_some, delivered]
    cases decodeBody s.cfg (candidateBody s s.parseIndex) <;> rfl
  · rfl

theorem candidate_scanEnd (s : State) : candidate (scanEnd s).2 = none := candidate_unlatched (scanEnd_startValid s)

/-- The ring invariant: a scanner with a byte to scan has not come back to its latched start. -/
theorem RingInv.parseIndex_ne_frameStart {s : State} (h : RingInv s) (hv : s.startValid = true)
    (hne : s.parseIndex ≠ s.pushIndex) : s.parseIndex ≠ s.frameStart := by
  obtain ⟨⟨hpush, hparse, hstart⟩, -, hle, -⟩ := (ringInv_latched_iff hv).1 h
  have hlt : lap s.cfg s.frameStart s.parseIndex < lap s.cfg s.frameStart s.pushIndex :=
    Nat.lt_of_le_of_ne hle fun he => hne (lap_inj hstart hparse hpush he)
  exact (lap_lt_iff hstart hparse).1 (Nat.lt_of_lt_of_le hlt (lap_le _ _ _))

/-- R176, any other byte: it joins the candidate, if there is one. -/
theorem candidate_passSlot {s : State} (h : RingInv s) (hne : s.parseIndex ≠ s.pushIndex) :
    candidate s.passSlot = (candidate s).map (· ++ [s.slot s.parseIndex]) := by
  cases hv : s.startValid with
  | false => rw [candidate_unlatched hv, candidate_unlatched (s := s.passSlot) hv, Option.map_none]
  | true =>
    obtain ⟨-, hparse, hstart⟩ := h.1
    have hlap := lap_ringNext hstart hparse (h.parseIndex_ne_frameStart hv hne)
    obtain ⟨n, hn⟩ : ∃ n, lap s.cfg s.frameStart s.parseIndex = n + 1 := ⟨_, rfl⟩
    have hend : (s.frameStart + 1 + n) % s.cfg.ringCapacity = s.parseIndex := by
      rw [Nat.add_assoc, Nat.add_comm 1, ← hn, add_lap_mod hstart hparse]
    have hslots : ∀ n, slotsFrom s.passSlot (s.frameStart + 1) n = slotsFrom s (s.frameStart + 1) n :=
      slotsFrom_congr rfl rfl _
    simp only [candidate, State.passSlot_startValid, hv, if_true, Option.map_some, candidateBody_eq_slotsFrom,
      State.passSlot_cfg, State.passSlot_frameStart, State.passSlot_parseIndex, hlap, hn, Nat.add_sub_cancel, hslots]
    rw [slotsFrom_concat, hend]

/-- One scan step is one byte fed to the scanner on strings. -/
theorem scanStep_feedByte {s : State} (h : RingInv s) (hne : s.parseIndex ≠ s.pushIndex) :
    ((scanStep s).1, candidate (scanStep s).2) = feedByte s.cfg (candidate s) (s.slot s.parseIndex) := by
  unfold feedByte
  rcases scanStep_cases s with ⟨hb, he⟩ | ⟨hb, he⟩ | ⟨hstx, hetx, he⟩ <;> rw [he]
  · rw [if_pos hb, candidate_scanStart h.1]
  · rw [hb, if_neg (by decide), if_pos rfl, scanEnd_message, candidate_scanEnd]
  · rw [if_neg hstx, if_neg hetx, candidate_passSlot h hne]

/-- RB.NEXT with nothing else moving is the scanner on the unparsed string. -/
theorem next_feedBytes {s : State} (h : RingInv s) (hq : Quiet s) :
    ∃ t, exec .rbNext s = .next t ∧ Quiet t ∧ t.overrun = s.overrun ∧
      t.result = .message (feedBytes s.cfg (candidate s) (unparsed s)).1 ∧
      unparsed t = (feedBytes s.cfg (candidate s) (unparsed s)).2 := by
  induction hw : unparsed s generalizing s with
  | nil => exact ⟨_, next_empty ((unparsed_eq_nil h.1).1 hw), hq, rfl, rfl, hw⟩
  | cons b rest ih =>
    have hne : s.parseIndex ≠ s.pushIndex := fun he => by
      rw [(unparsed_eq_nil h.1).2 he] at hw
      exact List.cons_ne_nil _ _ hw.symm
    have hscan := scanned_step s
    obtain ⟨hcfg, -, -, harr⟩ := hscan.fields
    have hover : (scanStep s).2.overrun = s.overrun := by rw [hscan.same]
    have hq' : Quiet (scanStep s).2 := harr.trans hq
    have hinv := ringInv_scanStep h hne
    obtain ⟨hb, hrest⟩ := List.cons.inj ((unparsed_cons h.1 hne hscan).symm.trans hw)
    have hfeed := scanStep_feedByte h hne
    rw [hb] at hfeed
    rw [feedBytes, ← hfeed]
    cases hs : scanStep s with
    | mk m t =>
      rw [hs] at hcfg hover hq' hinv hrest
      cases m with
      | some m => exact ⟨_, next_message hne hs, hq', hover, rfl, hrest⟩
      | none =>
        rw [next_continues h.1 hne hs, land_quiet hq', ← hover, ← hcfg]
        exact ih hinv hq' hrest

/-! ### Garbage, partial frames, frames -/

theorem feedBytes_cons_none {c : Config} {latch latch' : Option (List Byte)} {b : Byte}
    (h : feedByte c latch b = (none, latch')) (w : List Byte) : feedBytes c latch (b :: w) = feedBytes c latch' w := by
  rw [feedBytes, h]

/-- Without a candidate nothing but a start begins one; a stray end is skipped (D11). -/
theorem feedBytes_garbage (c : Config) {garbage : List Byte} (hg : stx ∉ garbage) (w : List Byte) :
    feedBytes c none (garbage ++ w) = feedBytes c none w := by
  induction garbage with
  | nil => rfl
  | cons b rest ih =>
    obtain ⟨hb, hrest⟩ := List.ne_and_not_mem_of_not_mem_cons hg
    have hfeed : feedByte c none b = (none, none) := by simp [feedByte, Ne.symm hb]
    rw [List.cons_append, feedBytes_cons_none hfeed, ih hrest]

/-- R183: bytes without an end deliver nothing, and the next start abandons what they collected. -/
theorem feedBytes_partial (c : Config) {part : List Byte} (hp : etx ∉ part) (latch : Option (List Byte))
    (w : List Byte) : feedBytes c latch (part ++ stx :: w) = feedBytes c (some []) w := by
  induction part generalizing latch with
  | nil => rfl
  | cons b rest ih =>
    obtain ⟨hb, hrest⟩ := List.ne_and_not_mem_of_not_mem_cons hp
    obtain ⟨latch', hfeed⟩ : ∃ latch', feedByte c latch b = (none, latch') := by
      by_cases hstx : b = stx
      · exact ⟨some [], if_pos hstx⟩
      · exact ⟨_, by rw [feedByte, if_neg hstx, if_neg (Ne.symm hb)]⟩
    rw [List.cons_append, feedBytes_cons_none hfeed, ih hrest]

/-- Bytes without sentinels join the candidate. -/
theorem feedBytes_body (c : Config) {body : List Byte} (hstx : stx ∉ body) (hetx : etx ∉ body) (start w : List Byte) :
    feedBytes c (some start) (body ++ w) = feedBytes c (some (start ++ body)) w := by
  induction body generalizing start with
  | nil => rw [List.append_nil, List.nil_append]
  | cons b rest ih =>
    obtain ⟨hbs, hstx'⟩ := List.ne_and_not_mem_of_not_mem_cons hstx
    obtain ⟨hbe, hetx'⟩ := List.ne_and_not_mem_of_not_mem_cons hetx
    have hfeed : feedByte c (some start) b = (none, some (start ++ [b])) := by
      simp [feedByte, Ne.symm hbs, Ne.symm hbe]
    rw [List.cons_append, feedBytes_cons_none hfeed, ih hstx' hetx', List.append_assoc, List.singleton_append]

/-- An end delivers the candidate's message, if it has one. -/
theorem feedBytes_end (c : Config) {body : List Byte} {m : Message} (hm : delivered c body = some m) (w : List Byte) :
    feedBytes c (some body) (etx :: w) = (some m, w) := by
  have hfeed : feedByte c (some body) etx = (some m, none) := by
    rw [feedByte, if_neg (by decide), if_pos rfl, Option.bind_some, hm]
  rw [feedBytes, hfeed]

/-- R145 (a). -/
theorem unstuff_stuff (p : List Byte) : unstuff (stuff p) = some p := by
  induction p with
  | nil => rfl
  | cons b p ih => rw [stuff_cons, unstuff_escape, ih, Option.map_some]

/-- R152: what is between the sentinels of an encoded frame decodes to its payload. -/
theorem decodeBody_stuff (c : Config) (hc : c.crcEntry 0 = 0) {p : List Byte} (h3 : 3 ≤ p.length)
    (h127 : p.length ≤ 127) : decodeBody c (stuff (p ++ [crc8 c p])) = .ok p := by
  refine (decodeBody_ok c _ p).2 ⟨p ++ [crc8 c p], unstuff_stuff _, ?_, ?_, ?_, List.dropLast_concat.symm⟩
  · simpa [minDecoded] using h3
  · simpa [maxDecoded] using h127
  · exact (crc8_append_self c p).trans hc

/-- R183 on byte strings: garbage, a partial frame and a frame give that frame's message, and leave nothing. -/
theorem feedBytes_second_frame (c : Config) (hc : c.crcEntry 0 = 0) {garbage rest : List Byte} (m : Message)
    (hg : stx ∉ garbage) (hr : etx ∉ rest) (hlen : m.params.length ≤ maxParams) :
    feedBytes c none (garbage ++ stx :: rest ++ frameEncode c (messagePayload m)) = (some m, []) := by
  have hdel : delivered c (stuff (messagePayload m ++ [crc8 c (messagePayload m)])) = some m := by
    rw [delivered, decodeBody_stuff c hc]
    · rfl
    · simp [messagePayload]
    · exact Nat.add_le_add_right hlen 3
  have hpart : etx ∉ stx :: rest := List.not_mem_cons_of_ne_of_not_mem (by decide) hr
  have hframe : frameEncode c (messagePayload m) =
      stx :: (stuff (messagePayload m ++ [crc8 c (messagePayload m)]) ++ [etx]) := by
    simp [frameEncode, stuff_append]
  rw [List.append_assoc, feedBytes_garbage c hg, hframe, feedBytes_partial c hpart,
    feedBytes_body c (not_mem_stuff (fun b => (sentinels_not_mem_escape b).1) _)
      (not_mem_stuff (fun b => (sentinels_not_mem_escape b).2) _),
    List.nil_append, feedBytes_end c hdel]

/-! ### The obligation -/

/-- Settles O17: the push leaves the whole string unparsed, the first RB.NEXT delivers its one message and leaves nothing to
the second. -/
theorem secondFrameIsDelivered : Obligations.SecondFrameIsDelivered := by
  intro s garbage rest params node id command hvalid hq hpushing hidx hv hempty hg hr hparams hlen
  obtain ⟨hcrc, -⟩ := hvalid
  have hnil : unparsed s = [] := (unparsed_eq_nil hidx).2 hempty
  have hinv : RingInv s := ringInv_of_empty hidx hv hempty
  have hroom : room s = 2 ^ s.cfg.rbK - 1 := room_of_empty hidx hv hempty
  generalize hbytes : garbage ++ 0x55#8 :: rest ++ frameEncode s.cfg ([node, id, command] ++ params) = bytes at hlen ⊢
  have hpush := push_at_rest bytes hq hpushing
  obtain ⟨hunparsed, buf, pushIndex, ht⟩ := pushAtRest_of_room bytes hidx hv (hroom ▸ hlen)
  have hinv' : RingInv (pushAtRest bytes s) := ringInv_exec hpush hinv
  generalize pushAtRest bytes s = t at *
  have hcandidate : candidate t = none := candidate_unlatched (by rw [ht]; exact hv)
  have hcfg : t.cfg = s.cfg := by rw [ht]
  have hq' : Quiet t := by rw [ht]; exact hq
  have hfeed : feedBytes t.cfg (candidate t) (unparsed t) = (some ⟨node, id, command, params⟩, []) := by
    rw [hcfg, hcandidate, hunparsed, hnil, List.nil_append, ← hbytes]
    exact feedBytes_second_frame s.cfg hcrc ⟨node, id, command, params⟩ hg hr hparams
  obtain ⟨u, hu, hqu, hou, hresult, hrest⟩ := next_feedBytes hinv' hq'
  obtain ⟨v, hv', -, hov, hresult', -⟩ := next_feedBytes (ringInv_exec hu hinv') hqu
  rw [hfeed] at hresult hrest
  rw [hrest] at hresult'
  exact ⟨t, u, v, hpush, hu, hresult, hv', hresult', by rw [hov, hou, ht]⟩

end Sys2Proof.Machine

/-! ## The dispatcher: the node filter, the rows as commands, and the commands that neither read nor write target memory
(44_dispatcher.md) -/

namespace Sys2Proof.Machine

/-! ### Parameters and operands -/

theorem infoBody_length_le {c : Config} (h : c.Valid) : c.infoBody.length ≤ maxParams := by
  obtain ⟨-, -, -, -, -, -, -, -, -, -, hinfo, -⟩ := h
  exact hinfo

theorem withChannel_ofNat (i : Fin 16) (k : Fin 16 → Reply × State) (s : State) :
    withChannel (BitVec.ofNat 8 i.val) k s = k i := by
  have hi : (BitVec.ofNat 8 i.val).toNat = i.val := by
    rw [BitVec.toNat_ofNat]
    exact Nat.mod_eq_of_lt (by omega)
  simp [withChannel, hi]

theorem withChannel_of_le {x : Byte} (h : x.toNat ≤ 15) (k : Fin 16 → Reply × State) (s : State) :
    withChannel x k s = k ⟨x.toNat, by omega⟩ := dif_pos (by omega)

theorem withChannel_of_gt {x : Byte} (h : 15 < x.toNat) (k : Fin 16 → Reply × State) (s : State) :
    withChannel x k s = (.dropped .badChannel, s) := dif_neg (by omega)

/-! ### How a command ends -/

theorem replyFrames_of_ne_nil (s : State) (msgId command : Byte) {body : List Byte} (h : body ≠ []) :
    replyFrames s msgId command body = [replyFrame s msgId command body] := if_pos (.inr h)

/-- R231: of the request's header only the message id reaches the reply; NODE_ID takes the place of its node id. -/
theorem finish_congr {h h' : Header} (hid : h.msgId = h'.msgId) (command : Byte) (r : Reply × State) :
    finish h command r = finish h' command r := by
  obtain ⟨_ | _ | _ | _, _⟩ := r <;> simp only [finish, hid]

/-- R231, R233: a command for this node that ends with a body. -/
theorem receive_body {s t : State} {h : Header} (hf : IsFor s h) (command : Byte) {act : State → Reply × State}
    {body : List Byte} (hact : act s = (.body body, t)) (hb : body.length ≤ maxParams) :
    receive h command act s = .next { t with tx := t.tx ++ replyFrames t h.msgId command body } := by
  rw [receive_for hf, hact, finish_body t h command hb]

/-- R231: a command for this node that is ignored. -/
theorem receive_dropped {s t : State} {h : Header} (hf : IsFor s h) (command : Byte) {act : State → Reply × State}
    {r : Drop} (hact : act s = (.dropped r, t)) : receive h command act s = .next (t.drop r) := by
  rw [receive_for hf, hact, finish_dropped]

/-! ### The rows as commands -/

theorem exec_dspMsg (m : Message) (s : State) :
    exec (.dspMsg m) s = receive m.header m.command (handle m.command m.params) s := rfl

theorem exec_dspMsg_config (h : Header) (ps : List Byte) (s : State) :
    exec (.dspMsg ⟨h.nodeId, h.msgId, cmdConfig, ps⟩) s = receive h cmdConfig (doConfig ps) s := rfl

theorem exec_iGetInfo (h : Header) (ps : List Byte) (s : State) :
    exec (.iGetInfo h ps) s = receive h cmdInfo doInfo s := rfl

theorem exec_cConfigQuery (h : Header) (x : Byte) (s : State) :
    exec (.cConfigQuery h x) s = receive h cmdConfig (doConfig [x]) s := rfl

theorem exec_cConfigMode (h : Header) (x mode : Byte) (s : State) :
    exec (.cConfigMode h x mode) s = receive h cmdConfig (doConfig [x, mode]) s := rfl

theorem exec_cConfigFull (h : Header) (ps : List Byte) (s : State) :
    exec (.cConfigFull h ps) s = receive h cmdConfig (doConfig ps) s := rfl

theorem exec_tResetTime (h : Header) (ps : List Byte) (s : State) :
    exec (.tResetTime h ps) s = receive h cmdResetTime doResetTime s := rfl

/-- R248: the three rows of 'C' are one command. -/
theorem exec_configRow (h : Header) (ps : List Byte) (s : State) :
    exec (configRow h ps) s = receive h cmdConfig (doConfig ps) s := by
  fun_cases configRow h ps
  · exact exec_cConfigQuery h _ s
  · exact exec_cConfigMode h _ _ s
  · exact exec_cConfigFull h ps s

/-- R256: the two rows of 'D' are one command. -/
theorem exec_decimationRow (h : Header) (ps : List Byte) (s : State) :
    exec (decimationRow h ps) s = receive h cmdDecimation (doDecimation ps) s := by
  cases ps <;> rfl

/-! ### Command bytes -/

theorem handle_unknown {command : Byte} (h : command ∉ commandBytes) (ps : List Byte) (s : State) :
    handle command ps s = (.dropped .unknownCommand, s) := by
  simp only [commandBytes, List.mem_cons, List.not_mem_nil, or_false, not_or] at h
  simp only [handle, h, if_false]

theorem ofMessage_unknown {m : Message} (h : m.command ∉ commandBytes) : Instr.ofMessage m = .dspMsg m := by
  simp only [commandBytes, List.mem_cons, List.not_mem_nil, or_false, not_or] at h
  simp only [Instr.ofMessage, h, if_false]

/-- R85, R231: the row a message selects acts as DSP.MSG on the message. -/
theorem exec_ofMessage (m : Message) (s : State) : exec (Instr.ofMessage m) s = exec (.dspMsg m) s := by
  by_cases hm : m.command ∈ commandBytes
  · obtain ⟨node, id, command, ps⟩ := m
    simp only [commandBytes, List.mem_cons, List.not_mem_nil, or_false] at hm
    rcases hm with rfl | rfl | rfl | rfl | rfl | rfl | rfl | rfl | rfl
    any_goals rfl -- all but 'C' and 'D', whose row the parameters select
    · exact exec_configRow ⟨node, id⟩ ps s
    · exact exec_decimationRow ⟨node, id⟩ ps s
  · rw [ofMessage_unknown hm]

/-! ### ConfigChannel by its length (R248, R253) -/

theorem doConfig_of_nil {ps : List Byte} (h : ps.length = 0) (s : State) :
    doConfig ps s = (.dropped .badLength, s) := if_pos h

theorem doConfig_of_pos {ps : List Byte} (h : 1 ≤ ps.length) (s : State) :
    doConfig ps s = withChannel (byteAt ps 0) (fun i => configForm i ps s) s := if_neg (by omega)

/-- R249: one byte, for a slot that exists. -/
theorem doConfig_query (i : Fin 16) (s : State) : doConfig [BitVec.ofNat 8 i.val] s = configQuery i s := by
  rw [doConfig_of_pos (ps := [_]) Nat.one_pos]
  exact withChannel_ofNat i (fun j => configForm j _ s) s

/-- R250: two bytes, for a slot that exists. -/
theorem doConfig_mode (i : Fin 16) (mode : Byte) (s : State) :
    doConfig [BitVec.ofNat 8 i.val, mode] s = configMode i mode s := by
  rw [doConfig_of_pos (ps := [_, _]) Nat.two_pos]
  exact withChannel_ofNat i (fun j => configForm j _ s) s

theorem configForm_between {ps : List Byte} (h3 : 3 ≤ ps.length) (h6 : ps.length ≤ 6) (i : Fin 16) (s : State) :
    configForm i ps s = (.dropped .badLength, s) := by
  unfold configForm
  rw [if_neg (by omega), if_neg (by omega), if_neg (by change ¬8 ≤ _; omega), if_neg (by omega)]

theorem configForm_seven {ps : List Byte} (h : ps.length = 7) (i : Fin 16) (s : State) :
    configForm i ps s = (.refused .cfgLen7, s) := by
  unfold configForm
  rw [if_neg (by omega), if_neg (by omega), if_neg (by change ¬8 ≤ _; omega), if_pos h]

/-! ### The obligations -/

/-- Settles O25: the filter runs before the command, a broadcast differs from an addressed message in the node id
alone, which no reply carries, and an unknown command is no case of `handle`. -/
theorem nodeFilterAndUnknownCommand : Obligations.NodeFilterAndUnknownCommand := by
  refine ⟨fun m s hn => ?_, fun msgId command params s => ?_, fun m s hf hc => ?_⟩
  · have hdrop : exec (.dspMsg m) s = .next (s.drop .notForMe) := receive_other hn _ _
    exact ⟨hdrop, (exec_ofMessage m s).trans hdrop⟩
  · rw [exec_dspMsg, exec_dspMsg, receive_for (.inr rfl), receive_for (.inl rfl)]
    exact finish_congr rfl command _
  · exact receive_dropped hf _ (handle_unknown hc m.params s)

/-- Settles O28: INFO_BODY fits a message under legal parameters, so only the reply filter can keep it back. -/
theorem infoReply : Obligations.InfoReply := fun h ps s hvalid hf =>
  (exec_iGetInfo h ps s).trans (receive_body (act := doInfo) hf cmdInfo rfl (infoBody_length_le hvalid))

/-- Settles O32: the query form names the slot and its reply has seven bytes, so the reply filter lets it pass. -/
theorem configQueryReply : Obligations.ConfigQueryReply := by
  intro h i s hf
  rw [exec_cConfigQuery, receive_body hf cmdConfig (doConfig_query i s) (by simp [maxParams]),
    replyFrames_of_ne_nil _ _ _ (by simp)]
  rfl

/-- Settles O33: the mode-only form ends with an empty body in the state `configMode` makes. -/
theorem configModeEffect : Obligations.ConfigModeEffect := fun h i mode s hf =>
  (exec_cConfigMode h _ mode s).trans (receive_body hf cmdConfig (doConfig_mode i mode s) (Nat.zero_le _))

/-- Settles O35: no byte, then the index test, then the form by the length. -/
theorem configFormByLength : Obligations.ConfigFormByLength := by
  intro h ps s hf
  simp only [exec_dspMsg_config]
  refine ⟨fun h0 => ?_, fun h1 hi => ?_, fun h1 hi =>
    ⟨fun hl => ?_, fun hl => ?_, fun h3 h6 => ?_, fun hl => ?_, fun _ => ?_⟩⟩
  · exact receive_dropped hf cmdConfig (doConfig_of_nil h0 s)
  · exact receive_dropped hf cmdConfig ((doConfig_of_pos h1 s).trans (withChannel_of_gt hi _ s))
  · obtain ⟨x, rfl⟩ := List.length_eq_one_iff.1 hl
    exact (exec_cConfigQuery h x s).symm
  · obtain ⟨x, mode, rfl⟩ := List.length_eq_two.1 hl
    exact (exec_cConfigMode h x mode s).symm
  · refine receive_dropped hf cmdConfig ?_
    rw [doConfig_of_pos h1, withChannel_of_le hi, configForm_between h3 h6]
  · rw [receive_for hf, doConfig_of_pos h1, withChannel_of_le hi, configForm_seven hl, finish_refused]
  · exact (exec_cConfigFull h ps s).symm

/-- Settles O37: the command ends with an empty body in the state with the three registers zeroed. -/
theorem resetTimeEffect : Obligations.ResetTimeEffect := fun h ps s hf =>
  (exec_tResetTime h ps s).trans (receive_body (act := doResetTime) hf cmdResetTime rfl (Nat.zero_le _))

end Sys2Proof.Machine

/-! ## Telemetry: the tick, and the receiver's side of the multiplexing (45_telemetry.md). -/

namespace Sys2Proof.Machine

/-! ### The tick -/

theorem exec_tmTick (s : State) : exec .tmTick s = .next s.tick := rfl

theorem tick_timeTicks_eq_ofNat (s : State) :
    s.tick.timeTicks = BitVec.ofNat 32 ((s.timeTicks.toNat + 1) % 2 ^ 32) := by
  apply BitVec.eq_of_toNat_eq
  simp

/-! ### The fixed fields of the parameters (R13, R95) -/

theorem orderValue_orderBytes (o : ByteOrder) (n v : Nat) : orderValue o (orderBytes o n v) = v % 256 ^ n := by
  cases o with
  | little => exact leValue_leBytes n v
  | big => rw [orderBytes, orderValue, List.reverse_reverse, leValue_leBytes]

/-- A receiver with the same WIRE_ORDER reads a field of whole bytes back. -/
theorem ofNat_unwire_wire (c : Config) (n : Nat) (x : BitVec (8 * n)) :
    BitVec.ofNat (8 * n) (unwire c (wire c n x.toNat)) = x := by
  have hlt : x.toNat < 256 ^ n := by simpa [Nat.pow_mul] using x.isLt
  rw [unwire, wire, orderValue_orderBytes, Nat.mod_eq_of_lt hlt, BitVec.ofNat_toNat, BitVec.setWidth_eq]

/-- The timestamp and the mask stand at fixed places, so only the taking out of the values depends on the order. -/
theorem splitTelemetry_telemetryParams (c : Config) (order : List (Fin 16)) (sizes : Vector Nat 16)
    (timestamp : BitVec 24) (mask : BitVec 16) (values : List Byte) :
    splitTelemetry c order sizes (telemetryParams c timestamp mask values) =
      some ⟨timestamp, mask, splitValues sizes mask order values⟩ := by
  have hlen : ¬ (telemetryParams c timestamp mask values).length < 5 := by simp [telemetryParams]; omega
  have htime : slice (telemetryParams c timestamp mask values) 0 3 = wire c 3 timestamp.toNat := by
    simp [slice, telemetryParams]
  have hmask : slice (telemetryParams c timestamp mask values) 3 2 = wire c 2 mask.toNat := by
    simp [slice, telemetryParams]
  have hvalues : (telemetryParams c timestamp mask values).drop 5 = values := by
    simp [telemetryParams, List.drop_append]
  rw [splitTelemetry, if_neg hlen, htime, hmask, hvalues, ofNat_unwire_wire c 3, ofNat_unwire_wire c 2]

/-! ### The values (R296) -/

section
variable {sizes : Vector Nat 16} {mask : BitVec 16} {value : Fin 16 → List Byte}

theorem splitValues_cons_set {i : Fin 16} (hi : mask.getLsbD i.val = true) (hsize : (value i).length = sizes[i])
    (order : List (Fin 16)) (bytes : List Byte) :
    splitValues sizes mask (i :: order) (value i ++ bytes) = (i, value i) :: splitValues sizes mask order bytes := by
  rw [splitValues, if_pos hi, ← hsize, List.take_left, List.drop_left]

theorem splitValues_cons_clear {i : Fin 16} (hi : ¬ mask.getLsbD i.val = true) (order : List (Fin 16))
    (bytes : List Byte) : splitValues sizes mask (i :: order) bytes = splitValues sizes mask order bytes := by
  rw [splitValues, if_neg hi]

/-- A receiver that takes the values out in the order they were put in reads each back, whatever that order is. -/
theorem splitValues_flatMap (hsize : ∀ i : Fin 16, mask.getLsbD i.val = true → (value i).length = sizes[i])
    (order : List (Fin 16)) :
    splitValues sizes mask order ((order.filter fun i => mask.getLsbD i.val).flatMap value) =
      (order.filter fun i => mask.getLsbD i.val).map fun i => (i, value i) := by
  induction order with
  | nil => rfl
  | cons i order ih =>
    by_cases hi : mask.getLsbD i.val = true
    · rw [List.filter_cons, if_pos hi, List.flatMap_cons, splitValues_cons_set hi (hsize i hi), ih, List.map_cons]
    · rw [List.filter_cons, if_neg hi, splitValues_cons_clear hi, ih]

end

/-! ### The obligations -/

/-- Settles O47: the fixed fields are read at their places, and the values in the order they were put in. -/
theorem receiverReadsBack : Obligations.ReceiverReadsBack := by
  intro c sizes timestamp mask value hsize
  rw [← splitValues_flatMap hsize]
  exact splitTelemetry_telemetryParams c channelOrder sizes timestamp mask _

/-- Settles O41: the sum of 32-bit words is the sum modulo 2^32. -/
theorem tickWraps : Obligations.TickWraps := by
  intro s
  refine ⟨?_, fun hmax => ?_⟩
  · rw [exec_tmTick, ← tick_timeTicks_eq_ofNat]
    rfl
  · have hwrap : s.timeTicks + 1 = 0x00000000#32 := by rw [hmax]; rfl
    rw [exec_tmTick, State.tick, hwrap]

end Sys2Proof.Machine

/-! ## CRC-8, unstuffer and frame decoder: what is taken from the wire (40_crc8.md, 41_byte_stuffer.md) -/

namespace Sys2Proof.Machine

/-! ### The CRC datapath -/

theorem exec_crcClr (s : State) : exec .crcClr s = .next { s with crc := crcSeed, escPending := false } := rfl

/-- R124: CRC.CLR, then CRC.UPD once per byte. -/
theorem execAll_crc8 (p : List Byte) (s : State) :
    execAll (.crcClr :: p.map .crcUpd) s = .next { s with crc := crc8 s.cfg p, escPending := false } := by
  rw [execAll, exec_crcClr]
  exact execAll_crcUpd p _

/-! ### The unstuffer -/

/-- R144: a marker and the byte it escapes. -/
theorem unstuff_marker (w : Byte) (rest : List Byte) :
    unstuff (esc :: w :: rest) = (unstuff rest).map ((w ^^^ esc) :: ·) := by
  rw [unstuff, unstuffFrom_idle, if_pos rfl, unstuffFrom_pending]

/-- R144: any other byte stands for itself. -/
theorem unstuff_plain {w : Byte} (h : w ≠ esc) (rest : List Byte) :
    unstuff (w :: rest) = (unstuff rest).map (w :: ·) := by
  rw [unstuff, unstuffFrom_idle, if_neg h]

/-- R145 (c): each byte of the body is a marker or gives one byte, and each marker is followed by a byte that gives one;
a pending bit stands for a marker before the body. -/
theorem unstuffFrom_length (pending : Bool) (body : List Byte) {u : List Byte} (h : unstuffFrom pending body = some u) :
    u.length + markersConsumed pending body = body.length ∧ body.length + pending.toNat ≤ 2 * u.length := by
  induction body generalizing pending u with
  | nil =>
    cases pending with
    | true => cases h
    | false => cases h; exact ⟨rfl, Nat.le_refl 0⟩
  | cons w rest ih =>
    cases pending with
    | true =>
      rw [unstuffFrom_pending] at h
      obtain ⟨v, hv, rfl⟩ := Option.map_eq_some_iff.1 h
      have := ih false hv
      simp [markersConsumed] at this ⊢
      omega
    | false =>
      rw [unstuffFrom_idle] at h
      by_cases hw : w = esc
      · rw [if_pos hw] at h
        have := ih true h
        simp [markersConsumed, hw] at this ⊢
        omega
      · rw [if_neg hw] at h
        obtain ⟨v, hv, rfl⟩ := Option.map_eq_some_iff.1 h
        have := ih false hv
        simp [markersConsumed, hw] at this ⊢
        omega

/-! ### The checks of decode_body (R149) -/

section
variable {c : Config} {body u : List Byte}

theorem decodeBody_dangling (h : unstuff body = none) : decodeBody c body = .error .danglingEsc := by
  rw [decodeBody, h]

theorem decodeBody_unstuffed (h : unstuff body = some u) : decodeBody c body = checkUnescaped c u := by
  rw [decodeBody, h]

theorem checkUnescaped_short (h : u.length < 4) : checkUnescaped c u = .error .shortFrame := if_pos h

theorem checkUnescaped_long (h : 128 < u.length) : checkUnescaped c u = .error .longFrame := by
  rw [checkUnescaped, if_neg (show ¬u.length < 4 by omega), if_pos h]

theorem checkUnescaped_inRange (h4 : 4 ≤ u.length) (h128 : u.length ≤ 128) :
    checkUnescaped c u = if crc8 c u ≠ 0x00#8 then .error .badCrc else .ok u.dropLast := by
  rw [checkUnescaped, if_neg (show ¬u.length < 4 by omega), if_neg (show ¬128 < u.length by omega)]

end

/-! ### FRM.DEC -/

theorem exec_frmDec (f : List Byte) (s : State) :
    exec (.frmDec f) s = .next (s.withResult (.payload (frameDecode s.cfg f))) := rfl

theorem frameDecode_eq_some_iff {c : Config} {f p : List Byte} :
    frameDecode c f = some p ↔ ∃ body, frameBody f = some body ∧ decodeBody c body = .ok p := by
  unfold frameDecode
  cases frameBody f with
  | none => simp
  | some body => cases h : decodeBody c body <;> simp [h]

/-- R148, R149: FRM.DEC returns `p` exactly for a candidate frame whose unescaped bytes pass the checks. -/
theorem frameDecode_iff {c : Config} {f p : List Byte} :
    frameDecode c f = some p ↔
      ∃ body u : List Byte, f = [stx] ++ body ++ [etx] ∧ stx ∉ body ∧ etx ∉ body ∧
        unstuff body = some u ∧ 4 ≤ u.length ∧ u.length ≤ 128 ∧ crc8 c u = 0x00#8 ∧ p = u.take (u.length - 1) := by
  simp only [frameDecode_eq_some_iff, frameBody_iff, decodeBody_ok, ← List.dropLast_eq_take]
  exact exists_congr fun body =>
    ⟨fun ⟨⟨hf, hs, he⟩, u, hu⟩ => ⟨u, hf, hs, he, hu⟩, fun ⟨u, hf, hs, he, hu⟩ => ⟨⟨hf, hs, he⟩, u, hu⟩⟩

/-- FRM.DEC of the body of a frame between its sentinels. -/
theorem frameDecode_body {c : Config} {body p : List Byte} (hs : stx ∉ body) (he : etx ∉ body) :
    frameDecode c ([stx] ++ body ++ [etx]) = some p ↔ decodeBody c body = .ok p := by
  rw [frameDecode_eq_some_iff, (frameBody_iff _ body).2 ⟨rfl, hs, he⟩]
  simp

/-- R152: between the sentinels of an encoded frame stands the stuffed payload with its CRC byte. -/
theorem frameDecode_frameEncode_iff {c : Config} {p q : List Byte} :
    frameDecode c (frameEncode c p) = some q ↔ decodeBody c (stuff (p ++ [crc8 c p])) = .ok q := by
  have hframe : frameEncode c p = [stx] ++ stuff (p ++ [crc8 c p]) ++ [etx] := by simp [frameEncode, stuff_append]
  rw [hframe, frameDecode_body (not_mem_stuff (fun b => (sentinels_not_mem_escape b).1) _)
    (not_mem_stuff (fun b => (sentinels_not_mem_escape b).2) _)]

/-- R152: the payload comes back exactly if it has 3 to 127 bytes. -/
theorem frameDecode_frameEncode (c : Config) (hc : c.crcTable[0] = 0x00#8) (p : List Byte) :
    frameDecode c (frameEncode c p) = if 3 ≤ p.length ∧ p.length ≤ 127 then some p else none := by
  split
  · next h => exact frameDecode_frameEncode_iff.2 (decodeBody_stuff c hc h.1 h.2)
  · next h =>
    refine Option.eq_none_iff_forall_ne_some.2 fun q hq => h ?_
    obtain ⟨u, hu, h4, h128, -⟩ := (decodeBody_ok c _ q).1 (frameDecode_frameEncode_iff.1 hq)
    obtain rfl : p ++ [crc8 c p] = u := Option.some.inj ((unstuff_stuff _).symm.trans hu)
    rw [List.length_append, List.length_singleton] at h4 h128
    exact ⟨Nat.le_of_succ_le_succ h4, Nat.le_of_succ_le_succ h128⟩

/-! ### The streaming form (R154) -/

theorem streamBody_none {w : Byte} {s : State} {p : Bool} (hw : unescapeStep s.escPending w = (none, p))
    (rest : List Byte) (n : Nat) :
    streamBody (w :: rest) n s = streamBody rest n { s with result := .unescaped none, escPending := p } := by
  simp [streamBody, exec_escGet, hw]

theorem streamBody_some {w x : Byte} {s : State} {p : Bool} (hw : unescapeStep s.escPending w = (some x, p))
    (rest : List Byte) (n : Nat) :
    streamBody (w :: rest) n s = streamBody rest (n + 1)
      { s with result := .unescaped (some x), escPending := p, crc := crcStep s.cfg s.crc x } := by
  simp [streamBody, exec_escGet, exec_crcUpd, hw]

/-- R154: the stream ends with a pending escape exactly where the unstuffer fails; else it has counted the unescaped bytes
and absorbed them. -/
theorem streamBody_unstuffFrom (body : List Byte) (n : Nat) (s : State) :
    ∃ k t, streamBody body n s = some (k, t) ∧
      (t.escPending = true ∧ unstuffFrom s.escPending body = none ∨
        t.escPending = false ∧
          ∃ u, unstuffFrom s.escPending body = some u ∧ k = n + u.length ∧ t.crc = crcFrom s.cfg s.crc u) := by
  induction body generalizing n s with
  | nil =>
    refine ⟨n, s, rfl, ?_⟩
    cases s.escPending with
    | true => exact .inl ⟨rfl, rfl⟩
    | false => exact .inr ⟨rfl, [], rfl, rfl, rfl⟩
  | cons w rest ih =>
    rcases hw : unescapeStep s.escPending w with ⟨_ | x, p⟩
    · obtain ⟨k, t, hk, h⟩ := ih n { s with result := .unescaped none, escPending := p }
      refine ⟨k, t, (streamBody_none hw rest n).trans hk, ?_⟩
      simpa only [unstuffFrom, hw] using h
    · obtain ⟨k, t, hk, h⟩ := ih (n + 1)
        { s with result := .unescaped (some x), escPending := p, crc := crcStep s.cfg s.crc x }
      refine ⟨k, t, (streamBody_some hw rest n).trans hk, ?_⟩
      have hrest : unstuffFrom s.escPending (w :: rest) = (unstuffFrom p rest).map (x :: ·) := by
        simp only [unstuffFrom, hw]
      rw [hrest]
      refine h.imp (fun ⟨hp, hn⟩ => ⟨hp, by rw [hn, Option.map_none]⟩) fun ⟨hp, u, hu, hlen, hcrc⟩ =>
        ⟨hp, x :: u, by rw [hu, Option.map_some], ?_, hcrc⟩
      rw [hlen, List.length_cons, Nat.add_assoc, Nat.add_comm 1]

/-- R154: the verdict, from where the stream ends. -/
theorem streamAccepts_of_streamBody {body : List Byte} {s t : State} {n : Nat}
    (h : streamBody body 0 { s with crc := crcSeed, escPending := false } = some (n, t)) :
    streamAccepts body s = true ↔ t.crc = 0x00#8 ∧ t.escPending = false ∧ 4 ≤ n ∧ n ≤ 128 := by
  simp only [streamAccepts, exec_crcClr, h, exec_crcChk]
  simp [crcOk, and_assoc]

/-- R154: the streaming check accepts exactly the bodies decode_body accepts. -/
theorem streamAccepts_iff (body : List Byte) (s : State) :
    streamAccepts body s = true ↔ ∃ p, decodeBody s.cfg body = .ok p := by
  obtain ⟨n, t, hs, h⟩ := streamBody_unstuffFrom body 0 { s with crc := crcSeed, escPending := false }
  rw [streamAccepts_of_streamBody hs]
  simp only [decodeBody_ok]
  rcases h with ⟨hp, hu⟩ | ⟨hp, u, hu, hn, hcrc⟩
  · have hnone : unstuff body = none := hu
    simp [hp, hnone]
  · have hsome : unstuff body = some u := hu
    have hres : t.crc = crc8 s.cfg u := hcrc
    rw [Nat.zero_add] at hn
    constructor
    · rintro ⟨hzero, -, h4, h128⟩
      exact ⟨_, u, hsome, hn ▸ h4, hn ▸ h128, hres ▸ hzero, rfl⟩
    · rintro ⟨p, v, hv, h4, h128, hzero, -⟩
      obtain rfl : u = v := Option.some.inj (hsome.symm.trans hv)
      exact ⟨hres.trans hzero, hp, hn ▸ h4, hn ▸ h128⟩

/-! ### The obligations -/

/-- Settles O10: FRM.ENC leaves the parameters, so the decoder works with the encoder's table. -/
theorem frameRoundTrip : Obligations.FrameRoundTrip := by
  intro p s hc
  refine ⟨_, _, exec_frmEnc p s, rfl, ?_⟩
  rw [exec_frmDec, State.withResult_cfg, frameDecode_frameEncode s.cfg hc]
  rfl

/-- Settles O2: the recursion of R124 is the law of an appended string, for one byte. -/
theorem crcDatapath : Obligations.CrcDatapath :=
  ⟨exec_crcClr, execAll_crc8, fun _ => rfl, fun c p b => crc8_append c p [b]⟩

/-- Settles O7: the two equations of the unstuffer, and their count by induction on the body. -/
theorem unstuffLaws : Obligations.UnstuffLaws := by
  refine ⟨⟨rfl, rfl, unstuff_marker, fun w rest hw => unstuff_plain hw rest⟩, unstuff_stuff, by decide,
    fun body u hu => ?_⟩
  obtain ⟨hcount, hhalf⟩ := unstuffFrom_length false body hu
  exact ⟨hcount, hhalf, Nat.le.intro hcount⟩

/-- Settles O9: the candidate frame by `frameDecode_iff`, the reasons in the order of the checks. -/
theorem frameDecodeRule : Obligations.FrameDecodeRule := by
  refine ⟨fun f s => ⟨_, exec_frmDec f s, fun p => frameDecode_iff⟩, fun c body => ⟨decodeBody_dangling, fun u hu => ?_⟩⟩
  rw [decodeBody_unstuffed hu]
  refine ⟨checkUnescaped_short, checkUnescaped_long, fun h4 h128 hcrc => ?_, fun h4 h128 hcrc => ?_⟩
  · rw [checkUnescaped_inRange h4 h128, if_pos hcrc]
  · rw [checkUnescaped_inRange h4 h128, if_neg (not_not.2 hcrc), List.dropLast_eq_take]

/-- Settles O11: both sides ask whether decode_body gives a payload. -/
theorem streamingFormAgrees : Obligations.StreamingFormAgrees := by
  intro body s hstx hetx
  rw [streamAccepts_iff]
  refine exists_congr fun p => ?_
  rw [exec_frmDec, ← frameDecode_body hstx hetx]
  constructor
  · intro h
    rw [h]
    rfl
  · intro h
    exact PortResult.payload.inj (congrArg State.result (Host.Outcome.next.inj h))

end Sys2Proof.Machine

/-! ## The decoder and the encoder are inverse to each other (30_encoding.md sections 1 to 3) -/

namespace Sys2Proof

/-! ### Reading back what the encoder wrote -/

theorem decode_of_layout {bytes : List Byte} {i : Instr} (h : decodeLayout bytes = .ok i) (hw : i.wf = true) :
    decode bytes = .ok i := by
  simp [decode, h, hw]

theorem decodeLayout_port {op : Byte} (h : op.toNat < 16) (ops : List Byte) :
    decodeLayout (op :: ops) = decodePort op.toNat ops := if_pos h

theorem decodeRead_encodeRef {d : ChannelRef} (h : d.wf = true) : decodeRead (encodeRef d) = .ok (.chRd d) := by
  have hd := decodeScratch_encodeRef d h []
  rw [List.append_nil] at hd
  rw [decodeRead, hd]

theorem decodeWrite_encodeRef {d : ChannelRef} (h : d.wf = true) (v : Vector Byte 8) :
    decodeWrite (encodeRef d ++ vectorBytes v) = .ok (.chWr d v) := by
  rw [decodeWrite, decodeScratch_encodeRef d h]
  exact congrArg (fun w => Except.ok (Instr.chWr d w)) (vector_of_bytes v)

/-- The command bytes stand above the 4-bit selects. -/
theorem commandBytes_ge {command : Byte} (h : command ∈ commandBytes) : ¬command.toNat < 16 := by
  revert command
  decide

theorem decodeLayout_command {command : Byte} (h : command ∈ commandBytes) (ops : List Byte) :
    decodeLayout (command :: ops) = decodeMessage command ops := by
  rw [decodeLayout, if_neg (commandBytes_ge h), if_pos h]

/-- R85, R100: a received message is read as the row its command byte and length select. -/
theorem decodeLayout_encodeMessage {command : Byte} (h : command ∈ commandBytes) (hd : Header) (ps : List Byte) :
    decodeLayout (encodeMessage command hd ps) = .ok (Instr.ofMessage ⟨hd.nodeId, hd.msgId, command, ps⟩) := by
  rw [encodeMessage, decodeLayout_command h, decodeMessage, if_pos rfl]

/-- A well-formed term of the full form of 'C' has a length no other form has (R248). -/
theorem configRow_full {ps : List Byte} (h1 : ps.length ≠ 1) (h2 : ps.length ≠ 2) (hd : Header) :
    configRow hd ps = .cConfigFull hd ps := by
  fun_cases configRow hd ps
  · exact absurd rfl h1
  · exact absurd rfl h2
  · rfl

theorem decodeTelemetry_leBytes (t : BitVec 24) (mask : BitVec 16) (values : List Byte) :
    decodeTelemetry (leBytes 3 t.toNat ++ leBytes 2 mask.toNat ++ values) = .ok (.tlmTelemetry t mask values) := by
  have ht : BitVec.ofNat 24 (leValue (leBytes 3 t.toNat)) = t := by
    rw [leValue_leBytes, Nat.mod_eq_of_lt (by exact t.isLt), BitVec.ofNat_toNat, BitVec.setWidth_eq]
  have hm : BitVec.ofNat 16 (leValue (leBytes 2 mask.toNat)) = mask := by
    rw [leValue_leBytes, Nat.mod_eq_of_lt (by exact mask.isLt), BitVec.ofNat_toNat, BitVec.setWidth_eq]
  calc decodeTelemetry (leBytes 3 t.toNat ++ leBytes 2 mask.toNat ++ values)
    _ = .ok (.tlmTelemetry (BitVec.ofNat 24 (leValue (leBytes 3 t.toNat)))
          (BitVec.ofNat 16 (leValue (leBytes 2 mask.toNat))) values) := rfl
    _ = .ok (.tlmTelemetry t mask values) := by rw [ht, hm]

/-- The layouts read every well-formed instruction back. -/
theorem decodeLayout_encode (i : Instr) (h : i.wf = true) : decodeLayout (encode i) = .ok i := by
  cases i with
  | op0Reserved | crcClr | crcUpd | crcChk | escPut | escGet | frmEnc | frmDec | rbPush | rbNext | dspMsg | tmTick
  | tmPoll | rst => rfl
  | chRd d => exact (decodeLayout_port (by decide) _).trans (decodeRead_encodeRef h)
  | chWr d v => exact (decodeLayout_port (by decide) _).trans (decodeWrite_encodeRef h v)
  | vGetVersion hd ps | iGetInfo hd ps | wWriteRegister hd ps | qQueryRegister hd ps | tResetTime hd ps
  | rReadChannelData hd ps | sDebugString hd ps => exact decodeLayout_encodeMessage (by decide) hd ps
  | cConfigQuery hd x => exact decodeLayout_encodeMessage (by decide) hd [x]
  | cConfigMode hd x mode => exact decodeLayout_encodeMessage (by decide) hd [x, mode]
  | cConfigFull hd ps =>
    simp only [Instr.wf, Bool.and_eq_true, decide_eq_true_eq] at h
    obtain ⟨⟨-, h1⟩, h2⟩ := h
    exact (decodeLayout_encodeMessage (by decide) hd ps).trans (congrArg Except.ok (configRow_full h1 h2 hd))
  | dDecimationQuery hd => exact decodeLayout_encodeMessage (by decide) hd []
  | dDecimationSet hd x extra => exact decodeLayout_encodeMessage (by decide) hd (x :: extra)
  | tlmTelemetry t mask values =>
    exact (decodeLayout_command (by decide) _).trans (decodeTelemetry_leBytes t mask values)

/-! ### Writing back what the decoder read -/

theorem leBytes_leValue_of_length {n : Nat} {bytes : List Byte} (hn : bytes.length = n) :
    leBytes n (leValue bytes) = bytes := hn ▸ leBytes_leValue bytes

/-- A number of whole bytes, put back as its bytes. -/
theorem leBytes_ofNat_leValue {n w : Nat} {bytes : List Byte} (hn : bytes.length = n) (hw : 256 ^ n = 2 ^ w) :
    leBytes n (BitVec.ofNat w (leValue bytes)).toNat = bytes := by
  have hlt : leValue bytes < 2 ^ w := hw ▸ hn ▸ leValue_lt bytes
  rw [BitVec.toNat_ofNat, Nat.mod_eq_of_lt hlt, leBytes_leValue_of_length hn]

theorem noOperand_ok {i j : Instr} {ops : List Byte} (h : noOperand i ops = .ok j) : j = i ∧ ops = [] := by
  cases ops with
  | nil => cases h; exact ⟨rfl, rfl⟩
  | cons => cases h

theorem oneByte_ok {f : Byte → Instr} {j : Instr} {ops : List Byte} (h : oneByte f ops = .ok j) :
    ∃ b, j = f b ∧ ops = [b] := by
  match ops with
  | [] => cases h
  | [b] => cases h; exact ⟨b, rfl, rfl⟩
  | _ :: _ :: _ => cases h

theorem encodeRef_of_decodeScratch {ops rest : List Byte} {d : ChannelRef} (h : decodeScratch ops = .ok (d, rest)) :
    encodeRef d ++ rest = ops := by
  unfold decodeScratch at h
  split at h
  · cases h
    rw [encodeRef, leBytes_leValue_of_length]
    · rfl
    · rfl
  · cases h

theorem encode_of_decodeRead {ops : List Byte} {i : Instr} (h : decodeRead ops = .ok i) : encode i = 0x0A#8 :: ops := by
  unfold decodeRead at h
  split at h
  · next hd =>
    cases h
    rw [encode, ← encodeRef_of_decodeScratch hd, List.append_nil]
  · cases h
  · cases h

theorem encode_of_decodeWrite {ops : List Byte} {i : Instr} (h : decodeWrite ops = .ok i) :
    encode i = 0x0B#8 :: ops := by
  unfold decodeWrite at h
  split at h
  · next hd =>
    cases h
    rw [encode, ← encodeRef_of_decodeScratch hd]
    rfl
  · split at h <;> cases h
  · cases h

theorem encode_of_decodeDispatch {ops : List Byte} {i : Instr} (h : decodeDispatch ops = .ok i) :
    encode i = 0x0C#8 :: ops := by
  unfold decodeDispatch at h
  split at h
  · cases h; rfl
  · cases h

/-- R82: the select, then the operands. -/
theorem encode_of_decodePort {op : Nat} {ops : List Byte} {i : Instr} (h : decodePort op ops = .ok i) :
    encode i = BitVec.ofNat 8 op :: ops := by
  unfold decodePort at h
  split at h
  case h_3 | h_5 | h_6 => obtain ⟨b, rfl, rfl⟩ := oneByte_ok h; rfl
  case h_7 | h_8 | h_9 => cases h; rfl
  case h_11 => exact encode_of_decodeRead h
  case h_12 => exact encode_of_decodeWrite h
  case h_13 => exact encode_of_decodeDispatch h
  case h_17 => cases h
  all_goals obtain ⟨rfl, rfl⟩ := noOperand_ok h; rfl

theorem encode_of_decodeTelemetry {ops : List Byte} {i : Instr} (h : decodeTelemetry ops = .ok i) :
    encode i = cmdReadChannelData :: 0x01#8 :: ops := by
  unfold decodeTelemetry at h
  split at h
  · cases h
    rw [encode, leBytes_ofNat_leValue, leBytes_ofNat_leValue]
    all_goals rfl
  · cases h

/-- R85, R100: the row a message with a known command selects is encoded as the message. -/
theorem encode_ofMessage {m : Message} (h : m.command ∈ commandBytes) :
    encode (Instr.ofMessage m) = encodeMessage m.command m.header m.params := by
  obtain ⟨node, id, command, ps⟩ := m
  simp only [commandBytes, List.mem_cons, List.not_mem_nil, or_false] at h
  rcases h with rfl | rfl | rfl | rfl | rfl | rfl | rfl | rfl | rfl
  any_goals rfl -- all but 'C' and 'D', whose row the parameters select
  · show encode (configRow ⟨node, id⟩ ps) = encodeMessage cmdConfig ⟨node, id⟩ ps
    fun_cases configRow ⟨node, id⟩ ps <;> rfl
  · show encode (decimationRow ⟨node, id⟩ ps) = encodeMessage cmdDecimation ⟨node, id⟩ ps
    cases ps <;> rfl

theorem encode_of_decodeMessage {command : Byte} (hc : command ∈ commandBytes) {ops : List Byte} {i : Instr}
    (h : decodeMessage command ops = .ok i) : encode i = command :: ops := by
  unfold decodeMessage at h
  split at h
  · cases h
  · split at h
    · next hdir =>
      subst hdir
      split at h
      · cases h
        exact encode_ofMessage hc
      · cases h
    split at h
    · next hdir =>
      obtain ⟨rfl, rfl⟩ := hdir
      exact encode_of_decodeTelemetry h
    · cases h

/-- What the layouts read is the encoding of what they answer. -/
theorem encode_of_decodeLayout {bytes : List Byte} {i : Instr} (h : decodeLayout bytes = .ok i) : encode i = bytes := by
  cases bytes with
  | nil => cases h
  | cons select ops =>
    rw [decodeLayout] at h
    split at h
    · have he := encode_of_decodePort h
      rwa [BitVec.ofNat_toNat, BitVec.setWidth_eq] at he
    split at h
    · exact encode_of_decodeMessage ‹_› h
    · cases h

theorem decodeLayout_of_decode {bytes : List Byte} {i : Instr} (h : decode bytes = .ok i) :
    decodeLayout bytes = .ok i := by
  unfold decode at h
  split at h
  · next heq =>
    split at h
    · cases h; exact heq
    · cases h
  · cases h

/-- R31: no well-formed instruction addresses a registry slot. -/
theorem not_namesSlot_of_wf {i : Instr} (h : i.wf = true) : ¬Machine.NamesSlot i := by
  rintro (⟨j, rfl⟩ | ⟨j, v, rfl⟩) <;> cases h

/-! ### The obligations -/

/-- Settles O55: the layouts read the encoding back, and the bounds hold by assumption. -/
theorem decodeOfEncode : Obligations.DecodeOfEncode := fun i h => decode_of_layout (decodeLayout_encode i h) h

/-- Settles O56: the bounds are the decoder's last check, and they exclude the slot form. -/
theorem encodeOfDecode : Obligations.EncodeOfDecode := fun _ _ h =>
  ⟨decode_wf h, encode_of_decodeLayout (decodeLayout_of_decode h), not_namesSlot_of_wf (decode_wf h)⟩

/-- Settles O57, row by row of the tables. -/
theorem tableWordsDecode : Obligations.TableWordsDecode :=
  ⟨by decide, by decide, by decide, by decide, by decide, by decide, by decide, by decide, by decide, rfl, rfl⟩

end Sys2Proof

/-! ## What a step runs (44_dispatcher.md section 6, 20_memory.md section 5) -/

namespace Sys2Proof.Machine

/-! ### A request at the head of the queue -/

/-- R66: what the other agents do leaves the oldest request where it is. -/
theorem apply_enqueueFirst (s : State) (r : List Byte) (e : Arrival) :
    (s.enqueueFirst r).apply e = (s.apply e).enqueueFirst r := by
  cases e with
  | beginPush | consumerTurn | tick | memoryWrite | nullByte | bind | request => rfl
  | pushStep =>
    have hpush : ∀ (u : State) (b : Byte), (u.enqueueFirst r).pushByte b = (u.pushByte b).enqueueFirst r := fun u b => by
      rw [State.pushByte, show pushRefused (u.enqueueFirst r) = pushRefused u from rfl, State.pushByte]
      split <;> rfl
    show (s.enqueueFirst r).pushStep = s.pushStep.enqueueFirst r
    unfold State.pushStep
    rw [State.enqueueFirst_pushing]
    split
    · rfl
    · rfl
    · exact hpush (s.withPushing (if pushRefused s || _ then _ else _)) _
  | takeText =>
    show (s.enqueueFirst r).takeText = s.takeText.enqueueFirst r
    unfold State.takeText
    rw [State.enqueueFirst_dbgPop, State.enqueueFirst_dbgPush]
    split <;> rfl

theorem foldl_apply_enqueueFirst (events : List Arrival) (s : State) (r : List Byte) :
    events.foldl State.apply (s.enqueueFirst r) = (events.foldl State.apply s).enqueueFirst r := by
  induction events generalizing s with
  | nil => rfl
  | cons e rest ih => rw [List.foldl_cons, apply_enqueueFirst, ih, List.foldl_cons]

/-- A request at the head of the queue is still there after the boundary. -/
theorem land_enqueueFirst (s : State) (r : List Byte) : (s.enqueueFirst r).land = s.land.enqueueFirst r := by
  unfold State.land
  rw [State.enqueueFirst_arrivals]
  split
  · rfl
  · next events later _ => exact foldl_apply_enqueueFirst events { s with arrivals := later } r

theorem decodeTableWord_iff {nbits w : Nat} {i : Instr} :
    decodeTableWord nbits w = some i ↔ decode (tableRequest nbits w) = .ok i := by
  unfold decodeTableWord
  cases decode (tableRequest nbits w) <;> simp

/-! ### The step by what waits -/

theorem step_request {s : State} {bytes : List Byte} {waiting : List (List Byte)}
    (h : s.land.requests = bytes :: waiting) : step s = runRequest bytes { s.land with requests := waiting } := by
  rw [step, runNext, h]

theorem step_idle {s : State} (h : s.land.requests = []) : step s = mainLoopStep s.land := by
  rw [step, runNext, h]

theorem runRequest_ok {bytes : List Byte} {i : Instr} (h : decode bytes = .ok i) (s : State) :
    runRequest bytes s = exec i s := by
  rw [runRequest, h]

theorem runRequest_error {bytes : List Byte} {e : DecodeError} (h : decode bytes = .error e) (s : State) :
    runRequest bytes s = .refused (.malformedRequest e) := by
  rw [runRequest, h]

theorem mainLoopStep_drain {s t : State} (h : s.loop = .drain) (ht : exec .rbNext s = .next t) :
    mainLoopStep s = .next (afterNext t) := by
  rw [mainLoopStep, h]
  simp only [ht]

theorem mainLoopStep_dispatch {s : State} {m : Message} (h : s.loop = .dispatch m) :
    mainLoopStep s = exec (Instr.ofMessage m) { s with loop := .drain } := by
  rw [mainLoopStep, h]

theorem mainLoopStep_poll {s : State} (h : s.loop = .poll) : mainLoopStep s = exec .tmPoll { s with loop := .drain } := by
  rw [mainLoopStep, h]

theorem afterNext_some {t : State} {m : Message} (h : t.result = .message (some m)) :
    afterNext t = { t with loop := .dispatch m } := by
  rw [afterNext, h]

theorem afterNext_none {t : State} (h : t.result = .message none) : afterNext t = { t with loop := .poll } := by
  rw [afterNext, h]

/-! ### The obligations -/

/-- Settles O58: the queue's head is run; a table word is put before the boundary and is the head after it. -/
theorem stepRunsDecodedRequest : Obligations.StepRunsDecodedRequest := by
  refine ⟨fun s bytes waiting h => ?_, fun s nbits w i h => ?_⟩
  · rw [step_request h]
    exact ⟨fun i hi => runRequest_ok hi _, fun e he => runRequest_error he _⟩
  · have hland : (s.withFetchWord nbits w).land = s.land.enqueueFirst (tableRequest nbits w) := land_enqueueFirst s _
    rw [step_request (hland ▸ State.enqueueFirst_requests s.land (tableRequest nbits w)),
      runRequest_ok (decodeTableWord_iff.1 h), hland]
    rfl

/-- Settles O59, by the loop's position; the dispatched row acts as DSP.MSG of its message. -/
theorem mainLoopOrder : Obligations.MainLoopOrder := by
  intro s h
  rw [step_idle h]
  refine ⟨fun hl t ht => ?_, fun m hl => ?_, mainLoopStep_poll⟩
  · rw [mainLoopStep_drain hl ht]
    exact ⟨fun m hm => by rw [afterNext_some hm], fun hn => by rw [afterNext_none hn]⟩
  · rw [mainLoopStep_dispatch hl, exec_ofMessage]

end Sys2Proof.Machine

/-! ## The machine as a whole: the good states, and which operation writes which register (10_state.md) -/

namespace Sys2Proof.Machine

/-! ### Good states: the slots of the registry -/

/-- R33, R34 for one slot. -/
def SlotInv (c : Config) (x : Channel) : Prop :=
  x.dereferenceDepth = controlDepth x.control ∧ x.sizeBytes.toNat ≤ maxValueBytes ∧ x.address < c.addressSpace

theorem registryInv_iff {s : State} : RegistryInv s ↔ ∀ i : Fin 16, SlotInv s.cfg s.ch[i] := Iff.rfl

theorem inv_setChannel {s : State} (h : s.Inv) (j : Fin 16) {x : Channel} (hx : SlotInv s.cfg x) :
    (s.setChannel j x).Inv := by
  obtain ⟨hcfg, hidx, hreg, hend, htext, hmem⟩ := h
  refine ⟨hcfg, hidx, registryInv_iff.2 fun k => ?_, hend, htext, hmem⟩
  rw [setChannel_ch]
  split
  · exact hx
  · exact registryInv_iff.1 hreg k

/-- R251: the parameters of a full reconfiguration make a legal slot, whatever RESOLVE answers. -/
theorem slotInv_configured (c : Config) (r : Resolver) {ps : List Byte} (h : (byteAt ps 7).toNat ≤ maxValueBytes) :
    SlotInv c (configuredChannel c r ps) := ⟨rfl, h, wrap_lt c _⟩

theorem slotInv_zeroed {c : Config} (h : c.Valid) : SlotInv c (Channel.zeroed c) := by
  obtain ⟨-, -, -, -, -, hnull, -⟩ := h
  have hdepth : 0x00#8 = controlDepth 0x00#8 := by decide
  exact ⟨hdepth, Nat.zero_le _, hnull⟩

/-! ### Good states: rings, memories and indices -/

theorem inv_pushByte {s : State} (h : s.Inv) (b : Byte) : (s.pushByte b).Inv := by
  obtain ⟨hcfg, hidx, hreg, hend, htext, hmem, ⟨hwf, hkeys⟩, hdbg⟩ := h
  obtain ⟨hpush, hparse, hstart⟩ := hidx
  rcases pushByte_cases s b with ⟨_, hp⟩ | ⟨_, hp⟩ <;> rw [hp]
  · exact ⟨hcfg, ⟨hpush, hparse, hstart⟩, hreg, hend, htext, hmem, ⟨hwf, hkeys⟩, hdbg⟩
  · exact ⟨hcfg, ⟨ringNext_lt _ _, hparse, hstart⟩, hreg, hend, htext, hmem,
      ⟨Memory.store_wf hwf _ b, Memory.store_keys hkeys hpush b⟩, hdbg⟩

theorem inv_pushStep {s : State} (h : s.Inv) : s.pushStep.Inv := by
  rcases pushStep_cases s with hp | ⟨p, hp⟩ | ⟨p, b, hp⟩ <;> rw [hp]
  · exact h
  · exact h
  · exact inv_pushByte (s := s.withPushing p) h b

theorem inv_writeByte {s : State} (h : s.Inv) (a : Address) (b : Byte) : (s.writeByte a b).Inv := by
  obtain ⟨hcfg, hidx, hreg, hend, htext, ⟨hwf, hkeys⟩, hrings⟩ := h
  exact ⟨hcfg, hidx, hreg, hend, htext, ⟨Memory.store_wf hwf _ b, Memory.store_keys hkeys (wrap_lt _ a) b⟩, hrings⟩

theorem inv_storeText {s : State} (h : s.Inv) (b : Byte) : (s.storeText b).Inv := by
  obtain ⟨hcfg, hidx, hreg, hend, ⟨hpush, hpop⟩, hmem, hbuf, hwf, hkeys⟩ := h
  exact ⟨hcfg, hidx, hreg, hend, ⟨textNext_lt _ _, hpop⟩, hmem, hbuf, Memory.store_wf hwf _ b,
    Memory.store_keys hkeys hpush b⟩

theorem inv_takeText {s : State} (h : s.Inv) : s.takeText.Inv := by
  obtain ⟨hcfg, hidx, hreg, hend, ⟨hpush, hpop⟩, hmem⟩ := h
  unfold State.takeText
  split
  · exact ⟨hcfg, hidx, hreg, hend, ⟨hpush, hpop⟩, hmem⟩
  · exact ⟨hcfg, hidx, hreg, hend, ⟨hpush, textNext_lt _ _⟩, hmem⟩

/-- R176: a scan step moves the parse side within the ring. -/
theorem inv_scanStep {s : State} (h : s.Inv) : (scanStep s).2.Inv := by
  obtain ⟨hcfg, ⟨hpush, hparse, hstart⟩, hreg, hend, htext, hmem⟩ := h
  have hs := scanned_step s
  have hparse' : (scanStep s).2.parseIndex < s.cfg.ringCapacity := hs.parseIndex ▸ ringNext_lt _ _
  have hstart' : (scanStep s).2.frameStart < s.cfg.ringCapacity := by
    rcases hs.frameStart with hf | hf <;> rw [hf] <;> assumption
  rw [hs.same]
  exact ⟨hcfg, ⟨hpush, hparse', hstart'⟩, hreg, hend, htext, hmem⟩

/-- R39, R256: 0 is coerced to 1, and a byte is at most 255. -/
theorem decimationOf_range (v : Byte) : 1 ≤ (decimationOf v).toNat ∧ (decimationOf v).toNat ≤ 255 := by
  unfold decimationOf
  split
  · decide
  · next hv =>
    have hne : v.toNat ≠ 0 := fun he => hv (BitVec.eq_of_toNat_eq he)
    rw [BitVec.toNat_setWidth, Nat.mod_eq_of_lt (by omega)]
    omega

theorem inv_resetBlock {s : State} (hcfg : s.cfg.Valid) (hmem : MemoryInv s) : s.resetBlock.Inv := by
  have hring := Config.ringCapacity_pos s.cfg
  have htext := Config.textCapacity_pos s.cfg
  have hdecimation : 1 ≤ (1#32).toNat ∧ (1#32).toNat ≤ 255 := by decide
  refine ⟨hcfg, ⟨hring, hring, hring⟩, registryInv_iff.2 fun i => ?_, hdecimation, ⟨htext, htext⟩, hmem⟩
  simpa [State.resetBlock] using slotInv_zeroed hcfg

/-! ### Good states: every elementary change -/

theorem inv_apply {s : State} (h : s.Inv) (e : Arrival) : (s.apply e).Inv := by
  cases e with
  | pushStep => exact inv_pushStep h
  | memoryWrite a b => exact inv_writeByte h a b
  | takeText => exact inv_takeText h
  | beginPush | consumerTurn | tick | nullByte | bind | request => exact h

theorem inv_land {s : State} (h : s.Inv) : s.land.Inv :=
  land_keep (P := State.Inv) (fun _ e hs => inv_apply hs e) (fun _ _ hs => hs) h

theorem inv_effect {i : Instr} {s t : State} (he : Effect i s t) (h : s.Inv) : t.Inv := by
  cases he
  case land => exact inv_land h
  case push b _ => exact inv_pushByte h b
  case scan => exact inv_scanStep h
  case write a b _ _ => exact inv_writeByte h a b
  case text b _ _ => exact inv_storeText h b
  case latch j _ _ => exact inv_setChannel h j (registryInv_iff.1 h.2.2.1 j)
  case mode j _ _ => exact inv_setChannel h j (registryInv_iff.1 h.2.2.1 j)
  case configure j ps _ hs => exact inv_setChannel h j (slotInv_configured s.cfg s.resolver hs)
  case decimate v _ =>
    obtain ⟨hcfg, hidx, hreg, -, hrest⟩ := h
    exact ⟨hcfg, hidx, hreg, decimationOf_range v, hrest⟩
  case reset =>
    obtain ⟨hcfg, -, -, -, -, hmem⟩ := h
    exact inv_resetBlock hcfg hmem
  all_goals exact h

theorem inv_exec {i : Instr} {s t : State} (h : exec i s = .next t) (hs : s.Inv) : t.Inv :=
  (exec_effects h).keep (fun _ _ => inv_effect) hs

/-! ### Registers an operation leaves alone -/

/-- A register every elementary change of an operation leaves is left by the operation. -/
theorem Effects.same {i : Instr} {s t : State} (h : Effects i s t) {α : Type} (f : State → α)
    (hstep : ∀ s t, Effect i s t → f t = f s) : f t = f s :=
  h.keep (P := fun u => f u = f s) (fun u v e hu => (hstep u v e).trans hu) rfl

/-- R171: a push step writes the producer's side of the ring and the record of drops. -/
theorem pushByte_same (s : State) (b : Byte) : s.pushByte b = { s with
    buf := (s.pushByte b).buf, pushIndex := (s.pushByte b).pushIndex
    overrun := (s.pushByte b).overrun, drops := (s.pushByte b).drops } := by
  rcases pushByte_cases s b with ⟨_, hp⟩ | ⟨_, hp⟩ <;> rw [hp] <;> rfl

/-- R66 (e): with nothing planned no operation comes to anything planned. -/
theorem effect_quiet {i : Instr} {s t : State} (he : Effect i s t) (hq : Quiet s) : Quiet t := by
  cases he
  case land h => exact absurd hq h
  case push b _ => exact (pushByte_fields s b).2.trans hq
  case scan => exact (scanned_step s).fields.2.2.2.trans hq
  all_goals exact hq

/-- The same with nothing else moving, where no change is a boundary's. -/
theorem Effects.same_quiet {i : Instr} {s t : State} (h : Effects i s t) (hq : Quiet s) {α : Type} (f : State → α)
    (hstep : ∀ s t, Effect i s t → Quiet s → f t = f s) : f t = f s :=
  (h.keep (P := fun u => Quiet u ∧ f u = f s)
    (fun u v e ⟨hu, hf⟩ => ⟨effect_quiet e hu, (hstep u v e hu).trans hf⟩) ⟨hq, rfl⟩).2

section
variable {i : Instr} {s t : State} (he : Effect i s t)
include he

theorem effect_cfg : t.cfg = s.cfg := by
  cases he
  case land => exact (landed_land s).cfg
  case push b _ => exact (landed_pushByte s b).cfg
  case scan => exact (scanned_step s).fields.1
  all_goals rfl

theorem effect_crc (hclr : i ≠ .crcClr) (hupd : ∀ b, i ≠ .crcUpd b) (hrst : i ≠ .rst) : t.crc = s.crc := by
  cases he
  case land => exact (landed_land s).crc
  case push b _ => exact (landed_pushByte s b).crc
  case scan => rw [(scanned_step s).same]
  case crc h => exact (h.elim hclr fun ⟨b, hb⟩ => hupd b hb).elim
  case reset h => exact (hrst h).elim
  all_goals rfl

theorem effect_escPending (hclr : i ≠ .crcClr) (hget : ∀ w, i ≠ .escGet w) (hrst : i ≠ .rst) :
    t.escPending = s.escPending := by
  cases he
  case land => exact (landed_land s).escPending
  case push b _ => exact (landed_pushByte s b).escPending
  case scan => rw [(scanned_step s).same]
  case escape h => exact (h.elim hclr fun ⟨w, hw⟩ => hget w hw).elim
  case reset h => exact (hrst h).elim
  all_goals rfl

theorem effect_parseSide (hnext : i ≠ .rbNext) (hrst : i ≠ .rst) :
    (t.parseIndex, t.frameStart, t.startValid) = (s.parseIndex, s.frameStart, s.startValid) := by
  have hlanded {u : State} (h : Landed s u) :
      (u.parseIndex, u.frameStart, u.startValid) = (s.parseIndex, s.frameStart, s.startValid) := by
    rw [h.parseIndex, h.frameStart, h.startValid]
  cases he
  case land => exact hlanded (landed_land s)
  case push b _ => exact hlanded (landed_pushByte s b)
  case scan h _ => exact (hnext h).elim
  case reset h => exact (hrst h).elim
  all_goals rfl

/-- R28, D9: only RST clears the flag. -/
theorem effect_overrun_stays (hrst : i ≠ .rst) (ho : s.overrun = true) : t.overrun = true := by
  cases he
  case land => exact (landed_land s).overrun ho
  case push b _ => exact (landed_pushByte s b).overrun ho
  case scan => rw [(scanned_step s).same]; exact ho
  case reset h => exact (hrst h).elim
  all_goals exact ho

theorem effect_decimation (hcmd : commandOf i ≠ some cmdDecimation) (hrst : i ≠ .rst) :
    t.decimation = s.decimation := by
  cases he
  case land => exact (landed_land s).decimation
  case push b _ => exact (landed_pushByte s b).decimation
  case scan => rw [(scanned_step s).same]
  case decimate h => exact (hcmd h).elim
  case reset h => exact (hrst h).elim
  all_goals rfl

theorem effect_tracingOn (hcmd : commandOf i ≠ some cmdReadChannelData) (hrst : i ≠ .rst) :
    t.tracingOn = s.tracingOn := by
  cases he
  case land => exact (landed_land s).tracingOn
  case push b _ => exact (landed_pushByte s b).tracingOn
  case scan => rw [(scanned_step s).same]
  case trace h => exact (hcmd h).elim
  case reset h => exact (hrst h).elim
  all_goals rfl

theorem effect_tracingOnce (hread : commandOf i ≠ some cmdReadChannelData) (hconfig : commandOf i ≠ some cmdConfig)
    (hpoll : i ≠ .tmPoll) (hrst : i ≠ .rst) : t.tracingOnce = s.tracingOnce := by
  cases he
  case land => exact (landed_land s).tracingOnce
  case push b _ => exact (landed_pushByte s b).tracingOnce
  case scan => rw [(scanned_step s).same]
  case arm h => exact (h.elim hconfig hread).elim
  case disarm h => exact (hpoll h).elim
  case reset h => exact (hrst h).elim
  all_goals rfl

theorem effect_bases (hcmd : commandOf i ≠ some cmdResetTime) (hpoll : i ≠ .tmPoll) (hrst : i ≠ .rst) :
    (t.lastFastUpdate, t.lastSlowUpdate) = (s.lastFastUpdate, s.lastSlowUpdate) := by
  have hlanded {u : State} (h : Landed s u) :
      (u.lastFastUpdate, u.lastSlowUpdate) = (s.lastFastUpdate, s.lastSlowUpdate) := by
    rw [h.lastFastUpdate, h.lastSlowUpdate]
  cases he
  case land => exact hlanded (landed_land s)
  case push b _ => exact hlanded (landed_pushByte s b)
  case scan => rw [(scanned_step s).same]
  case resetTime h => exact (hcmd h).elim
  case beginScan h => exact (hpoll h).elim
  case reset h => exact (hrst h).elim
  all_goals rfl

/-- R350: RST leaves what the text ring's slots hold. -/
theorem effect_dbgBuf (hcmd : commandOf i ≠ some cmdDebugString) : t.dbgBuf = s.dbgBuf := by
  cases he
  case land => exact (landed_land s).dbgBuf
  case push b _ => exact (landed_pushByte s b).dbgBuf
  case scan => rw [(scanned_step s).same]
  case text h _ => exact (hcmd h).elim
  all_goals rfl

theorem effect_dbgPush (hcmd : commandOf i ≠ some cmdDebugString) (hrst : i ≠ .rst) : t.dbgPush = s.dbgPush := by
  cases he
  case land => exact (landed_land s).dbgPush
  case push b _ => exact (landed_pushByte s b).dbgPush
  case scan => rw [(scanned_step s).same]
  case text h _ => exact (hcmd h).elim
  case reset h => exact (hrst h).elim
  all_goals rfl

/-- A slot but for its latch. -/
theorem effect_slot (hcmd : commandOf i ≠ some cmdConfig) (hrst : i ≠ .rst) (j : Fin 16) (l : Vector Byte 8) :
    ({ t.ch[j] with previousValue := l } : Channel) = { s.ch[j] with previousValue := l } := by
  cases he
  case land => rw [(landed_land s).ch]
  case push b _ => rw [(landed_pushByte s b).ch]
  case scan => rw [(scanned_step s).same]
  case latch k _ _ =>
    rw [setChannel_ch]
    split
    · next hk => rw [hk]
    · rfl
  case mode h => exact (hcmd h).elim
  case configure h _ => exact (hcmd h).elim
  case reset h => exact (hrst h).elim
  all_goals rfl

/-- R31: the latch is a scan's to write, or that of the one slot a CH.RD names. -/
theorem effect_ch (hcmd : commandOf i ≠ some cmdConfig) (hrst : i ≠ .rst) (j : Fin 16) (hpoll : i ≠ .tmPoll)
    (hread : i ≠ .chRd (.slot j)) : t.ch[j] = s.ch[j] := by
  cases he
  case land => rw [(landed_land s).ch]
  case push b _ => rw [(landed_pushByte s b).ch]
  case scan => rw [(scanned_step s).same]
  case latch k _ h =>
    have hk : k ≠ j := fun hk => h.elim hpoll (hk ▸ hread)
    rw [setChannel_ch, if_neg hk]
  case mode h => exact (hcmd h).elim
  case configure h _ => exact (hcmd h).elim
  case reset h => exact (hrst h).elim
  all_goals rfl

theorem effect_tx (hcmd : commandOf i = none) (hpoll : i ≠ .tmPoll)
    (htlm : ∀ ts mask values, i ≠ .tlmTelemetry ts mask values) : t.tx = s.tx := by
  cases he
  case land => exact (landed_land s).tx
  case push b _ => exact (landed_pushByte s b).tx
  case scan => rw [(scanned_step s).same]
  case transmit h =>
    obtain ⟨c, hc⟩ | hp | ⟨ts, mask, values, ht⟩ := h
    · cases hcmd.symm.trans hc
    · exact (hpoll hp).elim
    · exact (htlm ts mask values ht).elim
  all_goals rfl

/-! ### With nothing else moving -/

variable (hq : Quiet s)
include hq

theorem effect_pushSide (hpush : ∀ bytes, i ≠ .rbPush bytes) : (t.buf, t.pushing) = (s.buf, s.pushing) := by
  cases he
  case land h => exact absurd hq h
  case push h => exact (hpush _ h.choose_spec).elim
  case pushing h => exact (hpush _ h.choose_spec).elim
  case scan => rw [(scanned_step s).same]
  all_goals rfl

theorem effect_pushIndex (hpush : ∀ bytes, i ≠ .rbPush bytes) (hrst : i ≠ .rst) :
    (t.pushIndex, t.overrun) = (s.pushIndex, s.overrun) := by
  cases he
  case land h => exact absurd hq h
  case push h => exact (hpush _ h.choose_spec).elim
  case scan => rw [(scanned_step s).same]
  case reset h => exact (hrst h).elim
  all_goals rfl

theorem effect_timeTicks (htick : i ≠ .tmTick) (hcmd : commandOf i ≠ some cmdResetTime) (hrst : i ≠ .rst) :
    t.timeTicks = s.timeTicks := by
  cases he
  case land h => exact absurd hq h
  case push b _ => rw [pushByte_same]
  case scan => rw [(scanned_step s).same]
  case resetTime h => exact (hcmd h).elim
  case tick h => exact (htick h).elim
  case reset h => exact (hrst h).elim
  all_goals rfl

theorem effect_mem (hcmd : commandOf i ≠ some cmdWrite) (hwr : ∀ d v, i ≠ .chWr d v) : t.mem = s.mem := by
  cases he
  case land h => exact absurd hq h
  case push b _ => rw [pushByte_same]
  case scan => rw [(scanned_step s).same]
  case write h _ => exact (h.elim hcmd fun ⟨d, v, hi⟩ => hwr d v hi).elim
  all_goals rfl

/-- R60, R202: every write of the block has been compared with NULL. -/
theorem effect_readByte_null {a : Address} (ha : wrap s.cfg a = s.cfg.null) : t.readByte a = s.readByte a := by
  cases he
  case land h => exact absurd hq h
  case push b _ => rw [pushByte_same]; rfl
  case scan => rw [(scanned_step s).same]; rfl
  case write k b _ hn =>
    have hne : wrap s.cfg a ≠ wrap s.cfg k := fun hk => hn (hk.symm.trans ha)
    rw [State.readByte_writeByte, if_neg hne]
  all_goals rfl

/-- R46, R64: the free byte, the text taken and RESOLVE are the other agents'. -/
theorem effect_environment : (t.nullByte, t.textOut, t.resolver) = (s.nullByte, s.textOut, s.resolver) := by
  cases he
  case land h => exact absurd hq h
  case push b _ => rw [pushByte_same]
  case scan => rw [(scanned_step s).same]
  all_goals rfl

theorem effect_dbgPop (hrst : i ≠ .rst) : t.dbgPop = s.dbgPop := by
  cases he
  case land h => exact absurd hq h
  case push b _ => rw [pushByte_same]
  case scan => rw [(scanned_step s).same]
  case reset h => exact (hrst h).elim
  all_goals rfl

end

/-! ### The obligations -/

/-- Settles O52: the boundary before the operation and the operation itself keep the good states; the queue of requests
and the loop's position are no part of them. -/
theorem goodStatesKept : Obligations.GoodStatesKept := fun _ _ hs h =>
  step_keep (P := State.Inv) (fun _ => inv_land) (fun _ _ _ => inv_exec) (fun _ _ hr => hr) (fun _ _ hl => hl) h hs

/-- Settles O51: the power-on state is what RST makes of itself, an empty ring and empty memories. -/
theorem powerOnState : Obligations.PowerOnState := by
  have hempty : ∀ n : Nat, ∀ x ∈ ([] : Memory), x.1 < n := fun n x hx => nomatch hx
  refine ⟨⟨rfl, rfl, rfl, rfl, rfl, rfl, rfl, fun i => ?_, rfl, rfl, rfl, rfl, rfl, rfl, rfl, rfl⟩,
    inv_resetBlock (s := State.reset) Config.default_valid
      ⟨⟨.nil, hempty _⟩, ⟨.nil, hempty _⟩, ⟨.nil, hempty _⟩⟩,
    ringInv_resetBlock State.reset⟩
  simp [State.reset, Channel.zeroed]

/-- Settles O53: an operation is a sequence of elementary changes, and no change it may make writes the register. -/
theorem writersOfEachRegister : Obligations.WritersOfEachRegister := by
  intro i s t h
  have he := exec_effects h
  have hcfg : t.cfg = s.cfg := he.same State.cfg fun _ _ e => effect_cfg e
  refine ⟨hcfg, fun hclr hupd hrst => he.same State.crc fun _ _ e => effect_crc e hclr hupd hrst,
    fun hclr hget hrst => he.same State.escPending fun _ _ e => effect_escPending e hclr hget hrst,
    fun hnext hrst => ?_,
    fun hrst => he.keep fun _ _ e => effect_overrun_stays e hrst,
    fun hcmd hrst => he.same State.decimation fun _ _ e => effect_decimation e hcmd hrst,
    fun hcmd hrst => he.same State.tracingOn fun _ _ e => effect_tracingOn e hcmd hrst,
    fun hread hconfig hpoll hrst =>
      he.same State.tracingOnce fun _ _ e => effect_tracingOnce e hread hconfig hpoll hrst,
    fun hcmd hpoll hrst => ?_,
    fun hcmd => he.same State.dbgBuf fun _ _ e => effect_dbgBuf e hcmd,
    fun hcmd hrst => he.same State.dbgPush fun _ _ e => effect_dbgPush e hcmd hrst,
    fun hcmd hrst j => ⟨?_, fun hpoll hread =>
      he.same (fun u => u.ch[j]) fun _ _ e => effect_ch e hcmd hrst j hpoll hread⟩,
    fun hcmd hpoll htlm => he.same State.tx fun _ _ e => effect_tx e hcmd hpoll htlm,
    fun hq => ⟨fun hpush => ?_,
      fun htick hcmd hrst => he.same_quiet hq State.timeTicks fun _ _ e hq => effect_timeTicks e hq htick hcmd hrst,
      fun hcmd hwr => he.same_quiet hq State.mem fun _ _ e hq => effect_mem e hq hcmd hwr,
      fun a ha => ?_, ?_⟩⟩
  · simpa using he.same _ fun _ _ e => effect_parseSide e hnext hrst
  · simpa using he.same _ fun _ _ e => effect_bases e hcmd hpoll hrst
  · exact he.same (fun u => { u.ch[j] with previousValue := t.ch[j].previousValue })
      fun _ _ e => effect_slot e hcmd hrst j _
  · have hside := he.same_quiet hq _ fun _ _ e hq => effect_pushSide e hq hpush
    simp only [Prod.mk.injEq] at hside
    refine ⟨hside.1, hside.2, ?_, fun hrst => ?_⟩
    · split
      · next hi => subst hi; cases h; rfl
      · next hrst => exact congrArg Prod.snd (he.same_quiet hq _ fun _ _ e hq => effect_pushIndex e hq hpush hrst)
    · exact congrArg Prod.fst (he.same_quiet hq _ fun _ _ e hq => effect_pushIndex e hq hpush hrst)
  · exact (he.keep (P := fun u => Quiet u ∧ u.cfg = s.cfg ∧ u.readByte a = s.readByte a)
      (fun u v e ⟨hu, hc, hr⟩ => ⟨effect_quiet e hu, (effect_cfg e).trans hc,
        (effect_readByte_null e hu (hc ▸ ha)).trans hr⟩) ⟨hq, rfl, rfl⟩).2.2
  · have henv := he.same_quiet hq _ fun _ _ e hq => effect_environment e hq
    simp only [Prod.mk.injEq] at henv
    obtain ⟨hnull, htext, hres⟩ := henv
    exact ⟨hnull, fun hrst => he.same_quiet hq State.dbgPop fun _ _ e hq => effect_dbgPop e hq hrst, htext, hres,
      he.keep (fun _ _ => effect_quiet) hq⟩

/-- Settles O48: `State.resetBlock`, field by field. -/
theorem resetOperation : Obligations.ResetOperation := fun _ => rfl

/-- Settles O50. -/
theorem reservedSelectChangesNothing : Obligations.ReservedSelectChangesNothing := fun _ => rfl

end Sys2Proof.Machine

/-! ## The ring buffer: the push byte by byte, the scan branch by branch, and the wedge (42_frame_assembler.md) -/

namespace Sys2Proof.Machine

/-! ### One iteration of a push, whatever the other agents do -/

/-- R171: the two guards. -/
theorem pushRefused_guards (s : State) : pushRefused s = true ↔
    (s.startValid = true ∧ s.pushIndex = s.frameStart) ∨
      (s.startValid = false ∧ ringNext s.cfg s.pushIndex = s.parseIndex) := by
  unfold pushRefused
  cases s.startValid <;> simp

theorem withPushing_self {s : State} {p : List (List Byte)} (h : s.pushing = p) : s.withPushing p = s := by
  subst h
  rfl

theorem exec_rbPush {s : State} (hp : s.pushing = []) (bytes : List Byte) :
    exec (.rbPush bytes) s = .next (finishPushes (s.withPushing [bytes])) := by
  have hbegin : s.beginPush bytes = s.withPushing [bytes] := by rw [State.beginPush, hp, List.nil_append]
  rw [← hbegin]
  rfl

/-- R172: a refused first byte ends the push, and the rest is lost. -/
theorem push_refused {s : State} (hp : s.pushing = []) (hr : pushRefused s = true) (b : Byte) (rest : List Byte) :
    exec (.rbPush (b :: rest)) s = .next s.refusePush := by
  have hstep : (s.withPushing [b :: rest]).pushStep = s.refusePush := by
    rw [pushStep_cons, if_pos hr]
    exact withPushing_self hp
  rw [exec_rbPush hp, finishPushes_step (List.cons_ne_nil _ _), hstep, State.refusePush_pushing, hp]
  rfl

/-- R171: the last byte of a push, accepted. -/
theorem push_accepted {s : State} (hp : s.pushing = []) (hr : pushRefused s = false) (b : Byte) :
    exec (.rbPush [b]) s = .next (s.acceptPush b) := by
  have hstep : (s.withPushing [[b]]).pushStep = s.acceptPush b := by
    rw [pushStep_cons, hr, if_neg Bool.false_ne_true]
    exact withPushing_self hp
  rw [exec_rbPush hp, finishPushes_step (List.cons_ne_nil _ _), hstep, State.acceptPush_pushing, hp]
  rfl

theorem consumerNext_of_mem {s : State} {events : List Arrival} {later : List (List Arrival)}
    (h : s.arrivals = events :: later) (hm : .consumerTurn ∈ events) : consumerNext s = true := by
  rw [consumerNext, h]
  exact List.contains_iff_mem.2 hm

/-- R172: where the consumer takes the boundary after an accepted byte, the rest waits. -/
theorem push_interrupted {s : State} (hp : s.pushing = []) (hr : pushRefused s = false) (hc : consumerNext s = true)
    (b : Byte) {rest : List Byte} (hne : rest ≠ []) :
    exec (.rbPush (b :: rest)) s = .next ((s.acceptPush b).withPushing [rest]) := by
  have hstep : (s.withPushing [b :: rest]).pushStep = (s.acceptPush b).withPushing [rest] := by
    rw [pushStep_cons, hr, if_neg Bool.false_ne_true, if_neg (by simpa using hne)]
  have hc' : consumerNext ((s.acceptPush b).withPushing [rest]) = true := hc
  rw [exec_rbPush hp, finishPushes_step (List.cons_ne_nil _ _), hstep, hc', Bool.or_true, if_pos rfl]

/-! ### Bytes stored one after another on a ring of `n` places -/

/-- Store the bytes at `a`, `a + 1` and so on, modulo `n`. -/
def storeRun (n : Nat) : Memory → Nat → List Byte → Memory
  | m, _, [] => m
  | m, a, b :: rest => storeRun n (Memory.store m a b) ((a + 1) % n) rest

theorem succ_mod_add_mod (n a k : Nat) : ((a + 1) % n + k) % n = (a + (k + 1)) % n := by
  rw [Nat.mod_add_mod, Nat.add_assoc, Nat.add_comm 1]

theorem find_storeRun_other {n : Nat} (l : List Byte) (m : Memory) {a j : Nat} (ha : a < n)
    (h : ∀ k < l.length, j ≠ (a + k) % n) : Memory.find (storeRun n m a l) j = Memory.find m j := by
  induction l generalizing m a with
  | nil => rfl
  | cons b rest ih =>
    have hj : j ≠ a := by simpa [Nat.mod_eq_of_lt ha] using h 0 (Nat.succ_pos _)
    rw [storeRun, ih _ (Nat.mod_lt _ (Nat.zero_lt_of_lt ha)), Memory.find_store_other m hj]
    intro k hk
    rw [succ_mod_add_mod]
    exact h (k + 1) (Nat.succ_lt_succ hk)

/-- At most `n` bytes do not overlap themselves. -/
theorem find_storeRun {n : Nat} (l : List Byte) (m : Memory) {a j : Nat} (ha : a < n) (hl : l.length ≤ n)
    (hj : j < l.length) : Memory.find (storeRun n m a l) ((a + j) % n) = l[j]? := by
  induction l generalizing m a j with
  | nil => cases hj
  | cons b rest ih =>
    have hn : 0 < n := Nat.zero_lt_of_lt ha
    rw [List.length_cons] at hl hj
    rw [storeRun]
    cases j with
    | zero =>
      have hfirst : ∀ k < rest.length, a ≠ ((a + 1) % n + k) % n := fun k hk he => by
        rw [succ_mod_add_mod] at he
        have hmod : a + 0 ≡ a + (k + 1) [MOD n] := (Nat.mod_eq_of_lt ha).trans he
        exact absurd (hmod.add_left_cancel'.eq_of_lt_of_lt hn (by omega)) (Nat.succ_ne_zero k).symm
      have hzero : (a + 0) % n = a := Nat.mod_eq_of_lt ha
      rw [hzero, find_storeRun_other rest _ (Nat.mod_lt _ hn) hfirst, Memory.find_store_same]
      rfl
    | succ j =>
      rw [← succ_mod_add_mod n a j, ih _ (Nat.mod_lt _ hn) (by omega) (by omega), List.getElem?_cons_succ]

/-! ### RB.PUSH at rest -/

theorem room_lt {s : State} (h : IndicesInRange s) : room s < s.cfg.ringCapacity := by
  obtain ⟨hpush, hparse, hstart⟩ := h
  have hpos := Config.ringCapacity_pos s.cfg
  unfold room
  split
  · exact Nat.mod_lt _ hpos
  · omega

/-- R172 with nothing else moving: the bytes there is room for are stored, the rest is lost. -/
theorem pushAtRest_eq (bytes : List Byte) {s : State} (h : IndicesInRange s) {n : Nat}
    (hn : n = min bytes.length (room s)) :
    pushAtRest bytes s = { s with
      buf := storeRun s.cfg.ringCapacity s.buf s.pushIndex (bytes.take n)
      pushIndex := (s.pushIndex + n) % s.cfg.ringCapacity
      overrun := if n < bytes.length then true else s.overrun
      drops := if n < bytes.length then s.drops ++ [.overrun] else s.drops } := by
  induction bytes generalizing s n with
  | nil =>
    obtain rfl : n = 0 := by rw [hn, List.length_nil, Nat.zero_min]
    rw [Nat.add_zero, Nat.mod_eq_of_lt h.1]
    rfl
  | cons b rest ih =>
    rw [pushAtRest]
    split
    · next hr =>
      obtain rfl : n = 0 := by rw [hn, (pushRefused_iff h).1 hr, Nat.min_zero]
      rw [Nat.add_zero, Nat.mod_eq_of_lt h.1]
      simp only [List.length_cons, Nat.zero_lt_succ, if_true]
      rfl
    · next hr =>
      obtain ⟨h', hroom⟩ := room_acceptPush h (by simpa using hr) b
      obtain ⟨k, rfl⟩ : ∃ k, n = k + 1 := ⟨n - 1, by rw [List.length_cons] at hn; omega⟩
      have hk : k = min rest.length (room (s.acceptPush b)) := by rw [List.length_cons] at hn; omega
      have hindex : (ringNext s.cfg s.pushIndex + k) % s.cfg.ringCapacity =
          (s.pushIndex + (k + 1)) % s.cfg.ringCapacity := succ_mod_add_mod _ _ k
      rw [ih h' hk]
      simp only [State.acceptPush, List.length_cons, Nat.add_lt_add_iff_right, hindex, List.take_succ_cons, storeRun]
      rfl

/-! ### RB.NEXT, one scan step at rest -/

/-- R176: a scan step without a message, with nothing else moving. -/
theorem next_continues_quiet {s t : State} (h : IndicesInRange s) (hq : Quiet s) (hne : s.parseIndex ≠ s.pushIndex)
    (hs : scanStep s = (none, t)) : exec .rbNext s = exec .rbNext t := by
  have hqt : Quiet t := by
    have := (scanned_step s).fields.2.2.2
    rw [hs] at this
    exact this.trans hq
  rw [next_continues h hne hs, land_quiet hqt]

/-- R176, the `STX` branch. -/
theorem scanStart_eq (s : State) : scanStart s = { s with
    parseIndex := ringNext s.cfg s.parseIndex
    frameStart := s.parseIndex
    startValid := true
    drops := if s.startValid = true then s.drops ++ [.abandoned] else s.drops } := by
  unfold scanStart
  split <;> rfl

/-- R176, the `ETX` branch with a latch and a candidate that passes its checks. -/
theorem scanEnd_ok {s : State} (hv : s.startValid = true) {p : List Byte}
    (hp : decodeBody s.cfg (candidateBody s s.parseIndex) = .ok p) :
    scanEnd s = (messageOf p, { s.passSlot with startValid := false }) := by
  simp only [scanEnd, hv, if_true, hp]

/-- R176, the `ETX` branch with a latch and a candidate that fails them. -/
theorem scanEnd_error {s : State} (hv : s.startValid = true) {r : Drop}
    (hr : decodeBody s.cfg (candidateBody s s.parseIndex) = .error r) :
    scanEnd s = (none, { s.passSlot with startValid := false }.drop r) := by
  simp only [scanEnd, hv, if_true, hr]

/-- R176, D11: an `ETX` without a latch. -/
theorem scanEnd_stray {s : State} (hv : s.startValid = false) : scanEnd s = (none, s.passSlot.drop .strayEtx) := by
  rw [scanEnd, hv, if_neg Bool.false_ne_true]

theorem scanStep_stx {s : State} (h : s.slot s.parseIndex = stx) : scanStep s = (none, scanStart s) := if_pos h

theorem scanStep_etx {s : State} (h : s.slot s.parseIndex = etx) : scanStep s = scanEnd s := by
  have hne : s.slot s.parseIndex ≠ stx := by rw [h]; decide
  rw [scanStep, if_neg hne, if_pos h]

theorem scanStep_other {s : State} (hs : s.slot s.parseIndex ≠ stx) (he : s.slot s.parseIndex ≠ etx) :
    scanStep s = (none, s.passSlot) := by
  rw [scanStep, if_neg hs, if_neg he]

/-- R176: with nothing else moving a call writes the parse side alone (and the record of drops). -/
theorem scan_same (fuel : Nat) {s : State} (hq : Quiet s) : (scan fuel s).2 = { s with
    parseIndex := (scan fuel s).2.parseIndex
    frameStart := (scan fuel s).2.frameStart
    startValid := (scan fuel s).2.startValid
    drops := (scan fuel s).2.drops } := by
  induction fuel generalizing s with
  | zero => rfl
  | succ fuel ih =>
    rw [scan]
    split
    · rfl
    · have hsame := (scanned_step s).same
      have hq' : Quiet (scanStep s).2 := (scanned_step s).fields.2.2.2.trans hq
      split
      · next hs => rwa [hs] at hsame
      · next t hs =>
        rw [hs] at hsame hq'
        rw [land_quiet hq']
        refine (ih hq').trans ?_
        rw [hsame]

/-! ### The candidate of a frame in the ring -/

theorem candidateBody_length (s : State) (pos : Nat) :
    (candidateBody s pos).length = (pos + s.cfg.ringCapacity - s.frameStart - 1) % s.cfg.ringCapacity := by
  simp [candidateBody, Nat.sub_sub]

theorem candidateBody_getElem? (s : State) (pos : Nat) {j : Nat}
    (hj : j < (pos + s.cfg.ringCapacity - s.frameStart - 1) % s.cfg.ringCapacity) :
    (candidateBody s pos)[j]? = some (s.slot ((s.frameStart + 1 + j) % s.cfg.ringCapacity)) := by
  rw [Nat.sub_sub] at hj
  simp [candidateBody, List.getElem?_map, List.getElem?_range hj]

theorem messageOf_eq_some {p : List Byte} {m : Message} (h : messageOf p = some m) : p = messagePayload m := by
  unfold messageOf at h
  split at h
  · cases h; rfl
  · cases h

/-- R180: `t` stands just past the `ETX` at `pos` of a frame that decodes to `m`, the latch released. -/
def Delivered (t : State) (m : Message) (pos : Nat) : Prop :=
  t.parseIndex = ringNext t.cfg pos ∧ t.slot pos = etx ∧ t.startValid = false ∧
    decodeBody t.cfg (candidateBody t pos) = .ok (messagePayload m)

theorem scanEnd_delivered {s t : State} {m : Message} (hetx : s.slot s.parseIndex = etx)
    (hs : scanEnd s = (some m, t)) : Delivered t m s.parseIndex := by
  cases hv : s.startValid with
  | false => rw [scanEnd_stray hv] at hs; cases hs
  | true =>
    cases hd : decodeBody s.cfg (candidateBody s s.parseIndex) with
    | error r => rw [scanEnd_error hv hd] at hs; cases hs
    | ok p =>
      rw [scanEnd_ok hv hd] at hs
      obtain ⟨hm, rfl⟩ := Prod.mk.inj hs
      exact ⟨rfl, hetx, rfl, hd.trans (congrArg Except.ok (messageOf_eq_some hm))⟩

/-- R176: only an `ETX` ends a message. -/
theorem scanStep_delivered {s t : State} {m : Message} (hs : scanStep s = (some m, t)) :
    Delivered t m s.parseIndex := by
  rcases scanStep_cases s with ⟨_, he⟩ | ⟨hetx, he⟩ | ⟨_, _, he⟩ <;> rw [he] at hs
  · cases hs
  · exact scanEnd_delivered hetx hs
  · cases hs

/-- R180, by the measure of the call: each pass takes a byte, and what others add was planned. -/
theorem next_delivered {s : State} (h : IndicesInRange s) :
    ∃ (t : State) (r : Option Message), exec .rbNext s = .next t ∧ t.result = .message r ∧
      (r = none → t.parseIndex = t.pushIndex) ∧ ∀ m, r = some m → ∃ pos, Delivered t m pos := by
  induction hn : scanMeasure s using Nat.strong_induction_on generalizing s with
  | _ n ih =>
    by_cases hne : s.parseIndex = s.pushIndex
    · exact ⟨_, none, next_empty hne, rfl, fun _ => hne, fun _ hm => nomatch hm⟩
    · obtain ⟨ht, hmeasure⟩ := scanned_measure h hne (scanned_step s)
      cases hs : scanStep s with
      | mk r t =>
        cases r with
        | some m =>
          refine ⟨_, some m, next_message hne hs, rfl, fun hm => (nomatch hm), fun m' hm => ⟨s.parseIndex, ?_⟩⟩
          cases hm
          have hdelivered := scanStep_delivered hs
          exact hdelivered
        | none =>
          rw [hs] at ht hmeasure
          obtain ⟨hland, hle⟩ := land_measure ht
          rw [next_continues h hne hs]
          exact ih _ (by simp only at hmeasure hle; omega) hland rfl

/-! ### The wedge (R184) -/

theorem pushRefused_of_wedged {s : State} (h : Wedged s) : pushRefused s = true :=
  (pushRefused_guards s).2 (.inl ⟨h.1, h.2.1.symm⟩)

/-- A wedged state and the producer's side of its ring. -/
def WedgedLike (s t : State) : Prop := Wedged t ∧ t.buf = s.buf ∧ t.pushIndex = s.pushIndex

theorem wedgedLike_pushByte {s t : State} (h : WedgedLike s t) (b : Byte) : WedgedLike s (t.pushByte b) := by
  rw [State.pushByte, if_pos (pushRefused_of_wedged h.1)]
  exact h

theorem wedgedLike_pushStep {s t : State} (h : WedgedLike s t) : WedgedLike s t.pushStep := by
  rcases pushStep_cases t with hp | ⟨p, hp⟩ | ⟨p, b, hp⟩ <;> rw [hp]
  · exact h
  · exact h
  · exact wedgedLike_pushByte (t := t.withPushing p) h b

/-- R67: whatever the other agents do at a boundary. -/
theorem wedgedLike_land {s t : State} (h : WedgedLike s t) : WedgedLike s t.land := by
  refine land_keep (P := WedgedLike s) (fun u e hu => ?_) (fun _ _ hu => hu) h
  cases e with
  | pushStep => exact wedgedLike_pushStep hu
  | takeText =>
    show WedgedLike s u.takeText
    unfold State.takeText
    split <;> exact hu
  | beginPush | consumerTurn | tick | memoryWrite | nullByte | bind | request => exact hu

/-- R362: no elementary change but a reset leaves the wedge; a scan step has nothing to scan. -/
theorem wedgedLike_effect {i : Instr} (hi : i ≠ .rst) {s t u : State} (he : Effect i t u) (h : WedgedLike s t) :
    WedgedLike s u := by
  cases he
  case land => exact wedgedLike_land h
  case push b _ => exact wedgedLike_pushByte h b
  case scan _ hne => exact (hne h.1.2.2).elim
  case reset hr => exact (hi hr).elim
  all_goals exact h

/-! ### The obligations -/

/-- Settles O12: a push of one byte is one iteration, by the guard. -/
theorem pushOneByte : Obligations.PushOneByte := by
  refine fun b s hp => ⟨?_, fun j => slot_store s _ j b⟩
  have hguards := pushRefused_guards s
  cases hr : pushRefused s with
  | true =>
    rw [push_refused hp hr]
    rcases hguards.1 hr with hg | hg
    · rw [if_pos hg]; rfl
    · rw [if_neg (fun hl => by rw [hg.1] at hl; exact Bool.false_ne_true hl.1)]
      exact congrArg _ (if_pos hg).symm
  | false =>
    obtain ⟨hlatched, hunlatched⟩ := not_or.1 (mt hguards.2 (by rw [hr]; exact Bool.false_ne_true))
    rw [push_accepted hp hr, if_neg hlatched]
    exact congrArg _ (if_neg hunlatched).symm

/-- Settles O13, from the closed form of a push at rest. -/
theorem pushTakesAPrefix : Obligations.PushTakesAPrefix := by
  intro bytes s hq hp h
  obtain ⟨n, hn⟩ : ∃ n, n = min bytes.length (room s) := ⟨_, rfl⟩
  have hlt := room_lt h
  have hlen : (bytes.take n).length = n := by rw [List.length_take]; omega
  refine ⟨n, _, push_at_rest bytes hq hp, hn, ?_, fun j hj => ?_, fun j hj => ?_⟩
  · rw [pushAtRest_eq bytes h hn]
    rfl
  · have hfind : (bytes.take n)[j]? = bytes[j]? := List.getElem?_take_of_lt hj
    have hbound : j < bytes.length := by omega
    rw [pushAtRest_eq bytes h hn]
    show some ((Memory.find (storeRun s.cfg.ringCapacity _ _ _) ((s.pushIndex + j) % s.cfg.ringCapacity)).getD _) = _
    rw [find_storeRun _ _ h.1 (by omega) (by omega), hfind, List.getElem?_eq_getElem hbound]
    rfl
  · rw [pushAtRest_eq bytes h hn]
    show (Memory.find (storeRun s.cfg.ringCapacity _ _ _) j).getD _ = _
    rw [find_storeRun_other _ _ h.1 (by rwa [hlen])]
    rfl

/-- Settles O14: a branch of the scan step, then RB.NEXT from where it left off. -/
theorem nextScansByteByByte : Obligations.NextScansByteByByte := by
  intro s hq h
  refine ⟨fun he => next_empty he, fun hne hb => ?_, fun hne hb hv => ⟨fun node id command params hd => ?_, fun r hr => ?_,
    fun j hj => candidateBody_getElem? s _ hj, candidateBody_length s _⟩, fun hne hb hv => ?_, fun hne hs he => ?_,
    _, rfl, ?_⟩
  · rw [next_continues_quiet h hq hne (scanStep_stx hb), scanStart_eq]
    rfl
  · exact next_message hne ((scanStep_etx hb).trans (scanEnd_ok hv hd))
  · exact next_continues_quiet h hq hne ((scanStep_etx hb).trans (scanEnd_error hv hr))
  · exact next_continues_quiet h hq hne ((scanStep_etx hb).trans (scanEnd_stray hv))
  · exact next_continues_quiet h hq hne (scanStep_other hs he)
  · exact congrArg (State.withResult · _) (scan_same (scanFuel s) hq)

/-- Settles O15: by the measure of the call. -/
theorem nextDeliversAtMostOne : Obligations.NextDeliversAtMostOne := fun _ h => next_delivered h

/-- Settles O16: the guard refuses every push, the scanner has nothing to scan, and only a reset writes the latch or the
parse side otherwise. -/
theorem wedgeLastsUntilReset : Obligations.WedgeLastsUntilReset := fun s h =>
  ⟨fun b bytes hp => push_refused hp (pushRefused_of_wedged h) b bytes, next_empty h.2.2,
    fun _ _ hi ht => (exec_effects ht).keep (P := WedgedLike s) (fun _ _ he => wedgedLike_effect hi he) ⟨h, rfl, rfl⟩,
    _, rfl, fun hw => Bool.false_ne_true hw.1⟩

/-- Settles O60: one iteration by the guard; with nothing else moving the waiting push is made whole before the next. -/
theorem pushInterleaves : Obligations.PushInterleaves := by
  refine ⟨fun b rest s hp hne => ⟨fun hr => push_refused hp hr b rest, fun hr ⟨events, later, ha, hm⟩ =>
    push_interrupted hp hr (consumerNext_of_mem ha hm) b hne⟩, fun b rest later s hp => ?_, fun rest bytes s hq hp => ?_⟩
  · have hstep := pushStep_cons s b rest later
    rw [withPushing_self hp] at hstep
    refine ⟨fun hr => ?_, fun hr => ?_⟩
    · rw [if_pos hr] at hstep
      exact hstep
    · rw [hr, if_neg Bool.false_ne_true] at hstep
      simp only [List.isEmpty_iff] at hstep
      exact hstep
  · have hfirst := pushAtRest_fields rest s
    rw [execAll, push_at_rest rest hq hp]
    show exec (.rbPush bytes) _ = execAll [.rbPush bytes] (pushAtRest rest s)
    rw [execAll, push_at_rest bytes (hfirst.2.trans hq) (hfirst.1.trans hp)]
    have hsecond := pushAtRest_fields bytes (pushAtRest rest s)
    have hdone : (pushAtRest bytes (pushAtRest rest s)).withPushing [] = pushAtRest bytes (pushAtRest rest s) :=
      withPushing_self (hsecond.1.trans (hfirst.1.trans hp))
    calc exec (.rbPush bytes) (s.withPushing [rest])
      _ = .next (finishPushes (s.withPushing [rest, bytes])) := rfl
      _ = .next (finishPushes ((pushAtRest bytes (pushAtRest rest s)).withPushing [])) := by
        rw [finishPushes_at_rest rest _ hq, finishPushes_at_rest bytes _ (hfirst.2.trans hq)]
      _ = .next (pushAtRest bytes (pushAtRest rest s)) := by rw [finishPushes_none rfl, hdone]

end Sys2Proof.Machine

/-! ## Debug channels: the read and the write at rest, and what no other agent can bring about (43_debug_channel.md) -/

namespace Sys2Proof.Machine

/-! ### Multi-byte fields (R13) -/

theorem leBytes_getElem? {n j : Nat} (hj : j < n) (v : Nat) :
    (leBytes n v)[j]? = some (BitVec.ofNat 8 (v / 256 ^ j)) := by
  induction n generalizing v j with
  | zero => cases hj
  | succ n ih =>
    cases j with
    | zero => simp [leBytes]
    | succ j =>
      rw [leBytes, List.getElem?_cons_succ, ih (by omega), Nat.div_div_eq_div_mul, ← Nat.pow_succ']

theorem orderValue_lt (o : ByteOrder) (bytes : List Byte) : orderValue o bytes < 256 ^ bytes.length := by
  cases o with
  | little => exact leValue_lt bytes
  | big => simpa [orderValue] using leValue_lt bytes.reverse

theorem orderBytes_orderValue (o : ByteOrder) (bytes : List Byte) :
    orderBytes o bytes.length (orderValue o bytes) = bytes := by
  cases o with
  | little => exact leBytes_leValue bytes
  | big =>
    have h := leBytes_leValue bytes.reverse
    rw [List.length_reverse] at h
    rw [orderBytes, orderValue, h, List.reverse_reverse]

/-! ### The chase -/

theorem chase_null {a : Address} {s : State} (h : wrap s.cfg a = s.cfg.null) (depth : Nat) :
    chase a depth s = (none, s.drop .nullPointer) := if_pos h

theorem resolveAtRest_of_root {s : State} {d : Descriptor} (h : wrap s.cfg d.address ≠ s.cfg.null) :
    resolveAtRest s d = followAtRest s d.dereferenceDepth.toNat (wrap s.cfg d.address) := if_neg h

theorem followAtRest_succ_null {s : State} {p : Address} (h : pointerAt s p = s.cfg.null) (depth : Nat) :
    followAtRest s (depth + 1) p = none := if_pos h

theorem followAtRest_succ {s : State} {p : Address} (h : pointerAt s p ≠ s.cfg.null) (depth : Nat) :
    followAtRest s (depth + 1) p = followAtRest s depth (pointerAt s p) := if_neg h

/-- R204: two pointers, none of them null. -/
theorem followAtRest_two {s : State} {p : Address} (h1 : pointerAt s p ≠ s.cfg.null)
    (h2 : pointerAt s (pointerAt s p) ≠ s.cfg.null) : followAtRest s 2 p = some (pointerAt s (pointerAt s p)) := by
  rw [followAtRest_succ h1, followAtRest_succ h2, followAtRest]

/-- R202, D13: two pointers, one of them null. -/
theorem followAtRest_two_null {s : State} {p : Address}
    (h : pointerAt s p = s.cfg.null ∨ pointerAt s (pointerAt s p) = s.cfg.null) : followAtRest s 2 p = none := by
  by_cases h1 : pointerAt s p = s.cfg.null
  · exact followAtRest_succ_null h1 1
  · rw [followAtRest_succ h1, followAtRest_succ_null (h.resolve_left h1)]

section
variable {s : State} {d : Descriptor}

theorem valueAtRest_null (h : resolveAtRest s d = none) : valueAtRest s d = none := by rw [valueAtRest, h, Option.map_none]

theorem valueAtRest_some {p : Address} (h : resolveAtRest s d = some p) :
    valueAtRest s d = some (bytesAt s p d.sizeBytes.toNat) := by rw [valueAtRest, h, Option.map_some]

theorem chaseDrops_null (h : resolveAtRest s d = none) : chaseDrops s d = [.nullPointer] := by rw [chaseDrops, h]

theorem chaseDrops_some {p : Address} (h : resolveAtRest s d = some p) : chaseDrops s d = [] := by rw [chaseDrops, h]

theorem changedAtRest_none (h : valueAtRest s d = none) : changedAtRest s d = false := by rw [changedAtRest, h]

theorem changedAtRest_some {v : List Byte} (h : valueAtRest s d = some v) :
    changedAtRest s d = decide (v ≠ d.previousValue.toList.take d.sizeBytes.toNat) := by rw [changedAtRest, h]

theorem latchAtRest_none (h : valueAtRest s d = none) : latchAtRest s d = d.previousValue := by rw [latchAtRest, h]

theorem latchAtRest_some {v : List Byte} (h : valueAtRest s d = some v) :
    latchAtRest s d = overwriteLatch d.previousValue v := by rw [latchAtRest, h, overwriteLatch_eq]

end

/-- R206: the latch begins with the value written over it. -/
theorem overwriteLatch_take (latch : Vector Byte 8) {v : List Byte} (h : v.length ≤ 8) :
    (overwriteLatch latch v).toList.take v.length = v := by
  apply List.ext_getElem
  · simpa using h
  · intro j hj hv
    simp [overwriteLatch, hv]

/-- What CH.RD reports of a read is settled by its value and its chase. -/
theorem atRest_congr_read {s t : State} {d : Descriptor}
    (h : valueAtRest t d = valueAtRest s d ∧ resolveAtRest t d = resolveAtRest s d) :
    changedAtRest t d = changedAtRest s d ∧ latchAtRest t d = latchAtRest s d ∧ chaseDrops t d = chaseDrops s d := by
  obtain ⟨hvalue, hresolve⟩ := h
  exact ⟨by rw [changedAtRest, hvalue, changedAtRest], by rw [latchAtRest, hvalue, latchAtRest],
    by rw [chaseDrops, hresolve, chaseDrops]⟩

/-! ### CH.RD -/

theorem exec_chRd (ref : ChannelRef) (s : State) : exec (.chRd ref) s =
    .next ((readRef ref s).2.withResult (.value (readRef ref s).1.value (readRef ref s).1.changed (readRef ref s).1.latch)) :=
  rfl

theorem exec_chRd_scratch_quiet {s : State} (hq : Quiet s) (d : Descriptor) :
    exec (.chRd (.scratch d)) s = .next { s with
      result := .value (valueAtRest s d) (changedAtRest s d) (latchAtRest s d)
      drops := s.drops ++ chaseDrops s d } := by
  rw [exec_chRd, readRef, readChannel_quiet hq]
  rfl

theorem exec_chRd_slot_quiet {s : State} (hq : Quiet s) (i : Fin 16) :
    exec (.chRd (.slot i)) s = .next { s with
      ch := s.ch.set i { s.ch[i] with previousValue := latchAtRest s s.ch[i].descriptor }
      result := .value (valueAtRest s s.ch[i].descriptor) (changedAtRest s s.ch[i].descriptor)
        (latchAtRest s s.ch[i].descriptor)
      drops := s.drops ++ chaseDrops s s.ch[i].descriptor } := by
  rw [exec_chRd, readRef, readSlot_quiet hq]
  rfl

/-- R202: at rest, a chase that ends in a null. -/
theorem exec_chRd_scratch_null {s : State} (hq : Quiet s) {d : Descriptor} (h : resolveAtRest s d = none) :
    exec (.chRd (.scratch d)) s = .next { s with
      result := .value none false d.previousValue, drops := s.drops ++ [.nullPointer] } := by
  have hvalue := valueAtRest_null h
  rw [exec_chRd_scratch_quiet hq, hvalue, changedAtRest_none hvalue, latchAtRest_none hvalue, chaseDrops_null h]

/-- R60, R202: what memory holds at NULL reaches no part of a read. -/
theorem exec_chRd_congr_off_null (ref : ChannelRef) {s : State} (hq : Quiet s) {m : Memory}
    (hm : ∀ a : Address, wrap s.cfg a ≠ s.cfg.null → State.readByte { s with mem := m } a = s.readByte a) {t : State}
    (ht : exec (.chRd ref) s = .next t) : exec (.chRd ref) { s with mem := m } = .next { t with mem := m } := by
  have hread := fun d => atRest_congr_off_null (s := s) (t := { s with mem := m }) rfl rfl hm d
  cases ref with
  | scratch d =>
    obtain ⟨hchanged, hlatch, hdrops⟩ := atRest_congr_read (hread d)
    rw [exec_chRd_scratch_quiet hq] at ht
    cases ht
    rw [exec_chRd_scratch_quiet (s := { s with mem := m }) hq, (hread d).1, hchanged, hlatch, hdrops]
  | slot i =>
    obtain ⟨hchanged, hlatch, hdrops⟩ := atRest_congr_read (hread s.ch[i].descriptor)
    rw [exec_chRd_slot_quiet hq] at ht
    cases ht
    rw [exec_chRd_slot_quiet (s := { s with mem := m }) hq]
    simp only [(hread s.ch[i].descriptor).1, hchanged, hlatch, hdrops]

/-! ### A read, whatever the other agents do -/

/-- R208, R209: without a value nothing has changed, without a change the latch stays, and a value of no bytes changes
nothing. -/
structure ReadRule (d : Descriptor) (r : ChannelRead) : Prop where
  none_unchanged : r.value = none → r.changed = false
  unchanged_latch : r.changed = false → r.latch = d.previousValue
  size_zero : d.sizeBytes = 0x00#8 → r.changed = false ∧ (r.value = none ∨ r.value = some [])

theorem readRule_latchRead (d : Descriptor) {value : List Byte} (hl : value.length = d.sizeBytes.toNat) :
    ReadRule d (latchRead d value) := by
  have hempty : d.sizeBytes = 0x00#8 → value = [] := fun h0 => by
    rw [h0] at hl
    exact List.length_eq_zero_iff.1 hl
  unfold latchRead
  split
  · next hd =>
    refine ⟨fun h => (nomatch h), fun h => (nomatch h), fun h0 => ?_⟩
    rw [hempty h0, h0] at hd
    exact absurd hd (by simp [latchDiffers])
  · exact ⟨fun _ => rfl, fun _ => rfl, fun h0 => ⟨rfl, .inr (congrArg some (hempty h0))⟩⟩

theorem readRule_readChannel (d : Descriptor) (s : State) : ReadRule d (readChannel d s).1 := by
  unfold readChannel
  split
  · exact ⟨fun _ => rfl, fun _ => rfl, fun _ => ⟨rfl, .inl rfl⟩⟩
  · next p t _ => exact readRule_latchRead d (readBytes_length _ p t)

/-- A read without a chase's end records the null and nothing else. -/
theorem readChannel_null {s : State} {d : Descriptor} (h : wrap s.cfg d.address = s.cfg.null) :
    readChannel d s = (⟨none, false, d.previousValue⟩, s.drop .nullPointer) := by
  rw [readChannel, chase_null h]

theorem writeChannel_root_null {s : State} {d : Descriptor} (h : wrap s.cfg d.address = s.cfg.null) (v : List Byte) :
    writeChannel d v s = s.drop .nullPointer := by
  rw [writeChannel, chase_null h]

/-- R206: of the registry a read of a slot writes that slot's latch. -/
theorem readSlot_ch_changed {i : Fin 16} {s : State} (h : (readSlot i s).1.changed = true) :
    (readSlot i s).2.ch = s.ch.set i { s.ch[i] with previousValue := (readSlot i s).1.latch } := by
  have hch := (landed_readChannel s.ch[i].descriptor s).ch
  simp only [readSlot] at h ⊢
  simp only [h, if_true, State.setChannel, hch]

/-- R206: and only when `changed`. -/
theorem readSlot_ch_unchanged {i : Fin 16} {s : State} (h : (readSlot i s).1.changed = false) :
    (readSlot i s).2.ch = s.ch := by
  simp only [readSlot] at h ⊢
  rw [h, if_neg Bool.false_ne_true]
  exact (landed_readChannel s.ch[i].descriptor s).ch

/-! ### CH.WR at rest -/

theorem exec_chWr (ref : ChannelRef) (v : Vector Byte 8) (s : State) :
    exec (.chWr ref v) s = .next (writeChannel (refDescriptor ref s) v.toList s) := by
  rw [← vectorBytes_eq_toList]
  rfl

theorem writeChannel_quiet_null {s : State} (hq : Quiet s) {d : Descriptor} (h : resolveAtRest s d = none)
    (v : List Byte) : writeChannel d v s = { s with drops := s.drops ++ [.nullPointer] } := by
  rw [writeChannel, chase_quiet hq, h, chaseDrops_null h]

/-- R210: at most eight bytes go to where the chase resolves to. -/
theorem writeChannel_quiet_stored {s : State} (hc : s.cfg.Valid) (hq : Quiet s) {d : Descriptor} {p : Address}
    (h : resolveAtRest s d = some p) {v : List Byte} (hv : v.length ≤ 8) :
    ∃ m : Memory, writeChannel d v s = { s with mem := m } ∧
      StoredAt s { s with mem := m } p (v.take d.sizeBytes.toNat) := by
  have hlen : (v.take d.sizeBytes.toNat).length ≤ 8 := Nat.le_trans (List.length_take_le' _ _) hv
  obtain ⟨m, hm, hstored⟩ := writeBytes_stored hq (addressSpace_ge hc) (v.take d.sizeBytes.toNat) p hlen
  refine ⟨m, ?_, hstored⟩
  rw [writeChannel, chase_quiet hq, h, chaseDrops_some h, List.append_nil]
  exact hm

/-! ### A write, then reads (R211) -/

theorem resolveAtRest_depth_zero {s : State} {d : Descriptor} (hd : d.dereferenceDepth = 0x00#8)
    (hroot : wrap s.cfg d.address ≠ s.cfg.null) : resolveAtRest s d = some (wrap s.cfg d.address) := by
  rw [resolveAtRest_of_root hroot, hd]
  rfl

/-- Stored bytes are read back, where none of them is at NULL. -/
theorem valueAtRest_of_storedAt {s t : State} {d : Descriptor} {v : List Byte} (hcfg : t.cfg = s.cfg)
    (ht : resolveAtRest t d = some (wrap s.cfg d.address)) (hv : v.length = d.sizeBytes.toNat)
    (h : StoredAt s t (wrap s.cfg d.address) v)
    (hn : ∀ j < d.sizeBytes.toNat, wrap s.cfg (d.address + j) ≠ s.cfg.null) : valueAtRest t d = some v := by
  rw [valueAtRest_some ht, ← hv]
  refine congrArg some (List.ext_getElem (bytesAt_length _ _ _) fun j _ hj => ?_)
  have hne : wrap s.cfg (wrap s.cfg d.address + j) ≠ s.cfg.null := by rw [wrap_add_wrap]; exact hn j (hv ▸ hj)
  have hload : t.loadByte (wrap s.cfg d.address + j) = t.readByte (wrap s.cfg d.address + j) := by
    rw [State.loadByte, hcfg, if_neg hne]
  simp only [bytesAt, List.getElem_map, List.getElem_range, hload, h.1 j hj hne]

/-- R207: read once more with the latch the first read left, a slot gives the same value, unchanged. -/
theorem atRest_reread {t u : State} {i : Fin 16} {v : List Byte} (hvalue : valueAtRest t t.ch[i].descriptor = some v)
    (hv : v.length = t.ch[i].sizeBytes.toNat) (h8 : v.length ≤ 8) (hcfg : u.cfg = t.cfg)
    (hnull : u.nullByte = t.nullByte) (hmem : u.mem = t.mem)
    (hch : u.ch[i] = { t.ch[i] with previousValue := latchAtRest t t.ch[i].descriptor }) :
    valueAtRest u u.ch[i].descriptor = some v ∧ changedAtRest u u.ch[i].descriptor = false := by
  rw [latchAtRest_some hvalue] at hch
  have hvalue' : valueAtRest u u.ch[i].descriptor = some v := by
    rw [(atRest_congr hcfg hnull hmem _).1, hch]
    exact hvalue
  have hlatch : u.ch[i].descriptor.previousValue.toList.take u.ch[i].descriptor.sizeBytes.toNat = v := by
    rw [hch]
    exact hv ▸ overwriteLatch_take _ h8
  refine ⟨hvalue', ?_⟩
  rw [changedAtRest_some hvalue', hlatch]
  simp

/-- R206: the fields of the state after a read of a slot that the next read depends on. -/
theorem exec_chRd_slot_fields {t : State} (hq : Quiet t) (i : Fin 16) :
    ∃ u, exec (.chRd (.slot i)) t = .next u ∧ Quiet u ∧ u.cfg = t.cfg ∧ u.nullByte = t.nullByte ∧ u.mem = t.mem ∧
      u.ch[i] = { t.ch[i] with previousValue := latchAtRest t t.ch[i].descriptor } ∧
      u.result = .value (valueAtRest t t.ch[i].descriptor) (changedAtRest t t.ch[i].descriptor)
        (latchAtRest t t.ch[i].descriptor) :=
  ⟨_, exec_chRd_slot_quiet hq i, hq, rfl, rfl, rfl, (setChannel_ch t i i _).trans (if_pos rfl), rfl⟩

/-- R207: the second of two reads reports no change. -/
theorem exec_chRd_slot_twice {t : State} (hq : Quiet t) {i : Fin 16} {v : List Byte}
    (hvalue : valueAtRest t t.ch[i].descriptor = some v) (hv : v.length = t.ch[i].sizeBytes.toNat) (h8 : v.length ≤ 8) :
    ∃ (u w : State) (l l' : Vector Byte 8), exec (.chRd (.slot i)) t = .next u ∧
      u.result = .value (some v) (changedAtRest t t.ch[i].descriptor) l ∧
      exec (.chRd (.slot i)) u = .next w ∧ w.result = .value (some v) false l' := by
  obtain ⟨u, hu, hqu, hcfg, hnull, hmem, hch, hresult⟩ := exec_chRd_slot_fields hq i
  obtain ⟨w, hw, -, -, -, -, -, hresult'⟩ := exec_chRd_slot_fields hqu i
  obtain ⟨hvalue', hchanged'⟩ := atRest_reread hvalue hv h8 hcfg hnull hmem hch
  rw [hvalue] at hresult
  rw [hvalue', hchanged'] at hresult'
  exact ⟨u, w, _, _, hu, hresult, hw, hresult'⟩

/-! ### The obligations -/

/-- Settles O19, from what a read at rest gives and what that depends on. -/
theorem readAtRest : Obligations.ReadAtRest :=
  ⟨fun d _ hq => exec_chRd_scratch_quiet hq d, fun i _ hq => exec_chRd_slot_quiet hq i,
    fun ref _ _ _ hq hm ht => exec_chRd_congr_off_null ref hq hm ht⟩

/-- Settles O20: the chase of depth 2 follows two pointers. -/
theorem chainOfTwoPointers : Obligations.ChainOfTwoPointers := by
  intro d s hq hdepth hroot
  have hresolve : resolveAtRest s d = followAtRest s 2 (wrap s.cfg d.address) := by
    rw [resolveAtRest_of_root hroot, hdepth]
    rfl
  refine ⟨fun h1 h2 => ?_, fun hnull => ?_⟩
  · rw [followAtRest_two h1 h2] at hresolve
    refine ⟨changedAtRest s d, latchAtRest s d, ?_⟩
    rw [exec_chRd_scratch_quiet hq, valueAtRest_some hresolve, chaseDrops_some hresolve, List.append_nil]
  · rw [followAtRest_two_null hnull] at hresolve
    exact exec_chRd_scratch_null hq hresolve

/-- Settles O21: a null root ends the operation before any boundary; a slot's read obeys `ReadRule` on any plan of events. -/
theorem abortedReadKeepsTheLatch : Obligations.AbortedReadKeepsTheLatch := by
  refine ⟨fun d v s hnull => ⟨?_, ?_⟩, fun i s => ?_⟩
  · rw [exec_chRd, readRef, readChannel_null hnull]
    rfl
  · rw [exec_chWr, refDescriptor, writeChannel_root_null hnull]
    rfl
  · have hrule : ReadRule s.ch[i].descriptor (readSlot i s).1 := readRule_readChannel _ s
    refine ⟨_, (readSlot i s).1.value, (readSlot i s).1.changed, (readSlot i s).1.latch, exec_chRd (.slot i) s, rfl, ?_⟩
    have hslot : ∀ j : Fin 16, (readSlot i s).2.ch[j] =
        if i = j then { s.ch[i] with previousValue := (readSlot i s).1.latch } else s.ch[j] := fun j => by
      cases hchanged : (readSlot i s).1.changed with
      | true =>
        rw [readSlot_ch_changed hchanged]
        exact setChannel_ch s i j _
      | false =>
        have hlatch : (readSlot i s).1.latch = s.ch[i].previousValue := hrule.unchanged_latch hchanged
        rw [readSlot_ch_unchanged hchanged, hlatch]
        split
        · next hj => rw [hj]
        · rfl
    exact ⟨fun j hj => (hslot j).trans (if_neg hj.symm), (hslot i).trans (if_pos rfl), hrule.none_unchanged,
      readSlot_ch_unchanged, hrule.size_zero⟩

/-- Settles O22: the chase at rest, then at most eight bytes where it resolves to. -/
theorem writeAtRest : Obligations.WriteAtRest := by
  intro ref v s hc hq
  rw [exec_chWr]
  refine ⟨fun h => ?_, fun p h => ?_⟩
  · rw [writeChannel_quiet_null hq h]
  · obtain ⟨m, hm, hstored⟩ := writeChannel_quiet_stored hc hq h (v := v.toList) (by simp)
    exact ⟨m, by rw [hm], hstored⟩

/-- Settles O23: the stored bytes are read back, and after the first read the latch begins with them. -/
theorem writeThenRead : Obligations.WriteThenRead := by
  intro i v s hc hq hdepth hsize hroot hnull
  have hresolve : ∀ t : State, t.cfg = s.cfg →
      resolveAtRest t s.ch[i].descriptor = some (wrap s.cfg s.ch[i].descriptor.address) := fun t hcfg =>
    hcfg ▸ resolveAtRest_depth_zero hdepth (hcfg ▸ hroot)
  obtain ⟨m, hm, hstored⟩ := writeChannel_quiet_stored hc hq (hresolve s rfl) (v := v.toList) (by simp)
  have hlen : (v.toList.take s.ch[i].sizeBytes.toNat).length = s.ch[i].sizeBytes.toNat := by
    rw [List.length_take, Vector.length_toList]
    exact Nat.min_eq_left hsize
  have hvalue := valueAtRest_of_storedAt (s := s) (t := { s with mem := m }) rfl (hresolve _ rfl) hlen hstored hnull
  have hwrite : exec (.chWr (.slot i) v) s = .next { s with mem := m } := (exec_chWr (.slot i) v s).trans (congrArg _ hm)
  obtain ⟨u, w, l, l', hu, hresult, hw⟩ :=
    exec_chRd_slot_twice (t := { s with mem := m }) hq hvalue hlen (hlen.trans_le hsize)
  rw [changedAtRest_some hvalue] at hresult
  exact ⟨_, u, w, l, l', hwrite, rfl, hu, hresult, hw⟩

/-- Settles O24, from the bytes of a number and the number of its bytes. -/
theorem multiByteFields : Obligations.MultiByteFields := by
  refine ⟨fun n v j hj => ⟨leBytes_getElem? hj v, ?_⟩,
    fun o n v => ⟨orderBytes_length o n v, orderValue_orderBytes o n v⟩,
    fun o bytes => ⟨orderBytes_orderValue o bytes, orderValue_lt o bytes⟩⟩
  have hrev : (leBytes n v).reverse[j]? = (leBytes n v)[n - 1 - j]? := by
    rw [List.getElem?_reverse (by rwa [leBytes_length]), leBytes_length]
  rw [orderBytes, hrev, leBytes_getElem? (by omega)]

end Sys2Proof.Machine

/-! ## The dispatcher: the register commands, the full reconfiguration, decimation, tracing and text, and what any command
can answer (44_dispatcher.md) -/

namespace Sys2Proof.Machine

/-! ### The rows as commands, continued -/

section
variable (h : Header) (ps : List Byte) (s : State)

theorem exec_vGetVersion : exec (.vGetVersion h ps) s = receive h cmdVersion doVersion s := rfl

theorem exec_wWriteRegister : exec (.wWriteRegister h ps) s = receive h cmdWrite (doWrite ps) s := rfl

theorem exec_qQueryRegister : exec (.qQueryRegister h ps) s = receive h cmdQuery (doQuery ps) s := rfl

theorem exec_rReadChannelData :
    exec (.rReadChannelData h ps) s = receive h cmdReadChannelData (doReadChannelData ps) s := rfl

theorem exec_sDebugString : exec (.sDebugString h ps) s = receive h cmdDebugString (doDebugString ps) s := rfl

end

/-- R231: a command for this node that ends without a reply object. -/
theorem receive_silent {s t : State} {h : Header} (hf : IsFor s h) (command : Byte) {act : State → Reply × State}
    (hact : act s = (.silent, t)) : receive h command act s = .next t := by
  rw [receive_for hf, hact, finish_silent]

/-- R233: a nonempty body is always sent. -/
theorem receive_nonempty {s t : State} {h : Header} (hf : IsFor s h) (command : Byte) {act : State → Reply × State}
    {body : List Byte} (hact : act s = (.body body, t)) (hb : body.length ≤ maxParams) (hne : body ≠ []) :
    receive h command act s = .next { t with
      tx := t.tx ++ [frameEncode t.cfg ([t.cfg.nodeId, h.msgId, command] ++ body)] } := by
  rw [receive_body hf command hact hb, replyFrames_of_ne_nil _ _ _ hne]
  rfl

/-! ### Identification (R236) -/

theorem versionBody_length_le {c : Config} (h : c.Valid) : (versionBody c).length ≤ maxParams := by
  obtain ⟨-, -, -, -, -, -, -, -, -, hnames, -⟩ := h
  have hlength : (versionBody c).length = 10 + c.nodeName.length + c.serialNumber.length := by
    simp [versionBody]
    omega
  rwa [hlength]

theorem versionBody_ne_nil (c : Config) : versionBody c ≠ [] := by simp [versionBody]

/-! ### Registers (R238 to R243) -/

theorem parseRegister_short (c : Config) {ps : List Byte} (h : ps.length < 6) :
    parseRegister c ps = .error .badLength := if_pos h

theorem parseRegister_size (c : Config) {ps : List Byte} (h6 : 6 ≤ ps.length) (h8 : 8 < (byteAt ps 5).toNat) :
    parseRegister c ps = .error .badSize := by
  rw [parseRegister, if_neg (Nat.not_lt.2 h6), if_pos h8]

/-- R87, R239: the scratch descriptor of 'W' and 'Q', from their parameter bytes. -/
def registerDescriptor (s : State) (ps : List Byte) : Descriptor :=
  scratchDescriptor s.cfg s.resolver ⟨offsetAt s.cfg ps 0, byteAt ps 4, byteAt ps 5⟩

theorem doWrite_error {s : State} {ps : List Byte} {r : Drop} (h : parseRegister s.cfg ps = .error r) :
    doWrite ps s = (.dropped r, s) := by
  rw [doWrite, h]

theorem doQuery_error {s : State} {ps : List Byte} {r : Drop} (h : parseRegister s.cfg ps = .error r) :
    doQuery ps s = (.dropped r, s) := by
  rw [doQuery, h]

section
variable {s : State} {ps : List Byte} (h6 : 6 ≤ ps.length) (h8 : (byteAt ps 5).toNat ≤ 8)
include h6 h8

theorem doWrite_ok (hv : 6 + (byteAt ps 5).toNat ≤ ps.length) : doWrite ps s =
    (.body [], writeChannel (registerDescriptor s ps) (slice ps 6 (byteAt ps 5).toNat) s) := by
  simp only [doWrite, parseRegister_ok s.cfg h6 h8, if_neg (Nat.not_lt.2 hv)]
  rfl

theorem doWrite_short (hv : ps.length < 6 + (byteAt ps 5).toNat) : doWrite ps s = (.dropped .badLength, s) := by
  simp only [doWrite, parseRegister_ok s.cfg h6 h8, if_pos hv]

theorem doQuery_ok (hq : Quiet s) : doQuery ps s =
    (.body (slice ps 0 4 ++ [byteAt ps 4, byteAt ps 5] ++ valueField (valueAtRest s (registerDescriptor s ps))),
      { s with drops := s.drops ++ chaseDrops s (registerDescriptor s ps) }) := by
  simp only [doQuery, parseRegister_ok s.cfg h6 h8, readChannel_quiet hq]
  rfl

end

/-- R243, D17: zeros on a null, else the value padded and cut to 4 bytes. -/
theorem valueField_eq (v : Option (List Byte)) : valueField v =
    match v with
    | none => [0x00#8, 0x00#8, 0x00#8, 0x00#8]
    | some v => (v ++ [0x00#8, 0x00#8, 0x00#8, 0x00#8]).take 4 := by
  cases v <;> rfl

theorem valueField_length (v : Option (List Byte)) : (valueField v).length = 4 := by
  simp [valueField, queryValueBytes]

theorem queryBody_length_le (ps : List Byte) (x y : Byte) (v : Option (List Byte)) :
    (slice ps 0 4 ++ [x, y] ++ valueField v).length ≤ maxParams := by
  have hoffset : (slice ps 0 4).length ≤ 4 := List.length_take_le _ _
  simp only [List.length_append, List.length_cons, List.length_nil, valueField_length, maxParams]
  omega

/-! ### The full reconfiguration (R251, R252) -/

theorem configForm_full {ps : List Byte} (h : 8 ≤ ps.length) (i : Fin 16) (s : State) :
    configForm i ps s = configFull i ps s := by
  unfold configForm
  rw [if_neg (by omega), if_neg (by omega), if_pos (by exact h)]

/-- R251: eight bytes or more, for a slot that exists. -/
theorem doConfig_full {ps : List Byte} (h : 8 ≤ ps.length) {i : Fin 16} (hi : byteAt ps 0 = BitVec.ofNat 8 i.val)
    (s : State) : doConfig ps s = configFull i ps s := by
  rw [doConfig_of_pos (by omega), hi, withChannel_ofNat, configForm_full h]

theorem configFull_ok {ps : List Byte} (h : (byteAt ps 7).toNat ≤ 8) (i : Fin 16) (s : State) :
    configFull i ps s = (.body [], s.setChannel i (configuredChannel s.cfg s.resolver ps)) := if_neg (Nat.not_lt.2 h)

theorem configFull_size {ps : List Byte} (h : 8 < (byteAt ps 7).toNat) (i : Fin 16) (s : State) :
    configFull i ps s = (.dropped .badSize, s) := if_pos h

/-- R252: the zeroed latch with one bit inverted. -/
theorem forcedLatch_eq (c : Config) :
    forcedLatch c = (Vector.replicate 8 0x00#8).set c.forceByte (0x00#8 ^^^ (0x01#8 <<< c.forceBit.val)) := by
  apply Vector.ext
  intro j hj
  simp [forcedLatch, Vector.getElem_set, Fin.ext_iff, eq_comm]

/-! ### Decimation (R256) -/

/-- The reply echoes what the set form stored: the byte, or 1 for 0. -/
theorem decimationOf_echo (x : Byte) : (decimationOf x).setWidth 8 = if x = 0x00#8 then 0x01#8 else x := by
  unfold decimationOf
  split
  · rfl
  · rw [BitVec.setWidth_setWidth_of_le x (by decide), BitVec.setWidth_eq]

theorem receive_decimation {s : State} {h : Header} (hf : IsFor s h) (v : BitVec 32) :
    receive h cmdDecimation (fun t => decimationReply { t with decimation := v }) s = .next { s with
      decimation := v
      tx := s.tx ++ [frameEncode s.cfg [s.cfg.nodeId, h.msgId, cmdDecimation, v.setWidth 8]] } :=
  receive_nonempty (t := { s with decimation := v }) hf cmdDecimation rfl (by simp [maxParams]) (List.cons_ne_nil _ _)

/-- R256: the query form, by its row and through DSP.MSG. -/
theorem receive_decimation_query {s : State} {h : Header} (hf : IsFor s h) :
    receive h cmdDecimation decimationReply s = .next { s with
      tx := s.tx ++ [frameEncode s.cfg [s.cfg.nodeId, h.msgId, cmdDecimation, s.decimation.setWidth 8]] } :=
  receive_decimation hf s.decimation

/-- R256: the set form. -/
theorem receive_decimation_set {s : State} {h : Header} (hf : IsFor s h) (x : Byte) :
    receive h cmdDecimation (fun t => decimationReply { t with decimation := decimationOf x }) s = .next { s with
      decimation := if x = 0x00#8 then 1#32 else x.zeroExtend 32
      tx := s.tx ++ [frameEncode s.cfg [s.cfg.nodeId, h.msgId, 0x44#8, if x = 0x00#8 then 0x01#8 else x]] } := by
  rw [receive_decimation hf, decimationOf_echo]
  rfl

/-! ### Tracing (R260) -/

theorem tracingSelect_other {sel : Byte} (h : 2 < sel.toNat) (s : State) : tracingSelect sel s = s := by
  have hne : ∀ b : Byte, b.toNat ≤ 2 → sel ≠ b := fun b hb he => by rw [he] at h; omega
  rw [tracingSelect, if_neg (hne _ (by decide)), if_neg (hne _ (by decide)), if_neg (hne _ (by decide))]

/-! ### Text (R262) -/

theorem exec_sDebugString_for {s : State} {h : Header} (hf : IsFor s h) (text : List Byte) :
    exec (.sDebugString h text) s = .next (appendText text s) :=
  (exec_sDebugString h text s).trans (receive_silent (act := doDebugString text) hf cmdDebugString rfl)

theorem textFull_iff (s : State) : textFull s = true ↔ textNext s.cfg s.dbgPush = s.dbgPop := by simp [textFull]

theorem appendText_full {s : State} (hfull : textFull s = true) (b : Byte) (rest : List Byte) :
    appendText (b :: rest) s = s.drop .dbgOverflow := by
  rw [appendText, if_pos hfull]

theorem appendText_stored {s : State} (hfull : ¬textFull s = true) (b : Byte) (rest : List Byte) :
    appendText (b :: rest) s = appendText rest (s.storeText b).land := by
  rw [appendText, if_neg hfull]

/-- R43: the free places of the text ring; one slot stays free. -/
def textRoom (s : State) : Nat :=
  s.cfg.textCapacity - 1 - (s.dbgPush + s.cfg.textCapacity - s.dbgPop) % s.cfg.textCapacity

/-- R43: the text ring is a ring of 2^DBG_K slots: with DBG_K for RB_K the distances of a ring are its distances. -/
def textRing (c : Config) : Config := { c with rbK := c.dbgK }

theorem textRoom_eq (s : State) : textRoom s =
    s.cfg.textCapacity - 1 - gap (textRing s.cfg) s.dbgPop s.dbgPush := rfl

theorem textRoom_lt (s : State) : textRoom s < s.cfg.textCapacity := by
  have hpos := Config.textCapacity_pos s.cfg
  rw [textRoom]
  omega

/-- A ring is full to one slot exactly where the next index is the other one. -/
theorem ringNext_eq_iff_gap {c : Config} {a b : Nat} (ha : a < c.ringCapacity) (hb : b < c.ringCapacity) :
    ringNext c b = a ↔ gap c a b + 1 = c.ringCapacity := by
  rw [ringNext_eq hb, gap_eq ha hb]
  split <;> split <;> omega

theorem textFull_iff_room {s : State} (h : TextInv s) : textFull s = true ↔ textRoom s = 0 := by
  obtain ⟨hpush, hpop⟩ := h
  have hfull := ringNext_eq_iff_gap (c := (textRing s.cfg)) hpop hpush
  have hlt : gap (textRing s.cfg) s.dbgPop s.dbgPush < s.cfg.textCapacity :=
    Nat.mod_lt _ (Config.textCapacity_pos s.cfg)
  rw [textFull_iff, textRoom_eq]
  refine hfull.trans ?_
  change _ = s.cfg.textCapacity ↔ _
  omega

/-- A stored byte takes one of the free places. -/
theorem textRoom_storeText {s : State} (h : TextInv s) (hfull : ¬textFull s = true) (b : Byte) :
    TextInv (s.storeText b) ∧ textRoom (s.storeText b) + 1 = textRoom s := by
  have hroom : textRoom s ≠ 0 := fun h0 => hfull ((textFull_iff_room h).2 h0)
  obtain ⟨hpush, hpop⟩ := h
  have hgap := gap_ringNext_right (c := (textRing s.cfg)) hpop hpush fun he => hfull ((textFull_iff s).2 he)
  have hnext : textRoom (s.storeText b) =
      s.cfg.textCapacity - 1 - (gap (textRing s.cfg) s.dbgPop s.dbgPush + 1) := congrArg _ hgap
  refine ⟨⟨textNext_lt _ _, hpop⟩, ?_⟩
  rw [textRoom_eq] at hroom
  rw [hnext, textRoom_eq]
  omega

/-- R262 with nothing else moving: the bytes there are free places for are stored, the rest is lost. -/
theorem appendText_eq (text : List Byte) {s : State} (hq : Quiet s) (h : TextInv s) {n : Nat}
    (hn : n = min text.length (textRoom s)) :
    appendText text s = { s with
      dbgBuf := storeRun s.cfg.textCapacity s.dbgBuf s.dbgPush (text.take n)
      dbgPush := (s.dbgPush + n) % s.cfg.textCapacity
      drops := if n < text.length then s.drops ++ [.dbgOverflow] else s.drops } := by
  induction text generalizing s n with
  | nil =>
    obtain rfl : n = 0 := by rw [hn, List.length_nil, Nat.zero_min]
    rw [Nat.add_zero, Nat.mod_eq_of_lt h.1]
    rfl
  | cons b rest ih =>
    by_cases hfull : textFull s = true
    · obtain rfl : n = 0 := by rw [hn, (textFull_iff_room h).1 hfull, Nat.min_zero]
      rw [appendText_full hfull, Nat.add_zero, Nat.mod_eq_of_lt h.1]
      simp only [List.length_cons, Nat.zero_lt_succ, if_true]
      rfl
    · obtain ⟨h', hroom⟩ := textRoom_storeText h hfull b
      obtain ⟨k, rfl⟩ : ∃ k, n = k + 1 := ⟨n - 1, by rw [List.length_cons] at hn; omega⟩
      have hk : k = min rest.length (textRoom (s.storeText b)) := by rw [List.length_cons] at hn; omega
      have hindex : (textNext s.cfg s.dbgPush + k) % s.cfg.textCapacity =
          (s.dbgPush + (k + 1)) % s.cfg.textCapacity := succ_mod_add_mod _ _ k
      have hq' : Quiet (s.storeText b) := hq
      rw [appendText_stored hfull, land_quiet hq', ih hq' h' hk]
      simp only [State.storeText, List.length_cons, Nat.add_lt_add_iff_right, hindex, List.take_succ_cons, storeRun]
      rfl

/-! ### What a command can answer -/

/-- R94: the commands with a reply object. -/
abbrev replyCommands : List Byte :=
  [cmdVersion, cmdInfo, cmdWrite, cmdQuery, cmdConfig, cmdDecimation, cmdResetTime]

/-- R94, R253: which commands end with a body, how long it can be, and which is refused. -/
def ReplyRule (c : Config) (command : Byte) (ps : List Byte) : Reply → Prop
  | .body b => command ∈ replyCommands ∧ (c.Valid → b.length ≤ maxParams)
  | .silent => True
  | .dropped _ => True
  | .refused r => r = .cfgLen7 ∧ command = cmdConfig ∧ ps.length = 7

/-- How a command ends: by the rule, and before its reply is sent nothing has been. -/
structure Answered (s : State) (command : Byte) (ps : List Byte) (x : Reply × State) : Prop where
  rule : ReplyRule s.cfg command ps x.1
  tx : x.2.tx = s.tx
  cfg : x.2.cfg = s.cfg

section
variable {s : State} {command : Byte} {ps : List Byte}

theorem answered_dropped (r : Drop) : Answered s command ps (.dropped r, s) := ⟨trivial, rfl, rfl⟩

theorem answered_ack {t : State} (hc : command ∈ replyCommands) (ht : t.tx = s.tx) (hcfg : t.cfg = s.cfg) :
    Answered s command ps (.body [], t) := ⟨⟨hc, fun _ => Nat.zero_le _⟩, ht, hcfg⟩

end

theorem answered_doWrite (ps : List Byte) (s : State) : Answered s cmdWrite ps (doWrite ps s) := by
  unfold doWrite
  split
  · exact answered_dropped _
  split
  · exact answered_dropped _
  · have hw := landed_writeChannel
    exact answered_ack (by decide) (hw _ _ s).tx (hw _ _ s).cfg

theorem answered_doQuery (ps : List Byte) (s : State) : Answered s cmdQuery ps (doQuery ps s) := by
  unfold doQuery
  split
  · exact answered_dropped _
  · next o _ =>
    have hr := landed_readChannel (scratchDescriptor s.cfg s.resolver o) s
    exact ⟨⟨by decide, fun _ => queryBody_length_le ps _ _ _⟩, hr.tx, hr.cfg⟩

theorem answered_configForm (i : Fin 16) (ps : List Byte) (s : State) :
    Answered s cmdConfig ps (configForm i ps s) := by
  unfold configForm
  split
  · exact ⟨⟨by decide, fun _ => by simp [maxParams]⟩, rfl, rfl⟩
  split
  · exact answered_ack (by decide) rfl rfl
  split
  · unfold configFull
    split
    · exact answered_dropped _
    · exact answered_ack (by decide) rfl rfl
  split
  · next h7 => exact ⟨⟨rfl, rfl, h7⟩, rfl, rfl⟩
  · exact answered_dropped _

theorem answered_doConfig (ps : List Byte) (s : State) : Answered s cmdConfig ps (doConfig ps s) := by
  unfold doConfig withChannel
  split
  · exact answered_dropped _
  split
  · exact answered_configForm _ ps s
  · exact answered_dropped _

theorem answered_doDecimation (ps : List Byte) (s : State) : Answered s cmdDecimation ps (doDecimation ps s) := by
  cases ps <;> exact ⟨⟨by decide, fun _ => by simp [maxParams]⟩, rfl, rfl⟩

theorem answered_doReadChannelData (ps : List Byte) (s : State) :
    Answered s cmdReadChannelData ps (doReadChannelData ps s) := by
  cases ps with
  | nil => exact ⟨trivial, rfl, rfl⟩
  | cons sel rest =>
    show Answered s cmdReadChannelData _ (.silent, tracingSelect sel s)
    unfold tracingSelect
    repeat' split
    all_goals exact ⟨trivial, rfl, rfl⟩

theorem appendText_tx (text : List Byte) (s : State) :
    (appendText text s).tx = s.tx ∧ (appendText text s).cfg = s.cfg := by
  induction text generalizing s with
  | nil => exact ⟨rfl, rfl⟩
  | cons b rest ih =>
    rw [appendText]
    split
    · exact ⟨rfl, rfl⟩
    · have hl := landed_land (s.storeText b)
      exact ⟨(ih _).1.trans hl.tx, (ih _).2.trans hl.cfg⟩

/-- R231: every command, known or not. -/
theorem answered_handle (command : Byte) (ps : List Byte) (s : State) :
    Answered s command ps (handle command ps s) := by
  by_cases hc : command ∈ commandBytes
  · simp only [commandBytes, List.mem_cons, List.not_mem_nil, or_false] at hc
    rcases hc with rfl | rfl | rfl | rfl | rfl | rfl | rfl | rfl | rfl
    · exact ⟨⟨by decide, versionBody_length_le⟩, rfl, rfl⟩
    · exact ⟨⟨by decide, infoBody_length_le⟩, rfl, rfl⟩
    · exact answered_doWrite ps s
    · exact answered_doQuery ps s
    · exact answered_doConfig ps s
    · exact answered_doDecimation ps s
    · exact answered_ack (by decide) rfl rfl
    · exact answered_doReadChannelData ps s
    · have ht := appendText_tx ps s
      exact ⟨trivial, ht.1, ht.2⟩
  · rw [handle_unknown hc]
    exact answered_dropped _

/-- R94, R233: the frame of a reply object, if it is sent, and whose it can be. -/
theorem finish_tx {s t : State} {h : Header} {command : Byte} {ps : List Byte} {x : Reply × State}
    (ha : Answered s command ps x) (ht : finish h command x = .next t) :
    t.tx = s.tx ∨ ∃ body : List Byte, t.tx = s.tx ++ [frameEncode s.cfg ([s.cfg.nodeId, h.msgId, command] ++ body)] ∧
      (h.msgId ≠ 0x00#8 ∨ body ≠ []) ∧ command ∈ replyCommands := by
  obtain ⟨hrule, htx, hcfg⟩ := ha
  obtain ⟨r, u⟩ := x
  simp only at hrule htx hcfg
  cases r with
  | silent => cases ht; exact .inl htx
  | dropped r => cases ht; exact .inl htx
  | refused r => cases ht
  | body b =>
    simp only [finish] at ht
    split at ht
    · next hsent =>
      rw [send] at ht
      split at ht
      · cases ht
      · cases ht
        refine .inr ⟨b, ?_, by simpa [replyTransmitted] using hsent, hrule.1⟩
        simp [htx, hcfg, messagePayload]
    · cases ht
      exact .inl htx

/-! ### The obligations -/

/-- Settles O26: the row a message selects acts as DSP.MSG, and each row is its message's dispatch by definition. -/
theorem rowsAgreeWithDispatch : Obligations.RowsAgreeWithDispatch :=
  ⟨fun m s => (exec_ofMessage m s).symm, fun _ _ _ _ _ =>
    ⟨rfl, rfl, rfl, rfl, rfl, rfl, rfl, rfl, rfl, rfl, rfl, rfl⟩⟩

/-- Settles O27: under legal parameters the body fits, and it is never empty. -/
theorem versionReply : Obligations.VersionReply := fun h ps s hc hf =>
  (exec_vGetVersion h ps s).trans (receive_nonempty (act := doVersion) hf cmdVersion rfl (versionBody_length_le hc)
    (versionBody_ne_nil s.cfg))

/-- Settles O29: a write through the scratch descriptor, then an empty body. -/
theorem writeRegisterEffect : Obligations.WriteRegisterEffect := by
  rintro h ps s d hc hq hf h6 h8 hv rfl
  have hact := doWrite_ok (s := s) h6 h8 hv
  refine ⟨fun hnull => ?_, fun p hp => ?_⟩
  · rw [writeChannel_quiet_null hq (d := registerDescriptor s ps) hnull] at hact
    exact (exec_wWriteRegister h ps s).trans (receive_body hf cmdWrite hact (Nat.zero_le _))
  · have hlen : (slice ps 6 (byteAt ps 5).toNat).length ≤ 8 := Nat.le_trans (List.length_take_le _ _) h8
    obtain ⟨m, hm, hstored⟩ := writeChannel_quiet_stored hc hq (d := registerDescriptor s ps) hp hlen
    rw [hm] at hact
    refine ⟨m, (exec_wWriteRegister h ps s).trans (receive_body hf cmdWrite hact (Nat.zero_le _)), ?_⟩
    have htake : (slice ps 6 (byteAt ps 5).toNat).take (byteAt ps 5).toNat = (ps.drop 6).take (byteAt ps 5).toNat := by
      rw [slice, List.take_take, Nat.min_self]
    rwa [← htake]

/-- Settles O30: a read through the scratch descriptor, and a body of ten bytes. -/
theorem queryRegisterReply : Obligations.QueryRegisterReply := by
  rintro h ps s d - hq hf h6 h8 rfl
  rw [exec_qQueryRegister, receive_nonempty hf cmdQuery (doQuery_ok h6 h8 hq) (queryBody_length_le ps _ _ _) (by simp),
    valueField_eq]
  rfl

/-- Settles O31: the length, then the size, then for a write the length of the value. -/
theorem registerCommandChecks : Obligations.RegisterCommandChecks := by
  intro h ps s hf
  refine ⟨fun h6 => ?_, fun h6 h8 => ?_, fun h6 h8 hv => receive_dropped hf cmdWrite (doWrite_short h6 h8 hv)⟩
  · exact ⟨receive_dropped hf cmdWrite (doWrite_error (parseRegister_short s.cfg h6)),
      receive_dropped hf cmdQuery (doQuery_error (parseRegister_short s.cfg h6))⟩
  · exact ⟨receive_dropped hf cmdWrite (doWrite_error (parseRegister_size s.cfg h6 h8)),
      receive_dropped hf cmdQuery (doQuery_error (parseRegister_size s.cfg h6 h8))⟩

/-- Settles O34: the form by the length, then the size test, then the slot `configuredChannel` describes. -/
theorem configFullEffect : Obligations.ConfigFullEffect := by
  intro h i ps s hf h8 hi
  rw [exec_cConfigFull]
  refine ⟨fun hsize => ?_, fun hsize => ?_⟩
  · rw [receive_body hf cmdConfig ((doConfig_full h8 hi s).trans (configFull_ok hsize i s)) (Nat.zero_le _),
      ← forcedLatch_eq]
    rfl
  · exact receive_dropped hf cmdConfig ((doConfig_full h8 hi s).trans (configFull_size hsize i s))

/-- Settles O36: the two forms, each by its row and through DSP.MSG. -/
theorem decimationEffect : Obligations.DecimationEffect := fun _ x _ _ hf =>
  ⟨receive_decimation_query hf, receive_decimation_query hf, receive_decimation_set hf x, receive_decimation_set hf x⟩

/-- Settles O38, by the first parameter byte. -/
theorem readChannelDataEffect : Obligations.ReadChannelDataEffect := by
  intro h sel extra s hf
  have hrow := fun ps t (hact : doReadChannelData ps s = (.silent, t)) =>
    (exec_rReadChannelData h ps s).trans (receive_silent hf cmdReadChannelData hact)
  refine ⟨hrow _ _ rfl, hrow _ _ rfl, hrow _ _ rfl, hrow _ _ rfl, fun hsel => hrow _ _ ?_⟩
  exact congrArg (Reply.silent, ·) (tracingSelect_other hsel s)

/-- Settles O39: byte by byte by the full test, and at rest from the closed form of an append. -/
theorem debugStringEffect : Obligations.DebugStringEffect := by
  refine ⟨fun h b rest s hf => ⟨exec_sDebugString_for hf [], fun hfull => ?_, fun hfull => ?_⟩, fun h text s hq hf ht => ?_⟩
  · rw [exec_sDebugString_for hf, appendText_full ((textFull_iff s).2 hfull)]
    rfl
  · have hcfg : (s.storeText b).land.cfg = s.cfg := (landed_land _).cfg
    have hf' : IsFor (s.storeText b).land h := by unfold IsFor; rwa [hcfg]
    rw [exec_sDebugString_for hf, appendText_stored (fun hf => hfull ((textFull_iff s).1 hf))]
    exact (exec_sDebugString_for hf' rest).symm
  · obtain ⟨n, hn⟩ : ∃ n, n = min text.length (textRoom s) := ⟨_, rfl⟩
    have hlt := textRoom_lt s
    have hlen : (text.take n).length = n := by rw [List.length_take]; omega
    refine ⟨n, _, exec_sDebugString_for hf text, hn, ?_, fun j hj => ?_, fun j hj => ?_⟩
    · rw [appendText_eq text hq ht hn]
      rfl
    · have hfind : (text.take n)[j]? = text[j]? := List.getElem?_take_of_lt hj
      have hbound : j < text.length := by omega
      rw [appendText_eq text hq ht hn]
      show some ((Memory.find (storeRun s.cfg.textCapacity _ _ _) ((s.dbgPush + j) % s.cfg.textCapacity)).getD _) = _
      rw [find_storeRun _ _ ht.1 (by omega) (by omega), hfind, List.getElem?_eq_getElem hbound]
      rfl
    · rw [appendText_eq text hq ht hn]
      show (Memory.find (storeRun s.cfg.textCapacity _ _ _) j).getD _ = _
      rw [find_storeRun_other _ _ ht.1 (by rwa [hlen])]
      rfl

/-- Settles O40: the node filter, then how a command can end, then the reply filter. -/
theorem repliesAreFiltered : Obligations.RepliesAreFiltered := by
  intro m s t ht
  by_cases hf : IsFor s m.header
  · rw [exec_dspMsg, receive_for hf] at ht
    refine (finish_tx (answered_handle m.command m.params s) ht).imp id fun ⟨body, hbody, hsent, hc⟩ =>
      ⟨body, hbody, hsent, hf, hc⟩
  · rw [exec_dspMsg, receive_other hf] at ht
    cases ht
    exact .inl rfl

end Sys2Proof.Machine

/-! ## Telemetry: when a poll scans, what a scan at rest gives, and what it gives whatever else happens
(45_telemetry.md) -/

namespace Sys2Proof.Machine

/-! ### When a poll scans (R283, R293) -/

theorem slowBoundary_eq (s : State) : slowBoundary s =
    decide (s.cfg.slowIntervalTicks.toNat ≤ (s.timeTicks.toNat + 2 ^ 32 - s.lastSlowUpdate.toNat) % 2 ^ 32) :=
  intervalReached_eq _ _ _

theorem scanDue_iff (s : State) : scanDue s = true ↔ (s.tracingOn = true ∨ s.tracingOnce = true) ∧
    s.decimation.toNat ≤ (s.timeTicks.toNat + 2 ^ 32 - s.lastFastUpdate.toNat) % 2 ^ 32 := by
  rw [scanDue, intervalReached_eq, Bool.and_eq_true, Bool.or_eq_true, decide_eq_true_iff]

theorem exec_tmPoll_idle {s : State} (h : ¬scanDue s = true) : exec .tmPoll s = .next s := if_neg h

/-- R283: what the scan of a poll builds, and the state it leaves. -/
def scanned (s : State) : Multiplex × State := scanChannels (slowBoundary s) s.tracingOnce s.beginScan

theorem exec_tmPoll_due {s : State} (h : scanDue s = true) : exec .tmPoll s =
    emitTelemetry (s.timeTicks.setWidth 24) (scanned s).1.mask (scanned s).1.values
      { (scanned s).2 with tracingOnce := false } := by
  have hpoll : exec .tmPoll s = pollScan s := if_pos h
  rw [hpoll, pollScan, scanned]

/-! ### The emission (R291, R292) -/

theorem telemetryParams_length (c : Config) (timestamp : BitVec 24) (mask : BitVec 16) (values : List Byte) :
    (telemetryParams c timestamp mask values).length = 5 + values.length := by
  simp only [telemetryParams, List.length_append, wire_length]

/-- R150, R291: the frame of a telemetry message. -/
def telemetryFrame (c : Config) (timestamp : BitVec 24) (mask : BitVec 16) (values : List Byte) : List Byte :=
  frameEncode c ([c.nodeId, c.telemetryMsgId, c.telemetryCmd] ++
    (wire c 3 timestamp.toNat ++ wire c 2 mask.toNat ++ values))

section
variable {timestamp : BitVec 24} {mask : BitVec 16} {values : List Byte} {s : State}

theorem emitTelemetry_zero (h : mask = 0) : emitTelemetry timestamp mask values s = .next s := if_pos h

theorem emitTelemetry_sent (h : mask ≠ 0) (hlen : 5 + values.length ≤ 124) : emitTelemetry timestamp mask values s =
    .next { s with tx := s.tx ++ [telemetryFrame s.cfg timestamp mask values] } := by
  rw [emitTelemetry, if_neg h, send, telemetryParams_length, if_neg (Nat.not_lt.2 hlen)]
  rfl

theorem emitTelemetry_long (h : mask ≠ 0) (hlen : 124 < 5 + values.length) :
    emitTelemetry timestamp mask values s = .refused .bodyTooLong := by
  rw [emitTelemetry, if_neg h, send, telemetryParams_length, if_pos hlen]

/-- The three ends of an emission. -/
theorem emitTelemetry_cases (timestamp : BitVec 24) (mask : BitVec 16) (values : List Byte) (s : State) :
    emitTelemetry timestamp mask values s = .next s ∨
    (mask ≠ 0 ∧ emitTelemetry timestamp mask values s =
      .next { s with tx := s.tx ++ [telemetryFrame s.cfg timestamp mask values] }) ∨
    (124 < 5 + values.length ∧ emitTelemetry timestamp mask values s = .refused .bodyTooLong) := by
  by_cases h : mask = 0
  · exact .inl (emitTelemetry_zero h)
  · by_cases hlen : 5 + values.length ≤ 124
    · exact .inr (.inl ⟨h, emitTelemetry_sent h hlen⟩)
    · exact .inr (.inr ⟨Nat.not_le.1 hlen, emitTelemetry_long h (Nat.not_le.1 hlen)⟩)

end

/-! ### A scan, whatever the other agents do -/

/-- What neither the other agents nor a latch written touch, a scan leaves. -/
theorem scanChannels_same {α : Type} (f : State → α) (hl : ∀ s t, Landed s t → f t = f s)
    (hs : ∀ (s : State) (j : Fin 16) (l : Vector Byte 8),
      f (s.setChannel j { s.ch[j] with previousValue := l }) = f s) (slowDue once : Bool) (s : State) :
    f (scanChannels slowDue once s).2 = f s := by
  have hread : ∀ (i : Fin 16) (u : State), f (readSlot i u).2 = f u := fun i u => by
    have hu := hl u _ (landed_readChannel u.ch[i].descriptor u)
    simp only [readSlot]
    split
    · exact (hs _ i _).trans hu
    · exact hu
  have hfold : ∀ (l : List (Fin 16)) (x : Multiplex × State), f (l.foldl (visitChannel slowDue once) x).2 = f x.2 := by
    intro l
    induction l with
    | nil => exact fun _ => rfl
    | cons i rest ih => exact fun x => (ih _).trans (hread i x.2)
  exact hfold channelOrder _

theorem readSlot_size (i j : Fin 16) (s : State) : (readSlot i s).2.ch[j].sizeBytes = s.ch[j].sizeBytes := by
  cases hchanged : (readSlot i s).1.changed with
  | true =>
    rw [readSlot_ch_changed hchanged]
    refine (congrArg Channel.sizeBytes (setChannel_ch s i j _)).trans ?_
    split
    · next hj => rw [hj]
    · rfl
  | false => rw [readSlot_ch_unchanged hchanged]

theorem readChannel_value_length {d : Descriptor} {s : State} {v : List Byte} (h : (readChannel d s).1.value = some v) :
    v.length = d.sizeBytes.toNat := by
  unfold readChannel at h
  split at h
  · cases h
  · next p t _ =>
    have hvalue : (latchRead d (readBytes d.sizeBytes.toNat p t).1).value = some (readBytes d.sizeBytes.toNat p t).1 := by
      unfold latchRead
      split <;> rfl
    rw [← Option.some.inj (hvalue.symm.trans h), readBytes_length]

theorem contribute_values_length (c : Config) (i : Fin 16) (mode : Byte) (slowDue once : Bool) (r : ChannelRead)
    (x : Multiplex) : (contribute c i mode slowDue once r x).values.length ≤
      x.values.length + (r.value.getD []).length := by
  unfold contribute
  cases r.value with
  | none => exact Nat.le_add_right _ _
  | some v =>
    simp only
    split
    · exact (List.length_append).le
    · exact Nat.le_add_right _ _

/-- R283: a channel adds at most its size. -/
theorem visitChannel_values_length (slowDue once : Bool) (x : Multiplex) (s : State) (i : Fin 16) :
    (visitChannel slowDue once (x, s) i).1.values.length ≤ x.values.length + s.ch[i].sizeBytes.toNat := by
  have hvalue : ((readSlot i s).1.value.getD []).length ≤ s.ch[i].sizeBytes.toNat := by
    cases hv : (readSlot i s).1.value with
    | none => exact Nat.zero_le _
    | some v => exact (readChannel_value_length (d := s.ch[i].descriptor) hv).le
  exact (contribute_values_length _ i _ slowDue once (readSlot i s).1 x).trans (Nat.add_le_add_left hvalue _)

theorem scanned_same {α : Type} (f : State → α) (hl : ∀ s t, Landed s t → f t = f s)
    (hs : ∀ (s : State) (j : Fin 16) (l : Vector Byte 8),
      f (s.setChannel j { s.ch[j] with previousValue := l }) = f s) (s : State) : f (scanned s).2 = f s.beginScan :=
  scanChannels_same f hl hs (slowBoundary s) s.tracingOnce s.beginScan

/-- R372: a scan's values are no longer than the sizes together. -/
theorem scanChannels_values_length (slowDue once : Bool) (s : State) :
    (scanChannels slowDue once s).1.values.length ≤ totalSize s := by
  have hfold : ∀ (l : List (Fin 16)) (x : Multiplex) (u : State),
      (l.foldl (visitChannel slowDue once) (x, u)).1.values.length ≤
        x.values.length + (l.map fun i => u.ch[i].sizeBytes.toNat).sum := by
    intro l
    induction l with
    | nil => exact fun _ _ => Nat.le_refl _
    | cons i rest ih =>
      intro x u
      have hfirst := visitChannel_values_length slowDue once x u i
      have hrest := ih (visitChannel slowDue once (x, u) i).1 (readSlot i u).2
      simp only [readSlot_size] at hrest
      rw [List.map_cons, List.sum_cons]
      exact Nat.le_trans hrest (by omega)
  rw [scanChannels, totalSize]
  generalize channelOrder = l
  exact (hfold l ⟨0, []⟩ s).trans (Nat.zero_add _).le

theorem scanned_values_length (s : State) : (scanned s).1.values.length ≤ totalSize s := by
  have hsize : totalSize s.beginScan = totalSize s := by rw [totalSize, totalSize]; rfl
  rw [← hsize, scanned]
  exact scanChannels_values_length (slowBoundary s) s.tracingOnce s.beginScan

/-! ### A scan at rest (R283, R286, R288) -/

/-- `u` reads target memory as `s` does, and nothing else moves. -/
structure SameMemory (s u : State) : Prop where
  quiet : Quiet u
  cfg : u.cfg = s.cfg
  nullByte : u.nullByte = s.nullByte
  mem : u.mem = s.mem

/-- R206: what CH.RD gives of a slot at rest. -/
def slotRead (s : State) (i : Fin 16) : ChannelRead :=
  ⟨valueAtRest s s.ch[i].descriptor, changedAtRest s s.ch[i].descriptor, latchAtRest s s.ch[i].descriptor⟩

/-- R206: a slot after it has been read at rest. -/
def latched (s : State) (i : Fin 16) : Channel := { s.ch[i] with previousValue := latchAtRest s s.ch[i].descriptor }

/-- One pass of the loop over a slot that still is as it was in `s`. -/
theorem visitChannel_quiet {s u : State} (h : SameMemory s u) {i : Fin 16} (hi : u.ch[i] = s.ch[i])
    (slowDue once : Bool) (x : Multiplex) :
    visitChannel slowDue once (x, u) i = (contribute s.cfg i s.ch[i].updateMode slowDue once (slotRead s i) x,
      { u with ch := u.ch.set i (latched s i), drops := u.drops ++ chaseDrops s s.ch[i].descriptor }) := by
  have hread := atRest_congr h.cfg h.nullByte h.mem s.ch[i].descriptor
  obtain ⟨hchanged, hlatch, hdrops⟩ := atRest_congr_read hread
  have hslot := readSlot_quiet h.quiet i
  rw [hi, hread.1, hchanged, hlatch, hdrops] at hslot
  simp only [visitChannel, readRef, hslot, h.cfg]
  simp [slotRead, latched]

/-- The slots after those listed have been read. -/
def latchAll (s : State) (l : List (Fin 16)) (chs : Vector Channel 16) : Vector Channel 16 :=
  l.foldl (fun chs (i : Fin 16) => chs.set i (latched s i)) chs

/-- The multiplex after those listed have been visited. -/
def contributeAll (s : State) (slowDue once : Bool) (l : List (Fin 16)) (x : Multiplex) : Multiplex :=
  l.foldl (fun x i => contribute s.cfg i s.ch[i].updateMode slowDue once (slotRead s i) x) x

/-- At rest the passes do not see each other: each slot is read once, as it is in `s`. -/
theorem foldl_visitChannel_quiet {s : State} {l : List (Fin 16)} (hl : l.Nodup) {u : State} (h : SameMemory s u)
    (hch : ∀ i ∈ l, u.ch[i] = s.ch[i]) (slowDue once : Bool) (x : Multiplex) :
    l.foldl (visitChannel slowDue once) (x, u) = (contributeAll s slowDue once l x,
      { u with ch := latchAll s l u.ch, drops := u.drops ++ l.flatMap fun i => chaseDrops s s.ch[i].descriptor }) := by
  induction l generalizing u x with
  | nil => simp [contributeAll, latchAll]
  | cons i rest ih =>
    obtain ⟨hi, hrest⟩ := List.nodup_cons.1 hl
    rw [List.foldl_cons, visitChannel_quiet h (hch i List.mem_cons_self), ih hrest]
    · simp [contributeAll, latchAll]
    · exact ⟨h.quiet, h.cfg, h.nullByte, h.mem⟩
    · intro j hj
      have hij : i ≠ j := fun he => hi (he ▸ hj)
      exact ((setChannel_ch u i j _).trans (if_neg hij)).trans (hch j (List.mem_cons_of_mem _ hj))

theorem latchAll_get (s : State) (l : List (Fin 16)) (chs : Vector Channel 16) (k : Fin 16) :
    (latchAll s l chs)[k] = if k ∈ l then latched s k else chs[k] := by
  induction l generalizing chs with
  | nil => simp [latchAll]
  | cons i rest ih =>
    have hset : (chs.set i (latched s i))[k] = if i = k then latched s i else chs[k] := by
      simp [Vector.getElem_set, Fin.ext_iff]
    rw [latchAll, List.foldl_cons, ← latchAll, ih, hset]
    by_cases hk : k ∈ rest
    · simp [hk]
    · by_cases hik : i = k
      · subst hik; simp
      · simp [hk, hik, Ne.symm hik]

theorem mem_channelOrder (i : Fin 16) : i ∈ channelOrder := by
  revert i
  decide

theorem channelOrder_nodup : channelOrder.Nodup := by decide

theorem latchAll_channelOrder (s : State) (chs : Vector Channel 16) :
    latchAll s channelOrder chs = Vector.ofFn fun i => latched s i := by
  apply Vector.ext
  intro k hk
  have hget := latchAll_get s channelOrder chs ⟨k, hk⟩
  rw [if_pos (mem_channelOrder _)] at hget
  simpa using hget

/-- R288, R289: a channel's part in the message of a scan at rest. -/
theorem contribute_slotRead (s : State) (i : Fin 16) (x : Multiplex) :
    contribute s.cfg i s.ch[i].updateMode (slowBoundary s) s.tracingOnce (slotRead s i) x =
      if contributesAtRest s i = true then
        ⟨x.mask ||| (1#16 <<< i.val), x.values ++ (valueAtRest s s.ch[i].descriptor).getD []⟩
      else x := by
  unfold contribute contributesAtRest slotRead
  cases valueAtRest s s.ch[i].descriptor <;> simp

theorem contributeAll_values (s : State) (l : List (Fin 16)) (x : Multiplex) :
    (contributeAll s (slowBoundary s) s.tracingOnce l x).values =
      x.values ++ (l.filter (contributesAtRest s)).flatMap fun i => (valueAtRest s s.ch[i].descriptor).getD [] := by
  induction l generalizing x with
  | nil => simp [contributeAll]
  | cons i rest ih =>
    rw [contributeAll, List.foldl_cons, ← contributeAll, contribute_slotRead, ih]
    by_cases hi : contributesAtRest s i = true
    · simp [hi]
    · simp [hi]

theorem getLsbD_or_bit (mask : BitVec 16) (i k : Fin 16) :
    (mask ||| (1#16 <<< i.val)).getLsbD k.val = (mask.getLsbD k.val || decide (k = i)) := by
  have hbit : ∀ i k : Fin 16, (1#16 <<< i.val).getLsbD k.val = decide (k = i) := by decide
  rw [BitVec.getLsbD_or, hbit]

theorem contributeAll_mask (s : State) (l : List (Fin 16)) (x : Multiplex) (k : Fin 16) :
    (contributeAll s (slowBoundary s) s.tracingOnce l x).mask.getLsbD k.val =
      (x.mask.getLsbD k.val || (decide (k ∈ l) && contributesAtRest s k)) := by
  induction l generalizing x with
  | nil => simp [contributeAll]
  | cons i rest ih =>
    rw [contributeAll, List.foldl_cons, ← contributeAll, contribute_slotRead, ih]
    by_cases hi : contributesAtRest s i = true
    · rw [if_pos hi, getLsbD_or_bit]
      by_cases hki : k = i
      · simp [hki, hi]
      · simp [hki]
    · rw [if_neg hi]
      by_cases hki : k = i
      · simp [hki, hi]
      · simp [hki]

/-- R283: the scan of a poll at rest. -/
theorem scanned_quiet {s : State} (hq : Quiet s) : scanned s =
    (contributeAll s (slowBoundary s) s.tracingOnce channelOrder ⟨0, []⟩, { s.beginScan with
      ch := Vector.ofFn fun i => latched s i
      drops := s.drops ++ channelOrder.flatMap fun i => chaseDrops s s.ch[i].descriptor }) := by
  rw [scanned, scanChannels, foldl_visitChannel_quiet channelOrder_nodup (s := s) (u := s.beginScan) ⟨hq, rfl, rfl, rfl⟩
    (fun _ _ => rfl),
    latchAll_channelOrder]
  rfl

theorem scanned_values {s : State} (hq : Quiet s) : (scanned s).1.values = valuesAtRest s := by
  rw [scanned_quiet hq]
  exact contributeAll_values s channelOrder ⟨0, []⟩

theorem scanned_mask {s : State} (hq : Quiet s) {mask : BitVec 16} (hm : MaskOf s mask) : (scanned s).1.mask = mask := by
  apply BitVec.eq_of_getLsbD_eq
  intro k hk
  have hbit := contributeAll_mask s channelOrder ⟨0, []⟩ ⟨k, hk⟩
  rw [scanned_quiet hq, hm ⟨k, hk⟩]
  simpa [mem_channelOrder] using hbit

/-- R290: a message with values has a nonzero mask. -/
theorem valuesAtRest_of_mask_zero {s : State} (h : MaskOf s 0) : valuesAtRest s = [] := by
  have hnone : ∀ i ∈ channelOrder, ¬contributesAtRest s i = true := fun i _ => by
    rw [← h i]
    simp
  rw [valuesAtRest, contributorsAtRest, List.filter_eq_nil_iff.2 hnone, List.flatMap_nil]

/-! ### Contribution by mode (R288, R289) -/

theorem contributesAtRest_none {s : State} {i : Fin 16} (h : valueAtRest s s.ch[i].descriptor = none) :
    contributesAtRest s i = false := by
  rw [contributesAtRest, h]
  rfl

theorem contributesAtRest_some {s : State} {i : Fin 16} {v : List Byte}
    (h : valueAtRest s s.ch[i].descriptor = some v) : contributesAtRest s i =
      modeContributes s.cfg s.ch[i].updateMode (changedAtRest s s.ch[i].descriptor) (slowBoundary s) s.tracingOnce := by
  rw [contributesAtRest, h]
  rfl

/-- R288: the rows of the table, for pairwise distinct codes. -/
theorem modeContributes_table {c : Config} (h : c.mode.all.Nodup) (changed slowDue once : Bool) :
    modeContributes c c.mode.off changed slowDue once = false ∧
    modeContributes c c.mode.onChange changed slowDue once = changed ∧
    modeContributes c c.mode.periodic changed slowDue once = slowDue ∧
    modeContributes c c.mode.sendOnce changed slowDue once = once ∧
    modeContributes c c.mode.sendAll changed slowDue once = true := by
  simp only [ModeCodes.all, List.nodup_cons, List.mem_cons, List.not_mem_nil, or_false, not_or] at h
  obtain ⟨⟨h1, h2, h3, h4⟩, ⟨h5, h6, h7⟩, ⟨h8, h9⟩, h10, -⟩ := h
  simp [modeContributes, h1, h2, h3, h4, beq_false_of_ne h5, beq_false_of_ne h6, beq_false_of_ne h7, beq_false_of_ne h8,
    beq_false_of_ne h9, beq_false_of_ne h10, beq_false_of_ne (Ne.symm h5), Ne.symm h6, Ne.symm h8]

/-- D14: a code that is none of the five. -/
theorem modeContributes_other {c : Config} {mode : Byte} (h : mode ∉ c.mode.all) (changed slowDue once : Bool) :
    modeContributes c mode changed slowDue once = false := by
  simp only [ModeCodes.all, List.mem_cons, List.not_mem_nil, or_false, not_or] at h
  obtain ⟨-, h1, h2, h3, h4⟩ := h
  simp [modeContributes, h1, h2, h3, h4]

/-! ### The obligations -/

/-- Settles O42: one of the two conditions of a scan fails. -/
theorem pollWithoutScan : Obligations.PollWithoutScan := by
  refine fun s => ⟨fun hon honce => exec_tmPoll_idle fun hdue => ?_, fun hticks => exec_tmPoll_idle fun hdue => ?_⟩
  · obtain ⟨hflag, -⟩ := (scanDue_iff s).1 hdue
    rw [hon, honce] at hflag
    exact hflag.elim Bool.false_ne_true Bool.false_ne_true
  · exact Nat.not_lt.2 ((scanDue_iff s).1 hdue).2 hticks

/-- Settles O43: the scan at rest gives the mask and the values, and the emission sends them or is refused. -/
theorem pollScansAtRest : Obligations.PollScansAtRest := by
  intro s mask slow hq hm hflag hticks hslow
  rw [exec_tmPoll_due ((scanDue_iff s).2 ⟨hflag, hticks⟩), scanned_mask hq hm, scanned_values hq]
  refine ⟨fun hlen => ?_, fun hlen => emitTelemetry_long (fun h0 => ?_) hlen⟩
  · rw [scanned_quiet hq, hslow, ← slowBoundary_eq]
    by_cases h0 : mask = 0x0000#16
    · rw [emitTelemetry_zero h0, if_pos h0]
      rfl
    · have hstamp : (s.timeTicks.setWidth 24).toNat = s.timeTicks.toNat % 2 ^ 24 := BitVec.toNat_setWidth _ _
      rw [emitTelemetry_sent h0 hlen, if_neg h0, ← hstamp]
      rfl
  · subst h0
    rw [valuesAtRest_of_mask_zero hm] at hlen
    exact absurd hlen (by decide)

/-- Settles O44: the bases are written before the scan, which nothing else than a poll's begin writes. -/
theorem clockIsReadOnce : Obligations.ClockIsReadOnce := by
  intro s t hflag hticks ht
  rw [exec_tmPoll_due ((scanDue_iff s).2 ⟨hflag, hticks⟩)] at ht
  have hfast := scanned_same State.lastFastUpdate (fun _ _ h => h.lastFastUpdate) (fun _ _ _ => rfl) s
  have hslow := scanned_same State.lastSlowUpdate (fun _ _ h => h.lastSlowUpdate) (fun _ _ _ => rfl) s
  have htx := scanned_same State.tx (fun _ _ h => h.tx) (fun _ _ _ => rfl) s
  have hcfg := scanned_same State.cfg (fun _ _ h => h.cfg) (fun _ _ _ => rfl) s
  simp only [State.beginScan, slowBoundary_eq, decide_eq_true_iff] at hfast hslow htx hcfg
  generalize scanned s = scan at ht hfast hslow htx hcfg
  rcases emitTelemetry_cases (s.timeTicks.setWidth 24) scan.1.mask scan.1.values
    { scan.2 with tracingOnce := false } with he | ⟨hmask, he⟩ | ⟨-, he⟩ <;> rw [he] at ht <;> cases ht
  · exact ⟨hfast, hslow, rfl, .inl htx⟩
  · have hstamp : (s.timeTicks.setWidth 24).toNat = s.timeTicks.toNat % 2 ^ 24 := BitVec.toNat_setWidth _ _
    refine ⟨hfast, hslow, rfl, .inr ⟨scan.1.mask, scan.1.values, hmask, ?_⟩⟩
    show scan.2.tx ++ [telemetryFrame scan.2.cfg _ _ _] = _
    rw [htx, hcfg, telemetryFrame, hstamp]

/-- Settles O45: the table of the modes, for a channel with a value. -/
theorem contributionTable : Obligations.ContributionTable := by
  refine fun s i hmodes => ⟨contributesAtRest_none, fun v hv => ?_⟩
  rw [contributesAtRest_some hv, ← slowBoundary_eq, changedAtRest_some hv]
  obtain ⟨hoff, honChange, hperiodic, hsendOnce, hsendAll⟩ := modeContributes_table hmodes
    (decide (v ≠ s.ch[i].descriptor.previousValue.toList.take s.ch[i].descriptor.sizeBytes.toNat)) (slowBoundary s)
    s.tracingOnce
  exact ⟨fun hm => hm ▸ hoff, fun hm => hm ▸ honChange, fun hm => hm ▸ hperiodic, fun hm => hm ▸ hsendOnce,
    fun hm => hm ▸ hsendAll, fun hm => modeContributes_other hm _ _ _⟩

/-- Settles O46, by the mask and the length. -/
theorem telemetryEmission : Obligations.TelemetryEmission := fun timestamp _ values _ =>
  ⟨emitTelemetry_zero (timestamp := timestamp) (values := values) rfl, emitTelemetry_sent, emitTelemetry_long⟩

/-- Settles O49: RST empties the ring, clears both tracing flags and sets decimation to 1. -/
theorem resetIsIdle : Obligations.ResetIsIdle := by
  refine fun s h hf => ⟨s.resetBlock, rfl, next_empty rfl, (pollWithoutScan s.resetBlock).1 rfl rfl, ?_⟩
  exact receive_decimation_query (s := s.resetBlock) hf

end Sys2Proof.Machine

/-! ## What can be refused (60_exceptions.md) -/

namespace Sys2Proof.Machine

/-- R231: every instruction that handles a message is a command between the two filters, and a ConfigChannel of seven bytes
if its command is. -/
theorem exec_command {i : Instr} {command : Byte} (h : Handles i command) (s : State) :
    ∃ (hd : Header) (ps : List Byte), exec i s = receive hd command (handle command ps) s ∧
      (command = cmdConfig → ps.length = 7 → IsConfigOf7 i) := by
  have hother {i : Instr} {c : Byte} {ps : List Byte} (hc : c ≠ cmdConfig) :
      c = cmdConfig → ps.length = 7 → IsConfigOf7 i := fun he => absurd he hc
  cases i <;> cases h
  case dspMsg m => exact ⟨m.header, m.params, rfl, fun hc h7 => .inr ⟨m, rfl, hc, h7⟩⟩
  case cConfigFull hd ps => exact ⟨hd, ps, rfl, fun _ h7 => .inl ⟨hd, ps, rfl, h7⟩⟩
  case cConfigQuery hd x => exact ⟨hd, [x], rfl, fun _ h7 => nomatch h7⟩
  case cConfigMode hd x y => exact ⟨hd, [x, y], rfl, fun _ h7 => nomatch h7⟩
  case dDecimationQuery hd => exact ⟨hd, [], rfl, hother (by decide)⟩
  case dDecimationSet hd x ps => exact ⟨hd, x :: ps, rfl, hother (by decide)⟩
  all_goals
    rename_i hd ps
    exact ⟨hd, ps, rfl, hother (by decide)⟩

/-- R253: of the commands, under legal parameters, only a ConfigChannel of seven bytes is refused. -/
theorem receive_refused {s : State} (hc : s.cfg.Valid) {hd : Header} {command : Byte} {ps : List Byte} {r : Refusal}
    (h : receive hd command (handle command ps) s = .refused r) :
    r = .cfgLen7 ∧ command = cmdConfig ∧ ps.length = 7 := by
  by_cases hf : IsFor s hd
  · obtain ⟨hrule, -, -⟩ := answered_handle command ps s
    rw [receive_for hf] at h
    generalize handle command ps s = x at hrule h
    obtain ⟨reply, t⟩ := x
    cases reply with
    | silent => cases h
    | dropped => cases h
    | refused => cases h; exact hrule
    | body b =>
      rw [finish_body t hd command (hrule.2 hc)] at h
      cases h
  · rw [receive_other hf] at h
    cases h

/-- R292, R372: a poll is refused only with more than 119 value bytes configured. -/
theorem tmPoll_refused {s : State} {r : Refusal} (h : exec .tmPoll s = .refused r) :
    r = .bodyTooLong ∧ 119 < totalSize s := by
  by_cases hdue : scanDue s = true
  · rw [exec_tmPoll_due hdue] at h
    have hsize := scanned_values_length s
    generalize scanned s = scan at h hsize
    rcases emitTelemetry_cases (s.timeTicks.setWidth 24) scan.1.mask scan.1.values
      { scan.2 with tracingOnce := false } with he | ⟨-, he⟩ | ⟨hlen, he⟩ <;> rw [he] at h <;> cases h
    exact ⟨rfl, by omega⟩
  · rw [exec_tmPoll_idle hdue] at h
    cases h

/-- R95, R292: a telemetry message within its bound is not refused. -/
theorem tlmTelemetry_not_refused {timestamp : BitVec 24} {mask : BitVec 16} {values : List Byte}
    (hw : (Instr.tlmTelemetry timestamp mask values).wf = true) (s : State) (r : Refusal) :
    exec (.tlmTelemetry timestamp mask values) s ≠ .refused r := by
  have hlen : 5 + values.length ≤ 124 := of_decide_eq_true hw
  show emitTelemetry timestamp mask values s ≠ .refused r
  rcases emitTelemetry_cases timestamp mask values s with he | ⟨-, he⟩ | ⟨hlong, -⟩
  · rw [he]; exact fun h => nomatch h
  · rw [he]; exact fun h => nomatch h
  · exact absurd hlong (Nat.not_lt.2 hlen)

/-- R310, R312: the two refusals. -/
theorem exec_refused {i : Instr} {s : State} {r : Refusal} (hw : i.wf = true ∨ NamesSlot i) (hc : s.cfg.Valid)
    (h : exec i s = .refused r) :
    (r = .cfgLen7 ∧ IsConfigOf7 i) ∨ (r = .bodyTooLong ∧ i = .tmPoll ∧ 119 < totalSize s) := by
  cases hcommand : commandOf i with
  | some command =>
    obtain ⟨hd, ps, he, h7⟩ := exec_command hcommand s
    obtain ⟨hr, hconfig, hlen⟩ := receive_refused hc (he.symm.trans h)
    exact .inl ⟨hr, h7 hconfig hlen⟩
  | none =>
    cases i <;> cases hcommand
    case none.tmPoll.refl =>
      obtain ⟨hr, hsize⟩ := tmPoll_refused h
      exact .inr ⟨hr, rfl, hsize⟩
    case none.tlmTelemetry.refl timestamp mask values =>
      have hwf := hw.resolve_right fun hn => by rcases hn with ⟨_, hn⟩ | ⟨_, _, hn⟩ <;> cases hn
      exact absurd h (tlmTelemetry_not_refused hwf s r)
    all_goals cases h

/-- Settles O54: there is no fault to end with, and an outcome that is no refusal is a next state. -/
theorem onlyTwoRefusals : Obligations.OnlyTwoRefusals := by
  refine ⟨fun _ _ r => (nomatch r), fun i s hw hc hconfig hsize => ?_, fun _ _ _ hw hc h => exec_refused hw hc h⟩
  cases he : exec i s with
  | next t => exact ⟨t, rfl⟩
  | fault r => exact nomatch r
  | refused r =>
    rcases exec_refused hw hc he with ⟨-, h7⟩ | ⟨-, hpoll, hlong⟩
    · exact absurd h7 hconfig
    · exact absurd (hsize hpoll) (Nat.not_le.2 hlong)

end Sys2Proof.Machine
